-- ==== Sys2Proof/Word.lean ====
section
/-! DEFINITION. The plain words of the block: a byte, a 7-bit bus address, the 32-bit frequency
operand, and an exact ratio of integers (the form in which the divisor's rational parameters are
written). -/

namespace Sys2Proof

/-- A byte: 8 bits, bit 0 the least significant (rule R7). -/
abbrev Byte := BitVec 8

/-- A 7-bit bus address (rules R14, R40). -/
abbrev BusAddr := BitVec 7

/-- A frequency in Hz: `FREQ_WIDTH` = 32 bits, unsigned (rule R5, decision D5). -/
abbrev Freq := BitVec 32

/-- An exact ratio `num / den`, written as two integers so that a configuration is plain data. -/
structure Ratio where
  num : Int
  den : Nat
deriving DecidableEq, Repr, Inhabited

/-- The rational number a ratio stands for. -/
def Ratio.toRat (r : Ratio) : Rat := (r.num : Rat) / (r.den : Rat)

end Sys2Proof
end

