-- ==== Sys2Proof/Config.lean ====
section
/-! DEFINITION. What an implementation fixes (the parameters of rule R5), the choices that belong to
the environment and not to the block (rules R10, R47 to R49, R52, R54), and the free values: opaque
constants that stand for what no source gives. -/

namespace Sys2Proof

/-- The direction bit of a start frame: 0 = write, 1 = read (rule R77). -/
inductive Dir where
  | write
  | read
deriving DecidableEq, Repr, Inhabited

/-- The two ports of the board (rule R6). -/
inductive PortName where
  | a
  | b
deriving DecidableEq, Repr, Inhabited

/-- Parameter `PIN_CONTENTION`: what acquiring a held pin does (rule R5, conflict C4). -/
inductive PinContention where
  | block
  | fail
  | either
deriving DecidableEq, Repr, Inhabited

/-- Parameter `XFER_DATA_PHASE`: whether TRANSFER writes its write buffer (rule R5, conflict C2). -/
inductive DataPhase where
  | absent
  | present
deriving DecidableEq, Repr, Inhabited

/-- The parameters of rule R5. Every one that the spec marks OPEN is a field here, so a claim about
the machine is a claim for every value of it. -/
structure Config where
  /-- `MAX_CLOCK`, Hz. -/
  maxClock : Nat
  /-- `RISE_TIME`, seconds. -/
  riseTime : Ratio
  /-- `SCALE`. -/
  scale : Ratio
  /-- `OFFSET`. -/
  offset : Ratio
  opEnableI2c : Byte
  opStart : Byte
  opTx : Byte
  opRx : Byte
  opStop : Byte
  tagData : Byte
  /-- `N_PINS`, the number of pin indices the port exposes. -/
  nPins : Nat
  pinContention : PinContention
  xferFirstDir : Dir
  xferDataPhase : DataPhase
  /-- `ENDPOINT[a]` and `ENDPOINT[b]`; no rule reads them (decision D29). -/
  endpointA : String
  endpointB : String
deriving DecidableEq, Repr

/-- `MAX_LEN`: the longest buffer in contract (rule R5). -/
abbrev maxLen : Nat := 255

/-- `PIN_SCL`: the pin index of the clock line (rule R5). -/
abbrev pinScl : Nat := 0

/-- `PIN_SDA`: the pin index of the data line (rule R5). -/
abbrev pinSda : Nat := 1

namespace Config

/-- The five command opcodes (rule R74). -/
def opcodes (c : Config) : List Byte := [c.opEnableI2c, c.opStart, c.opTx, c.opRx, c.opStop]

/-- The constraint column of rule R5: all that a model may assume of the parameters. -/
def wf (c : Config) : Bool :=
  decide (0 < c.maxClock) && decide (0 ≤ c.riseTime.num) && decide (0 < c.riseTime.den) &&
  decide (0 < c.scale.num) && decide (0 < c.scale.den) && decide (0 < c.offset.den) &&
  decide c.opcodes.Nodup && decide (2 ≤ c.nPins) && decide (c.endpointA ≠ c.endpointB)

/-- The endpoint address a port is bound to (rule R51). -/
def endpoint (c : Config) : PortName → String
  | .a => c.endpointA
  | .b => c.endpointB

/-- The default values of rule R5's table. PRESUMED (log entry 1): the spec marks every concrete
number here as general knowledge (93_implementation_defined.md G1, G2, G4, G5); the values of
`pinContention`, `xferFirstDir` and `xferDataPhase` are the spec's own (D9, D10, D11). -/
def gk : Config where
  maxClock := 48000000
  riseTime := ⟨15, 1000000000⟩
  scale := ⟨2, 1⟩
  offset := ⟨5, 1⟩
  opEnableI2c := 0x0C
  opStart := 0x13
  opTx := 0x10
  opRx := 0x11
  opStop := 0x14
  tagData := 0x84
  nPins := 8
  pinContention := .either
  xferFirstDir := .read
  xferDataPhase := .absent
  endpointA := "/var/run/tessel/port_a"
  endpointB := "/var/run/tessel/port_b"

end Config

/-! ### The environment's choices -/

/-- What the environment makes of one `ChSend` (rules R48, R100): all bytes written, or a failure
that leaves a prefix of `k` of them (all of them where there are fewer than `k`) on the wire. -/
inductive SendOutcome where
  | ok
  | fail (k : Nat)
deriving DecidableEq, Repr, Inhabited

/-- What the environment makes of one `ChRecvExact n` (rules R47, R49, R102): no failure (`n` bytes
are handed over if RX holds them, else the receiver has no step), or a failure that has taken `k`
bytes (never more than `n`, never more than RX holds). -/
inductive RecvOutcome where
  | deliver
  | fail (k : Nat)
deriving DecidableEq, Repr, Inhabited

/-- What an attempt on a held pin does where `PIN_CONTENTION` is EITHER (rule R52). -/
inductive PinChoice where
  | block
  | fail
deriving DecidableEq, Repr, Inhabited

/-- The order in which CLOSE releases the engine's pins (rule R128, U27). -/
inductive CloseOrder where
  | sdaFirst
  | sclFirst
deriving DecidableEq, Repr, Inhabited

/-- The moves of the agents that are not specified: the coprocessor, other peripheral engines and
pin users of the port (rule R10), and the poisoning of a pin lock (rule R54). A move that is not
enabled does nothing. -/
inductive EnvMove where
  /-- The coprocessor sends bytes (R47). -/
  | coprocSends (bytes : List Byte)
  /-- Another engine takes the Channel lock, if it is free. -/
  | otherLocks
  /-- Another engine writes bytes to TX, if it holds the Channel lock. -/
  | otherWrites (bytes : List Byte)
  /-- Another engine releases the Channel lock it holds. -/
  | otherUnlocks
  /-- Another pin user takes pin lock `i`, if it is free. -/
  | otherAcquires (i : Nat)
  /-- Another pin user releases pin lock `i`, if it holds it. -/
  | otherReleases (i : Nat)
  /-- The holder of pin lock `i`, a pin user, fails: the lock becomes POISONED. -/
  | poison (i : Nat)
deriving DecidableEq, Repr, Inhabited

/-- Which agent takes the next step (rules R10, R61, R203: any agent may be scheduled at any time). -/
inductive Turn where
  /-- Host thread `t` issues its next call. -/
  | call (t : Nat)
  /-- The `k`-th waiting caller tries its call again. -/
  | retry (k : Nat)
  /-- The sequencer goes on with the operation in progress. -/
  | sequencer
  /-- The end of an engine's life goes on: the next of its pins is released. -/
  | closer
  /-- Another agent moves. -/
  | env (m : EnvMove)
deriving DecidableEq, Repr, Inhabited

/-! ### Free values

Each is opaque: nothing can be proved of its values, so a claim about the machine holds for all of
them. They are applied to the port and to the counter `Env.drawn` of its state, so that nothing
relates the values of the two ports either (rules R6, R212). -/

namespace Config

/-- The agent that steps next, where the state's own list of turns is exhausted (log entry 6). -/
opaque freeTurn : PortName → Nat → Turn

/-- How many phases the sequencer performs before another agent may step (log entry 6). -/
opaque freeBurst : PortName → Nat → Nat

/-- The outcome of a Channel write (U13, U16). -/
opaque freeSend : PortName → Nat → SendOutcome

/-- The outcome of a Channel receive (U14, U16, U17). -/
opaque freeRecv : PortName → Nat → RecvOutcome

/-- The outcome of an attempt on a held pin (U10). -/
opaque freePinChoice : PortName → Nat → PinChoice

/-- The order of CLOSE's two releases (U27). -/
opaque freeCloseOrder : PortName → Nat → CloseOrder

/-- A byte of `RBUF` after a failed payload receive (U15, rule R190). -/
opaque freeByte : PortName → Nat → Byte

/-- The contents of RX when the Port is constructed (U20, rules R29 and R212). -/
opaque rxAtLaunch : PortName → List Byte

end Config

end Sys2Proof
end

