-- ==== Sys2Proof/Syntax.lean ====
section
/-! DEFINITION. The instructions: one constructor for every row of spec/opcode_table.json, the five
command frames and the one reply frame of the wire protocol, and the eight operations of the host
port (rules R74, R80, R85). -/

namespace Sys2Proof

/-- The rows of the opcode table. The command frames carry their one argument byte in the form rules
R76 to R78 give it; DATA carries the length its requester knows (rule R79); the operations carry the
operands of rule R85. Bus addresses, buffer lengths and the pin index of an operation are plain
numbers: the host interface takes wider values than the contract allows, and rules R77, R78 and R83
say that such a request is refused. -/
inductive Instr where
  /-- ENABLE_I2C (R104): the divisor byte. -/
  | enableI2c (div : Byte)
  /-- START (R105): bus address and direction. -/
  | start (addr : BusAddr) (dir : Dir)
  /-- TX (R106): the number of data bytes announced. -/
  | tx (len : Byte)
  /-- RX (R107): the number of bytes requested. -/
  | rx (len : Byte)
  /-- STOP (R108). -/
  | stop
  /-- DATA (R109): receive and check a data reply of `len` payload bytes. -/
  | data (len : Byte)
  /-- OPEN (R126): the requested frequency. -/
  | openEngine (freq : Freq)
  /-- SEND (R152). -/
  | send (addr : Nat) (wbuf : List Byte)
  /-- READ (R153): `rlen` is the length of the read buffer. -/
  | read (addr : Nat) (rlen : Nat)
  /-- TRANSFER (R154). -/
  | transfer (addr : Nat) (wbuf : List Byte) (rlen : Nat)
  /-- CLOSE (R128). -/
  | close
  /-- DIVISOR (R140). -/
  | divisor (freq : Freq)
  /-- PIN (R120). -/
  | pin (index : Nat)
  /-- PIN_RELEASE (R121): the handle, by its index. -/
  | pinRelease (index : Nat)
deriving DecidableEq, Repr

/-- The eight operations, the values of `OPSEL` (rule R85). -/
inductive Op where
  | openEngine
  | send
  | read
  | transfer
  | close
  | divisor
  | pin
  | pinRelease
deriving DecidableEq, Repr

/-- The spaces in which the table's match values live: command frames and reply frames are told from
operation requests by the port they arrive at, not by their bytes (the table's "space" column). -/
inductive Space where
  | command
  | reply
  | request
deriving DecidableEq, Repr

/-- The space of an instruction's encoding. -/
def Instr.space : Instr → Space
  | .enableI2c _ => .command
  | .start _ _ => .command
  | .tx _ => .command
  | .rx _ => .command
  | .stop => .command
  | .data _ => .reply
  | .openEngine _ => .request
  | .send _ _ => .request
  | .read _ _ => .request
  | .transfer _ _ _ => .request
  | .close => .request
  | .divisor _ => .request
  | .pin _ => .request
  | .pinRelease _ => .request

end Sys2Proof
end

