-- ==== Sys2Proof/WellFormed.lean ====
section
/-! DEFINITION. Which instructions are in contract: a bus address fits 7 bits (rule R77), a buffer
is no longer than 255 bytes (rule R78), a pin index fits the request record's field (rule R86, log
entry 3). -/

namespace Sys2Proof

/-- A bus address is in contract: below 128 (rule R77). -/
def addrInContract (addr : Nat) : Bool := decide (addr < 128)

/-- A buffer length is in contract: at most `MAX_LEN` (rule R78). -/
def lenInContract (n : Nat) : Bool := decide (n ≤ maxLen)

/-- A pin index can be written in the request record's 32-bit field. -/
def indexFits (i : Nat) : Bool := decide (i < 2 ^ 32)

/-- The well-formed instructions. -/
def Instr.wellFormed : Instr → Bool
  | .enableI2c _ => true
  | .start _ _ => true
  | .tx _ => true
  | .rx _ => true
  | .stop => true
  | .data _ => true
  | .openEngine _ => true
  | .send addr wbuf => addrInContract addr && lenInContract wbuf.length
  | .read addr rlen => addrInContract addr && lenInContract rlen
  | .transfer addr wbuf rlen =>
      addrInContract addr && lenInContract wbuf.length && lenInContract rlen
  | .close => true
  | .divisor _ => true
  | .pin index => indexFits index
  | .pinRelease index => indexFits index

end Sys2Proof
end

