-- ==== Sys2Proof/Decode.lean ====
section
/-! DEFINITION. Encodings: the frame formats F0, F1 and R of rules R70 to R75, operand assembly
(rules R76 to R78), the request record (rules R85, R86), the decoder of each space, total on any
bytes and rejecting by name, and after it the encoder. -/

namespace Sys2Proof

/-! ### Operand assembly -/

/-- The direction bit: 0 = write, 1 = read (rule R77). -/
def Dir.bit : Dir → BitVec 1
  | .write => 0#1
  | .read => 1#1

/-- The direction a bit stands for. -/
def dirOfBit (b : Bool) : Dir := if b then .read else .write

/-- The start frame's argument `{ADDR[6:0], dir}` (rule R77). -/
def startArg (a : BusAddr) (d : Dir) : Byte := a ++ d.bit

/-- The `OPSEL` number of an operation (rule R85). -/
def Op.opsel : Op → BitVec 3
  | .openEngine => 0#3
  | .send => 1#3
  | .read => 2#3
  | .transfer => 3#3
  | .close => 4#3
  | .divisor => 5#3
  | .pin => 6#3
  | .pinRelease => 7#3

/-- The operation a value of `OPSEL` selects; all eight values are used (rule R85). -/
def opOfOpsel (b : BitVec 3) : Op :=
  if b = 0#3 then .openEngine else if b = 1#3 then .send else if b = 2#3 then .read
  else if b = 3#3 then .transfer else if b = 4#3 then .close else if b = 5#3 then .divisor
  else if b = 6#3 then .pin else .pinRelease

/-! ### The bytes of the frames on the wire (rules R71, R72, R88) -/

/-- `ENABLE_I2C(d)` = `[OP_ENABLE_I2C, d]`. -/
def enableFrame (c : Config) (d : Byte) : List Byte := [c.opEnableI2c, d]

/-- `START({a, dir})` = `[OP_START, {a, dir}]`. -/
def startFrame (c : Config) (a : BusAddr) (d : Dir) : List Byte := [c.opStart, startArg a d]

/-- `TX(n)` = `[OP_TX, n]`. -/
def txFrame (c : Config) (n : Byte) : List Byte := [c.opTx, n]

/-- `RX(n)` = `[OP_RX, n]`. -/
def rxFrame (c : Config) (n : Byte) : List Byte := [c.opRx, n]

/-- `STOP` = `[OP_STOP]`. -/
def stopFrame (c : Config) : List Byte := [c.opStop]

/-- The bytes of a data reply (format R, rule R75): the tag, then the payload. -/
def dataReply (c : Config) (payload : List Byte) : List Byte := c.tagData :: payload

/-! ### The decoder -/

/-- Why bytes are no instruction. -/
inductive DecodeError where
  /-- There is no first byte. -/
  | empty
  /-- The byte is none of the five command opcodes (rule R81). -/
  | unknownOpcode (b : Byte)
  /-- The byte is not `TAG_DATA` (rules R80, R82). -/
  | unknownTag (b : Byte)
  /-- Bits 7:3 of a request's selector byte are not zero (log entry 3). -/
  | selectorBits (b : Byte)
  /-- The bytes end before the operands do. -/
  | truncated
  /-- The bus address field of a request is 128 or more (rules R77, R83). -/
  | addressOutOfContract (b : Byte)
deriving DecidableEq, Repr

/-- A decoder's answer: an instruction and the bytes after it, or the reason there is none. -/
abbrev Decoded := Except DecodeError (Instr × List Byte)

/-- Takes the one argument byte of a frame. -/
def decodeArg (k : Byte → Instr) : List Byte → Decoded
  | [] => .error .truncated
  | b :: rest => .ok (k b, rest)

/-- The START instruction of an argument byte: `ADDR` = bits 7:1, `dir` = bit 0 (rule R77). -/
def startOfArg (b : Byte) : Instr := .start (b.extractLsb' 1 7) (dirOfBit (b.getLsbD 0))

/-- The command frame decoder: the opcode byte says which frame it is and whether an argument byte
follows (rules R74, R84). -/
def decodeCommand (c : Config) : List Byte → Decoded
  | [] => .error .empty
  | op :: rest =>
    if op = c.opEnableI2c then decodeArg .enableI2c rest
    else if op = c.opStart then decodeArg startOfArg rest
    else if op = c.opTx then decodeArg .tx rest
    else if op = c.opRx then decodeArg .rx rest
    else if op = c.opStop then .ok (.stop, rest)
    else .error (.unknownOpcode op)

/-- The decoder of a request to receive a data reply: the reply's tag, then the length that its
requester knows (rules R79, R80; log entry 3). -/
def decodeReply (c : Config) : List Byte → Decoded
  | [] => .error .empty
  | tag :: rest =>
    if tag = c.tagData then decodeArg .data rest else .error (.unknownTag tag)

/-- Reads a 32-bit field, its least significant byte first (log entry 3). -/
def decode32 (k : BitVec 32 → Instr) : List Byte → Decoded
  | b0 :: b1 :: b2 :: b3 :: rest => .ok (k (b3 ++ b2 ++ b1 ++ b0), rest)
  | _ => .error .truncated

/-- Reads a buffer of `n` bytes. -/
def decodeBuffer (k : List Byte → Instr) (n : Nat) (bytes : List Byte) : Decoded :=
  if n ≤ bytes.length then .ok (k (bytes.take n), bytes.drop n) else .error .truncated

/-- Accepts a bus address field only in contract: it is never truncated (rules R77, R83). -/
def checkAddr (a : Byte) (answer : Decoded) : Decoded :=
  if addrInContract a.toNat then answer else .error (.addressOutOfContract a)

/-- SEND's operands: `ADDR`, `WLEN`, then `WLEN` bytes. -/
def decodeSend : List Byte → Decoded
  | a :: n :: rest => checkAddr a (decodeBuffer (.send a.toNat) n.toNat rest)
  | _ => .error .truncated

/-- READ's operands: `ADDR`, `RLEN`. -/
def decodeRead : List Byte → Decoded
  | a :: n :: rest => checkAddr a (.ok (.read a.toNat n.toNat, rest))
  | _ => .error .truncated

/-- TRANSFER's operands: `ADDR`, `RLEN`, `WLEN`, then `WLEN` bytes. -/
def decodeTransfer : List Byte → Decoded
  | a :: r :: n :: rest =>
    checkAddr a (decodeBuffer (fun w => .transfer a.toNat w r.toNat) n.toNat rest)
  | _ => .error .truncated

/-- The operands of the operation that `OPSEL` selects (rule R85). -/
def decodeOperands (rest : List Byte) : Op → Decoded
  | .openEngine => decode32 .openEngine rest
  | .send => decodeSend rest
  | .read => decodeRead rest
  | .transfer => decodeTransfer rest
  | .close => .ok (.close, rest)
  | .divisor => decode32 .divisor rest
  | .pin => decode32 (fun v => .pin v.toNat) rest
  | .pinRelease => decode32 (fun v => .pinRelease v.toNat) rest

/-- The request decoder: `OPSEL` in bits 2:0 of the selector byte, then the operands. -/
def decodeRequest : List Byte → Decoded
  | [] => .error .empty
  | sel :: rest =>
    if sel.extractLsb' 3 5 = 0#5 then decodeOperands rest (opOfOpsel (sel.extractLsb' 0 3))
    else .error (.selectorBits sel)

/-- The decoder of a space. -/
def decode (c : Config) : Space → List Byte → Decoded
  | .command, bytes => decodeCommand c bytes
  | .reply, bytes => decodeReply c bytes
  | .request, bytes => decodeRequest bytes

/-! ### The encoder -/

/-- The four bytes of a 32-bit field, the least significant first (log entry 3). -/
def encode32 (v : BitVec 32) : List Byte :=
  [v.extractLsb' 0 8, v.extractLsb' 8 8, v.extractLsb' 16 8, v.extractLsb' 24 8]

/-- A request's selector byte. -/
def selector (o : Op) : Byte := 0#5 ++ o.opsel

/-- A number as one byte of a request. -/
def byteOf (n : Nat) : Byte := BitVec.ofNat 8 n

/-- The bytes of an instruction in its space: a frame's bytes are those of the wire; a request's are
those of the record of rule R86 in the layout of log entry 3. -/
def encode (c : Config) : Instr → List Byte
  | .enableI2c d => enableFrame c d
  | .start a d => startFrame c a d
  | .tx n => txFrame c n
  | .rx n => rxFrame c n
  | .stop => stopFrame c
  | .data n => [c.tagData, n]
  | .openEngine f => selector .openEngine :: encode32 f
  | .send a w => [selector .send, byteOf a, byteOf w.length] ++ w
  | .read a n => [selector .read, byteOf a, byteOf n]
  | .transfer a w n => [selector .transfer, byteOf a, byteOf n, byteOf w.length] ++ w
  | .close => [selector .close]
  | .divisor f => selector .divisor :: encode32 f
  | .pin i => selector .pin :: encode32 (BitVec.ofNat 32 i)
  | .pinRelease i => selector .pinRelease :: encode32 (BitVec.ofNat 32 i)

/-! ### Instructions given as a number, as the opcode table numbers their bits -/

/-- The bytes of a number of `nbits` bits, the first byte its least significant, followed by zeros
up to the longest instruction (a TRANSFER of 255 bytes: 259). -/
def tableBytes (nbits w : Nat) : List Byte :=
  (List.range ((nbits + 7) / 8)).map (fun i => BitVec.ofNat 8 (w >>> (8 * i))) ++
    List.replicate 259 0#8

/-- The space of a table row, by its first byte: a request's selector byte is below 8, a reply's
byte is the tag, and the rest are command frames. -/
def tableSpace (c : Config) (w : Nat) : Space :=
  let b : Byte := BitVec.ofNat 8 w
  if b.toNat < 8 then .request else if b = c.tagData then .reply else .command

/-- The instruction the decoder reads from a word of the opcode table. -/
def decodeTableWord (nbits w : Nat) : Option Instr :=
  match decode Config.gk (tableSpace Config.gk w) (tableBytes nbits w) with
  | .ok (i, _) => some i
  | .error _ => none

/-! ### Reading a recorded TX stream -/

/-- One item of a TX stream: a command frame and the data run that follows it. -/
structure WireItem where
  frame : Instr
  run : List Byte
deriving DecidableEq, Repr

/-- How many raw bytes follow a frame for a reader that takes every announced run (rule R84). -/
def runLength : Instr → Nat
  | .tx n => n.toNat
  | _ => 0

/-- A reader of a recorded TX stream (rule R84): frame by frame, and after a TX frame that announces
`n` bytes the next `n` raw bytes as its data run. At most `fuel` frames are read. -/
def readStream (c : Config) : Nat → List Byte → Except DecodeError (List WireItem)
  | _, [] => .ok []
  | 0, _ => .error .truncated
  | fuel + 1, bytes =>
    match decodeCommand c bytes with
    | .error e => .error e
    | .ok (i, rest) =>
      if runLength i ≤ rest.length then
        match readStream c fuel (rest.drop (runLength i)) with
        | .error e => .error e
        | .ok items => .ok (⟨i, rest.take (runLength i)⟩ :: items)
      else .error .truncated

end Sys2Proof
end

