-- ==== Sys2Proof/Machine/State.lean ====
section
/-! DEFINITION. The state of one instance of the block (one port): every register and every piece
of port-level state of 10_state.md, the host's calls, and the environment's choices, all as plain
data; the state after Port construction (rule R29), which is the machine's reset. -/

namespace Sys2Proof.Machine

/-- `PHASE`, the sequencer's position in the frame sequence of the operation (rule R16). -/
inductive Phase where
  | idle
  | oAcqScl
  | oAcqSda
  | oLock
  | oEnable
  | sLock
  | sStart
  | sTxhdr
  | sData
  | sStop
  | rLock
  | rStart
  | rRxhdr
  | rStop
  | rTag
  | rPayload
  | tLock
  | tStart1
  | tTxhdr
  | tData
  | tStart2
  | tRxhdr
  | tStop
  | tTag
  | tPayload
  | unlock
deriving DecidableEq, Repr

/-- `STATUS`: success or one of the five error kinds (rules R18, R180); `ERR_DESYNC` carries the
offending tag byte (decision D20). -/
inductive Status where
  | ok
  | errConnect
  | errPinContention
  | errPinUnknown
  | errIo
  | errDesync (tag : Byte)
deriving DecidableEq, Repr

/-- Who holds the Channel lock (rules R10, R26, R55). -/
inductive ChOwner where
  /-- The sequencer of this port's engine. -/
  | sequencer
  /-- Another peripheral engine of the port. -/
  | other
deriving DecidableEq, Repr

/-- `CHLOCK` (rule R26). -/
inductive ChLock where
  | free
  | held (owner : ChOwner)
deriving DecidableEq, Repr

/-- Who holds a pin's one live handle (rules R53, R54, R121, R200). -/
inductive PinOwner where
  /-- The thread to which PIN returned the handle (log entry 18). -/
  | host (thread : Nat)
  /-- The engine, or the OPEN that builds it, or the CLOSE that ends it. -/
  | engine
  /-- A pin user outside this model. -/
  | other
deriving DecidableEq, Repr

/-- `PINLOCK[i]` (rule R27). -/
inductive PinLock where
  | free
  | held (owner : PinOwner)
  | poisoned
deriving DecidableEq, Repr

/-- What the sequencer is working for: an operation, or a bare DATA reply (log entry 4). -/
inductive Job where
  | operation
  | bareReply
deriving DecidableEq, Repr

/-- What the call that returned last handed to its caller: the result record of rule R86. -/
inductive Ret where
  /-- No value and no status of its own: CLOSE, PIN_RELEASE, and before any call has returned. -/
  | nothing
  /-- A status and nothing else. -/
  | status (st : Status)
  /-- `OK` with `RBUF[0..RLEN-1]`. -/
  | received (bytes : List Byte)
  /-- DIVISOR's byte. -/
  | divisor (d : Byte)
  /-- `OK` with a pin handle. -/
  | handle (index : Nat)
  /-- The `ok` (true) or `fail` (false) of a bare command frame. -/
  | frame (sent : Bool)
deriving DecidableEq, Repr

/-- A call a host thread is to issue: the thread, the space it is issued in, and its bytes (rules R61,
R203; log entry 18). -/
structure Call where
  thread : Nat
  space : Space
  bytes : List Byte
deriving DecidableEq, Repr

/-- A thread whose call waits: the thread, its call, and, where its attempt on a held pin has blocked,
that pin, until the pin is released (rules R52, R54; log entry 12). -/
structure Waiter where
  thread : Nat
  instr : Instr
  blockedOn : Option Nat
deriving DecidableEq, Repr

/-- The environment's and the scheduler's choices. Each list holds the next choices of one kind,
first one first; where a list is exhausted the choice is a free value of Config at `drawn`. -/
structure Env where
  turns : List Turn
  bursts : List Nat
  sends : List SendOutcome
  recvs : List RecvOutcome
  pinChoices : List PinChoice
  closeOrders : List CloseOrder
  /-- How many free values have been used. -/
  drawn : Nat
deriving DecidableEq, Repr

/-- No choice is known. -/
def Env.unknown : Env := ⟨[], [], [], [], [], [], 0⟩

/-- The state of one port's instance of the block. -/
structure State where
  /-- The parameters of rule R5; no step changes them. -/
  cfg : Config
  /-- Which port this instance is (rules R6, R51). -/
  port : PortName
  /-- `CH_UP` (R24). -/
  chUp : Bool
  /-- `TX`, all bytes written to the Channel so far (R25). -/
  tx : List Byte
  /-- `RX`, the bytes the coprocessor has sent and nobody has consumed (R25). -/
  rx : List Byte
  /-- `CHLOCK` (R26). -/
  chlock : ChLock
  /-- `PINLOCK[i]` for every index `i` below `N_PINS` (R27). -/
  pinlock : List PinLock
  /-- `EXISTS` (R20). -/
  engExists : Bool
  /-- `HAS_SCL` (R11, R13). -/
  hasScl : Bool
  /-- `HAS_SDA` (R11, R13). -/
  hasSda : Bool
  /-- `FREQ` (R11, R12). -/
  freq : Freq
  /-- `OPSEL` (R14). -/
  opsel : Op
  /-- `ADDR` (R14). -/
  addr : BusAddr
  /-- `WLEN` (R14). -/
  wlen : Byte
  /-- `RLEN` (R14). -/
  rlen : Byte
  /-- `WBUF[0..254]` (R14). -/
  wbuf : List Byte
  /-- `FREQ_REQ` (R14). -/
  freqReq : Freq
  /-- `RBUF[0..254]` (R15). -/
  rbuf : List Byte
  /-- `PHASE` (R16). -/
  phase : Phase
  /-- `STATUS` (R18). -/
  status : Status
  /-- The model's own: the outcome of the sequence so far, the `w` of rule R126's pseudocode. -/
  outcome : Status
  /-- The model's own: what the sequencer is working for. -/
  job : Job
  /-- The model's own: the thread whose call the sequencer works for, while `PHASE` is not `IDLE`. -/
  opThread : Nat
  /-- The model's own: the pin on which the attempt of the OPEN in progress has blocked, until that pin
  is released (R52, R126). -/
  parked : Option Nat
  /-- The model's own: the pins a CLOSE in progress has still to release (R128). -/
  closing : List Nat
  /-- The model's own: the thread whose CLOSE that is, while there are such pins. -/
  closeThread : Nat
  /-- The model's own: the calls the host threads are to issue, in each thread's order. -/
  calls : List Call
  /-- The model's own: the threads whose calls wait. -/
  waiting : List Waiter
  /-- The model's own: the thread whose call `exec` runs. -/
  caller : Nat
  /-- The model's own: what the last returned call handed to its caller (R86). -/
  ret : Ret
  /-- The model's own: the thread to which it was handed. -/
  retTo : Nat
  /-- The model's own: the environment's choices. -/
  env : Env
deriving DecidableEq, Repr

/-- The reasons a step of the machine faults: none. Every error of the block is a status that an
operation returns (rules R180, R187), and a register holds a value from reset on (log entry 2), so
no definition raises a fault. Safe: no run ends in one. -/
inductive Fault where
deriving DecidableEq, Repr

/-- The reasons a step is refused. -/
inductive Refusal where
  /-- Raised by `exec` for an instruction that has no meaning yet. No arm does. Safe. -/
  | notModelled (mnemonic : String)
  /-- Raised by a host call whose bytes are no instruction (rules R81, R82, R83). Safe: the model
  says nothing of such a call. -/
  | undecodable (e : DecodeError)
  /-- Raised by SEND, READ and TRANSFER for a bus address of 128 or more (rules R77, R83, U2). Safe. -/
  | addressOutOfContract
  /-- Raised by SEND, READ and TRANSFER for a buffer of more than 255 bytes (rules R78, R83, U1).
  Safe. -/
  | lengthOutOfContract
  /-- Raised by SEND, READ, TRANSFER and CLOSE where no engine exists: there is nothing to call
  (rules R128, R151, U22). Safe. -/
  | noEngine
  /-- Raised by CLOSE while an operation is in progress (rule R128, D18, U22). Safe. -/
  | closeDuringOperation
  /-- Raised by PIN_RELEASE for an index whose handle the calling thread does not hold: only the
  holder can release it (rules R54, R121, U22). Safe. -/
  | noHandle
deriving DecidableEq, Repr

/-- The state of a freshly constructed Port (rule R29) with parameters `c`. The registers to which
rule R29 gives no value hold the ones of log entry 2; RX holds whatever the coprocessor has sent. -/
def State.fresh (c : Config) (p : PortName) : State where
  cfg := c
  port := p
  chUp := true
  tx := []
  rx := Config.rxAtLaunch p
  chlock := .free
  pinlock := List.replicate c.nPins .free
  engExists := false
  hasScl := false
  hasSda := false
  freq := 0
  opsel := .openEngine
  addr := 0
  wlen := 0
  rlen := 0
  wbuf := List.replicate maxLen 0
  freqReq := 0
  rbuf := List.replicate maxLen 0
  phase := .idle
  status := .ok
  outcome := .ok
  job := .operation
  opThread := 0
  parked := none
  closing := []
  closeThread := 0
  calls := []
  waiting := []
  caller := 0
  ret := .nothing
  retTo := 0
  env := Env.unknown

/-- The machine right after reset: the state after the construction of port "a" (rule R210). -/
def State.reset : State := State.fresh Config.gk .a

/-- What a meaning or a step answers. -/
abbrev Out := Host.Outcome State Fault Refusal

end Sys2Proof.Machine
end

