-- ==== Sys2Proof/Machine/Divisor.lean ====
section
/-! DEFINITION. The clock-divisor calculator (42_divisor.md): a pure function of the frequency and
of the four divisor parameters, and the operation DIVISOR. -/

namespace Sys2Proof.Machine

/-- `raw`, evaluated over the rationals with no intermediate rounding (rules R140, R141). -/
def divisorRaw (c : Config) (f : Freq) : Rat :=
  ((c.maxClock : Rat) / (f.toNat : Rat) - (c.maxClock : Rat) * c.riseTime.toRat) / c.scale.toRat
    - c.offset.toRat

/-- `compute_divisor` (rules R140 to R144): 255 for a frequency of 0, else `raw` clamped to 0..255
before any conversion and then rounded down. -/
def computeDivisor (c : Config) (f : Freq) : Byte :=
  if f = 0#32 then 255#8
  else if 255 < divisorRaw c f then 255#8
  else if divisorRaw c f < 0 then 0#8
  else BitVec.ofInt 8 (divisorRaw c f).floor

/-- `DIV`, the divisor byte of the frequency the engine holds: derived, never stored (rule R21). -/
def State.div (s : State) : Byte := computeDivisor s.cfg s.freq

/-- DIVISOR (rules R140, R145): hands the byte to the calling thread; it writes no state of the block,
`STATUS` not either (rule R145 against rule R18, log entry 5). -/
def execDivisor (f : Freq) (s : State) : Out :=
  .next { s with ret := .divisor (computeDivisor s.cfg f), retTo := s.caller }

end Sys2Proof.Machine
end

