-- ==== Sys2Proof/Machine/Flags.lean ====
section
/-! DEFINITION. Flags. The block has no flag register and no condition codes (rule R18), and no
operation writes a flag as a side effect (rule R19); what stands in their place is the derived flag
`BUSY` and the letter codes of the error kinds. -/

namespace Sys2Proof.Machine

/-- `BUSY` = (`PHASE` != `IDLE`) (rule R18). -/
def State.busy (s : State) : Bool := decide (s.phase ≠ .idle)

/-- The document's letter for an error kind (rule R180); `OK` has none. -/
def Status.code : Status → Option Char
  | .ok => none
  | .errConnect => some 'a'
  | .errPinContention => some 'b'
  | .errPinUnknown => some 'c'
  | .errIo => some 'd'
  | .errDesync _ => some 'e'

/-- The phases during which the sequencer holds the Channel lock (rules R56, R155): from the step
after the acquisition to `UNLOCK`. -/
def Phase.locked : Phase → Bool
  | .idle => false
  | .oAcqScl => false
  | .oAcqSda => false
  | .oLock => false
  | .sLock => false
  | .rLock => false
  | .tLock => false
  | .oEnable => true
  | .sStart => true
  | .sTxhdr => true
  | .sData => true
  | .sStop => true
  | .rStart => true
  | .rRxhdr => true
  | .rStop => true
  | .rTag => true
  | .rPayload => true
  | .tStart1 => true
  | .tTxhdr => true
  | .tData => true
  | .tStart2 => true
  | .tRxhdr => true
  | .tStop => true
  | .tTag => true
  | .tPayload => true
  | .unlock => true

/-- The phase that follows when the step at this phase succeeds (rules R16, R126, R152 to R154);
`T_DATA` is passed over where `XFER_DATA_PHASE` = ABSENT. -/
def Phase.next (c : Config) : Phase → Phase
  | .idle => .idle
  | .oAcqScl => .oAcqSda
  | .oAcqSda => .oLock
  | .oLock => .oEnable
  | .oEnable => .unlock
  | .sLock => .sStart
  | .sStart => .sTxhdr
  | .sTxhdr => .sData
  | .sData => .sStop
  | .sStop => .unlock
  | .rLock => .rStart
  | .rStart => .rRxhdr
  | .rRxhdr => .rStop
  | .rStop => .rTag
  | .rTag => .rPayload
  | .rPayload => .unlock
  | .tLock => .tStart1
  | .tStart1 => .tTxhdr
  | .tTxhdr => match c.xferDataPhase with
    | .absent => .tStart2
    | .present => .tData
  | .tData => .tStart2
  | .tStart2 => .tRxhdr
  | .tRxhdr => .tStop
  | .tStop => .tTag
  | .tTag => .tPayload
  | .tPayload => .unlock
  | .unlock => .idle

end Sys2Proof.Machine
end

