-- ==== Sys2Proof/Machine/Operands.lean ====
section
/-! DEFINITION. Operands: the contract every operation's operands must meet, the operand latches
(rules R14, R15, R151), and the byte sequences the operations expand to (rule R158,
95_test_vectors.md section 2). -/

namespace Sys2Proof.Machine

/-- Writes `bytes` into the first cells of a buffer register and leaves the others (rules R14,
R15). -/
def overlay (bytes buffer : List Byte) : List Byte := bytes ++ buffer.drop bytes.length

/-- The refusal that out-of-contract operands meet before anything else is looked at (rules R83,
R151, R191): first the bus address, then the buffer lengths. -/
def contractRefusal (addr : Nat) (lengths : List Nat) : Option Refusal :=
  if addrInContract addr then
    if lengths.all lenInContract then none else some .lengthOutOfContract
  else some .addressOutOfContract

namespace State

/-- Latches OPEN's operand (rule R14). -/
def latchOpen (s : State) (f : Freq) : State :=
  { s with opsel := .openEngine, freqReq := f, outcome := .ok, job := .operation,
           opThread := s.caller, parked := none }

/-- Latches SEND's operands (rules R14, R151). -/
def latchSend (s : State) (addr : Nat) (w : List Byte) : State :=
  { s with opsel := .send, addr := BitVec.ofNat 7 addr, wlen := BitVec.ofNat 8 w.length,
           wbuf := overlay w s.wbuf, outcome := .ok, job := .operation, opThread := s.caller }

/-- Latches READ's operands (rules R14, R151). -/
def latchRead (s : State) (addr rlen : Nat) : State :=
  { s with opsel := .read, addr := BitVec.ofNat 7 addr, rlen := BitVec.ofNat 8 rlen,
           outcome := .ok, job := .operation, opThread := s.caller }

/-- Latches TRANSFER's operands (rules R14, R151). -/
def latchTransfer (s : State) (addr : Nat) (w : List Byte) (rlen : Nat) : State :=
  { s with opsel := .transfer, addr := BitVec.ofNat 7 addr, wlen := BitVec.ofNat 8 w.length,
           rlen := BitVec.ofNat 8 rlen, wbuf := overlay w s.wbuf, outcome := .ok,
           job := .operation, opThread := s.caller }

/-- Latches the length of a bare DATA reply (rule R109; log entry 4). -/
def latchReply (s : State) (n : Byte) : State :=
  { s with rlen := n, outcome := .ok, job := .bareReply, opThread := s.caller }

/-- The data run of the operation in progress: `WBUF[0..WLEN-1]` (rule R73). -/
def dataRun (s : State) : List Byte := s.wbuf.take s.wlen.toNat

end State

/-! ### What the operations put on TX when every write succeeds (rule R158) -/

/-- OPEN: `[OP_ENABLE_I2C, d]`. -/
def openBytes (c : Config) (d : Byte) : List Byte := enableFrame c d

/-- SEND: START with direction 0, TX, the data run, STOP. -/
def sendBytes (c : Config) (addr : Nat) (w : List Byte) : List Byte :=
  startFrame c (BitVec.ofNat 7 addr) .write ++ txFrame c (BitVec.ofNat 8 w.length) ++ w ++
    stopFrame c

/-- READ: START with direction 1, RX, STOP. -/
def readBytes (c : Config) (addr rlen : Nat) : List Byte :=
  startFrame c (BitVec.ofNat 7 addr) .read ++ rxFrame c (BitVec.ofNat 8 rlen) ++ stopFrame c

/-- TRANSFER's data run: the write buffer only where `XFER_DATA_PHASE` = PRESENT (rule R154). -/
def xferRun (c : Config) (w : List Byte) : List Byte :=
  match c.xferDataPhase with
  | .absent => []
  | .present => w

/-- TRANSFER: START with direction `XFER_FIRST_DIR`, TX, its data run, START with direction 1, RX,
STOP. -/
def transferBytes (c : Config) (addr : Nat) (w : List Byte) (rlen : Nat) : List Byte :=
  startFrame c (BitVec.ofNat 7 addr) c.xferFirstDir ++ txFrame c (BitVec.ofNat 8 w.length) ++
    xferRun c w ++ startFrame c (BitVec.ofNat 7 addr) .read ++ rxFrame c (BitVec.ofNat 8 rlen) ++
    stopFrame c

end Sys2Proof.Machine
end

