-- ==== Sys2Proof/Machine/Ops.lean ====
section
/-! DEFINITION. The shared operations: named updates of single registers, the draws of the
environment's choices, the Channel's primitives (rules R100 to R103), the two kinds of lock (rules
R52 to R56), the waiting of a caller, and raising an error (rule R187), which is this block's whole
exception mechanism: there is no handler to enter and no return from an error (rules R187, R192). -/

namespace Sys2Proof.Machine

namespace State

/-! ### Named updates -/

def setEnv (s : State) (e : Env) : State := { s with env := e }
def setTx (s : State) (b : List Byte) : State := { s with tx := b }
def setRx (s : State) (b : List Byte) : State := { s with rx := b }
def setChlock (s : State) (l : ChLock) : State := { s with chlock := l }
def setPinlock (s : State) (l : List PinLock) : State := { s with pinlock := l }
def setExists (s : State) (b : Bool) : State := { s with engExists := b }
def setHasScl (s : State) (b : Bool) : State := { s with hasScl := b }
def setHasSda (s : State) (b : Bool) : State := { s with hasSda := b }
def setFreq (s : State) (f : Freq) : State := { s with freq := f }
def setRbuf (s : State) (b : List Byte) : State := { s with rbuf := b }
def setPhase (s : State) (p : Phase) : State := { s with phase := p }
def setStatus (s : State) (st : Status) : State := { s with status := st }
def setOutcome (s : State) (st : Status) : State := { s with outcome := st }
def setClosing (s : State) (l : List Nat) : State := { s with closing := l }
def setCalls (s : State) (l : List Call) : State := { s with calls := l }
def setWaiting (s : State) (l : List Waiter) : State := { s with waiting := l }
def setParked (s : State) (p : Option Nat) : State := { s with parked := p }
def setCloseThread (s : State) (t : Nat) : State := { s with closeThread := t }
def setCaller (s : State) (t : Nat) : State := { s with caller := t }

/-- Hands the result of a call to its thread. -/
def answer (s : State) (t : Nat) (r : Ret) : State := { s with ret := r, retTo := t }

/-! ### Draws: one choice of the environment each -/

/-- Uses one free value: the counter moves on, so that the next one is another. -/
def countDraw (s : State) : State := s.setEnv { s.env with drawn := s.env.drawn + 1 }

/-- Which agent steps next. -/
def drawTurn (s : State) : Turn × State :=
  match s.env.turns with
  | [] => (Config.freeTurn s.port s.env.drawn, s.countDraw)
  | t :: rest => (t, s.setEnv { s.env with turns := rest })

/-- How many phases the sequencer performs before another agent may step. -/
def drawBurst (s : State) : Nat × State :=
  match s.env.bursts with
  | [] => (Config.freeBurst s.port s.env.drawn, s.countDraw)
  | n :: rest => (n, s.setEnv { s.env with bursts := rest })

/-- The outcome of a Channel write. -/
def drawSend (s : State) : SendOutcome × State :=
  match s.env.sends with
  | [] => (Config.freeSend s.port s.env.drawn, s.countDraw)
  | o :: rest => (o, s.setEnv { s.env with sends := rest })

/-- The outcome of a Channel receive. -/
def drawRecv (s : State) : RecvOutcome × State :=
  match s.env.recvs with
  | [] => (Config.freeRecv s.port s.env.drawn, s.countDraw)
  | o :: rest => (o, s.setEnv { s.env with recvs := rest })

/-- What an attempt on a held pin does where both outcomes are admitted. -/
def drawPinChoice (s : State) : PinChoice × State :=
  match s.env.pinChoices with
  | [] => (Config.freePinChoice s.port s.env.drawn, s.countDraw)
  | o :: rest => (o, s.setEnv { s.env with pinChoices := rest })

/-- The order of CLOSE's releases. -/
def drawCloseOrder (s : State) : CloseOrder × State :=
  match s.env.closeOrders with
  | [] => (Config.freeCloseOrder s.port s.env.drawn, s.countDraw)
  | o :: rest => (o, s.setEnv { s.env with closeOrders := rest })

/-- `n` unspecified bytes. -/
def drawBytes (s : State) (n : Nat) : List Byte × State :=
  ((List.range n).map (fun i => Config.freeByte s.port (s.env.drawn + i)),
    s.setEnv { s.env with drawn := s.env.drawn + n })

/-! ### The Channel's primitives -/

/-- `ChSend` (rules R48, R100): all bytes appended to TX, or a prefix of them and `fail`. -/
def chSend (s : State) (bytes : List Byte) : Bool × State :=
  match s.drawSend with
  | (.ok, s') => (true, s'.setTx (s'.tx ++ bytes))
  | (.fail k, s') => (false, s'.setTx (s'.tx ++ bytes.take k))

/-- `ChSendFrame` (rule R101): opcode and payload in one write. -/
def chSendFrame (s : State) (opcode : Byte) (payload : List Byte) : Bool × State :=
  s.chSend (opcode :: payload)

end State

/-- What a `ChRecvExact` comes to (rules R47, R49, R102). -/
inductive Received where
  /-- The bytes asked for. -/
  | ok (bytes : List Byte)
  /-- A short read or I/O error. -/
  | fail
  /-- No step: too few bytes and no failure. -/
  | block
deriving DecidableEq, Repr

namespace State

/-- `ChRecvExact` (rules R49, R102). For `n` = 0 it never blocks and leaves RX alone. -/
def chRecvExact (s : State) (n : Nat) : Received × State :=
  match s.drawRecv with
  | (.deliver, s') =>
    if n ≤ s'.rx.length then (.ok (s'.rx.take n), s'.setRx (s'.rx.drop n)) else (.block, s')
  | (.fail k, s') => (.fail, s'.setRx (s'.rx.drop (min k n)))

/-! ### Locks -/

/-- Writes `PINLOCK[i]`. -/
def setPin (s : State) (i : Nat) (l : PinLock) : State := s.setPinlock (s.pinlock.set i l)

/-- The mark of a blocked attempt after a release of pin `i`. -/
def unmark (i : Nat) (on : Option Nat) : Option Nat := if on = some i then none else on

/-- A release of pin `i` lets those whose attempt on it has blocked proceed: a thread tries its call
again at its turn, an OPEN in progress its attempt (rules R52, R54). -/
def wake (s : State) (i : Nat) : State :=
  (s.setWaiting (s.waiting.map (fun w => { w with blockedOn := unmark i w.blockedOn }))).setParked
    (unmark i s.parked)

/-- `Release(PINLOCK[i])` (rule R54). -/
def releasePin (s : State) (i : Nat) : State := (s.setPin i .free).wake i

/-- `Release(CHLOCK)` (rule R55). -/
def releaseChannel (s : State) : State := s.setChlock .free

end State

/-- What an `Acquire(PINLOCK[i])` comes to (rule R52). -/
inductive Acquired where
  | granted (s : State)
  | failed (st : Status) (s : State)
  | blocked (s : State)

/-- An attempt on a held pin, by the parameter `PIN_CONTENTION` (rule R52). -/
def contend (s : State) : Acquired :=
  match s.cfg.pinContention with
  | .block => .blocked s
  | .fail => .failed .errPinContention s
  | .either =>
    match s.drawPinChoice with
    | (.block, s') => .blocked s'
    | (.fail, s') => .failed .errPinContention s'

/-- `Acquire(PINLOCK[i])` for `who` (rule R52): the unknown index first, then the lock's state. A
held pin is never granted. -/
def acquirePin (s : State) (i : Nat) (who : PinOwner) : Acquired :=
  match s.pinlock[i]? with
  | none => .failed .errPinUnknown s
  | some .free => .granted (s.setPin i (.held who))
  | some .poisoned => .failed .errPinContention s
  | some (.held _) => contend s

namespace State

/-- Somebody holds `PINLOCK[i]`. -/
def pinHeld (s : State) (i : Nat) : Bool :=
  match s.pinlock[i]? with
  | some (.held _) => true
  | some .free => false
  | some .poisoned => false
  | none => false

/-- An attempt that has blocked on the pin `on` has still no step: the pin has not been released since
(a release clears the mark) and is held (rule R52). A lock that has become POISONED under it is held by
nobody: the attempt is made again and fails (log entry 12). -/
def stillBlocked (s : State) (on : Option Nat) : Bool :=
  match on with
  | some i => s.pinHeld i
  | none => false

/-- The calling thread waits with its call `i`, which is tried again when the thread is scheduled (rules
R52, R55, R150). -/
def defer (s : State) (i : Instr) : State := s.setWaiting (s.waiting ++ [⟨s.caller, i, none⟩])

/-- The calling thread waits with its call `i`, whose attempt on the held pin `k` has blocked. -/
def deferOn (s : State) (k : Nat) (i : Instr) : State :=
  s.setWaiting (s.waiting ++ [⟨s.caller, i, some k⟩])

/-- The end of an operation that its caller's own step performs: `STATUS` written (rule R18), the result
handed to the calling thread. -/
def reply (s : State) (st : Status) (r : Ret) : State := (s.setStatus st).answer s.caller r

/-! ### Errors -/

/-- An error ends the sequence: no further Channel call is made; the step at `UNLOCK` releases the locks,
writes `STATUS` and returns the error (rules R126, R187). -/
def abort (s : State) (e : Status) : State := (s.setOutcome e).setPhase .unlock

/-- `raise <Error>` in SEND, READ, TRANSFER and the data reply: as `abort`, and the failing step itself
writes `STATUS` too (`STATUS <- ERR_IO`, rule R156; `STATUS <- ERR_DESYNC`, rule R160). -/
def raise (s : State) (e : Status) : State := (s.setStatus e).abort e

/-- The end of what the sequencer works for (rule R187 (4) to (6), rule R18): `STATUS` written, `PHASE`
idle, the result handed to the thread that issued the call. -/
def finish (s : State) (st : Status) (r : Ret) : State :=
  ((s.setStatus st).setPhase .idle).answer s.opThread r

end State

end Sys2Proof.Machine
end

