-- ==== Sys2Proof/Machine/Sequencer.lean ====
section
/-! DEFINITION. The sequencer (rules R16, R17, R126, R150 to R160): what the step at each `PHASE`
does, and the running of as many phases as the scheduler allows. -/

namespace Sys2Proof.Machine

/-- What a step of the sequencer comes to: it has moved, or it has no step now (a lock that is
held, a pin that is held, bytes that have not come) and waits where it is. -/
inductive Progress where
  | moved (s : State)
  | waits (s : State)

/-- The state a step of the sequencer leaves. -/
def Progress.state : Progress → State
  | .moved s => s
  | .waits s => s

namespace State

/-- The step at a phase that takes the Channel lock (rule R55): it waits while the lock is held. -/
def lockStep (s : State) : Progress :=
  match s.chlock with
  | .free => .moved ((s.setChlock (.held .sequencer)).setPhase (s.phase.next s.cfg))
  | .held _ => .waits s

/-- What a finished write of a sequence leads to: the next phase, or what a failure leads to. -/
def afterWrite (onFail : State → State) : Bool × State → Progress
  | (true, s) => .moved (s.setPhase (s.phase.next s.cfg))
  | (false, s) => .moved (onFail s)

/-- `ERR_IO` in SEND, READ and TRANSFER (rule R156). -/
def raiseIo (s : State) : State := s.raise .errIo

/-- `ERR_IO` in OPEN, which writes `STATUS` at `UNLOCK` only (rule R126). -/
def abortIo (s : State) : State := s.abort .errIo

/-- The step at a phase that writes a frame. -/
def frameStep (s : State) (opcode : Byte) (payload : List Byte) : Progress :=
  afterWrite raiseIo (s.chSendFrame opcode payload)

/-- The step that writes the enable frame (rule R126). -/
def enableStep (s : State) : Progress :=
  afterWrite abortIo (s.chSendFrame s.cfg.opEnableI2c [s.div])

/-- The step at a phase that writes the raw bytes of the write buffer (rule R73). -/
def dataStep (s : State) : Progress := afterWrite raiseIo (s.chSend s.dataRun)

/-- The reply-tag check (rules R82, R109, R160): on a mismatch nothing more is read. -/
def checkTag (s : State) (tag : Byte) : State :=
  if tag = s.cfg.tagData then s.setPhase (s.phase.next s.cfg) else s.raise (.errDesync tag)

/-- The step at a phase that receives the reply tag (rule R109). -/
def tagStep (s : State) : Progress :=
  match s.chRecvExact 1 with
  | (.ok b, s') => .moved (s'.checkTag (b.headD 0#8))
  | (.fail, s') => .moved (s'.raise .errIo)
  | (.block, s') => .waits s'

/-- After a failed payload receive `RBUF[0..RLEN-1]` holds unspecified bytes (rule R190). -/
def spoilRbuf (s : State) : State :=
  let (b, s') := s.drawBytes s.rlen.toNat
  s'.setRbuf (overlay b s'.rbuf)

/-- The step at a phase that receives the payload (rules R15, R109). -/
def payloadStep (s : State) : Progress :=
  match s.chRecvExact s.rlen.toNat with
  | (.ok b, s') => .moved ((s'.setRbuf (overlay b s'.rbuf)).setPhase (s'.phase.next s'.cfg))
  | (.fail, s') => .moved (s'.spoilRbuf.raise .errIo)
  | (.block, s') => .waits s'

/-- The attempt of the OPEN in progress on pin `i` (rule R52): one that has blocked has no step until the
pin is released; else an attempt is made, and whether it blocks is noted in `parked`. -/
def acquireStep (s : State) (i : Nat) (granted : State → State)
    (failed : Status → State → State) : Progress :=
  if s.stillBlocked s.parked then .waits s
  else
    match acquirePin s i .engine with
    | .granted s' => .moved (granted (s'.setParked none))
    | .failed st s' => .moved (failed st (s'.setParked none))
    | .blocked s' => .waits (s'.setParked (some i))

/-- OPEN's first step (rules R123, R125, R126): acquire pin 0. -/
def acqSclStep (s : State) : Progress :=
  s.acquireStep pinScl (fun s' => (s'.setHasScl true).setPhase (s'.phase.next s'.cfg))
    (fun st s' => s'.finish st (.status st))

/-- OPEN's second step (rules R125, R126): acquire pin 1; if it cannot be had, pin 0 is released. -/
def acqSdaStep (s : State) : Progress :=
  s.acquireStep pinSda
    (fun s' => ((s'.setHasSda true).setFreq s'.freqReq).setPhase (s'.phase.next s'.cfg))
    (fun st s' => ((s'.releasePin pinScl).setHasScl false).finish st (.status st))

/-- What OPEN's `UNLOCK` does after the Channel lock is released (rule R126): the engine exists, or
its pins are released and it does not. -/
def endOpen (s : State) : State :=
  if s.outcome = .ok then (s.setExists true).finish .ok (.status .ok)
  else ((((s.releasePin pinSda).releasePin pinScl).setHasSda false).setHasScl false).finish
    s.outcome (.status s.outcome)

/-- What a finished READ or TRANSFER hands to its caller: the data with `OK`, else only the status
(rule R190). -/
def replyRet (s : State) : Ret :=
  if s.outcome = .ok then .received (s.rbuf.take s.rlen.toNat) else .status s.outcome

/-- What a finished DATA reply leaves in `STATUS`: an error it raised, else what was there (log
entry 4). -/
def replyStatus (s : State) : Status :=
  if s.outcome = .ok then s.status else s.outcome

/-- The end of an operation by the operation's kind. -/
def endOperation (s : State) : State :=
  match s.opsel with
  | .openEngine => s.endOpen
  | .send => s.finish s.outcome (.status s.outcome)
  | .read => s.finish s.outcome s.replyRet
  | .transfer => s.finish s.outcome s.replyRet
  | .close => s.finish s.outcome (.status s.outcome)
  | .divisor => s.finish s.outcome (.status s.outcome)
  | .pin => s.finish s.outcome (.status s.outcome)
  | .pinRelease => s.finish s.outcome (.status s.outcome)

/-- The end of what the sequencer works for. -/
def endJob (s : State) : State :=
  match s.job with
  | .operation => s.endOperation
  | .bareReply => s.finish s.replyStatus s.replyRet

/-- One step of the sequencer: the action of the current `PHASE` (rule R16's table). -/
def seqStep (s : State) : Progress :=
  match s.phase with
  | .idle => .waits s
  | .oAcqScl => s.acqSclStep
  | .oAcqSda => s.acqSdaStep
  | .oLock => s.lockStep
  | .oEnable => s.enableStep
  | .sLock => s.lockStep
  | .sStart => s.frameStep s.cfg.opStart [startArg s.addr .write]
  | .sTxhdr => s.frameStep s.cfg.opTx [s.wlen]
  | .sData => s.dataStep
  | .sStop => s.frameStep s.cfg.opStop []
  | .rLock => s.lockStep
  | .rStart => s.frameStep s.cfg.opStart [startArg s.addr .read]
  | .rRxhdr => s.frameStep s.cfg.opRx [s.rlen]
  | .rStop => s.frameStep s.cfg.opStop []
  | .rTag => s.tagStep
  | .rPayload => s.payloadStep
  | .tLock => s.lockStep
  | .tStart1 => s.frameStep s.cfg.opStart [startArg s.addr s.cfg.xferFirstDir]
  | .tTxhdr => s.frameStep s.cfg.opTx [s.wlen]
  | .tData => s.dataStep
  | .tStart2 => s.frameStep s.cfg.opStart [startArg s.addr .read]
  | .tRxhdr => s.frameStep s.cfg.opRx [s.rlen]
  | .tStop => s.frameStep s.cfg.opStop []
  | .tTag => s.tagStep
  | .tPayload => s.payloadStep
  | .unlock => .moved s.releaseChannel.endJob

/-- At most `n` steps of the sequencer, ending where it is idle or has to wait. -/
def seqRun : Nat → State → State
  | 0, s => s
  | n + 1, s =>
    match s.seqStep with
    | .moved s' => seqRun n s'
    | .waits s' => s'

/-- The sequencer's turn: as many phases as the scheduler allows before another agent may step
(rule R150: the steps of other agents may fall between any two of its steps). An idle sequencer has
no step. -/
def runSequencer (s : State) : State :=
  if s.phase = .idle then s else seqRun s.drawBurst.1 s.drawBurst.2

end State

/-- Accepts an operation of the engine (rules R150, R151): out-of-contract operands and a call
without an engine are refused; a busy sequencer makes the caller wait, for whatever engine there is at its
next try (log entry 24); else the operands are latched
and the sequence begins at `first`. -/
def acceptOperation (bad : Option Refusal) (call : Instr) (latched : State) (first : Phase)
    (s : State) : Out :=
  match bad with
  | some r => .refused r
  | none =>
    if s.engExists then
      if s.phase = .idle then .next (latched.setPhase first).runSequencer
      else .next (s.defer call)
    else .refused .noEngine

end Sys2Proof.Machine
end

