-- ==== Sys2Proof/Machine/Framer.lean ====
section
/-! DEFINITION. The frames as instructions of their own (rules R104 to R109). Inside an operation the
sequencer writes them; a bare frame is written by a caller of the framer that takes the Channel lock
for that one frame, as rule R100 asks of every caller (log entry 4). -/

namespace Sys2Proof.Machine

/-- A bare command frame: one critical section that holds the one write (rules R56, R101); its
caller gets `ok` or `fail`, and `STATUS` is not written. It waits while the lock is held. It needs no
engine (log entry 4). -/
def bareFrame (call : Instr) (opcode : Byte) (payload : List Byte) (s : State) : Out :=
  match s.chlock with
  | .held _ => .next (s.defer call)
  | .free =>
    let (sent, s') := (s.setChlock (.held .sequencer)).chSendFrame opcode payload
    .next (s'.releaseChannel.answer s'.caller (.frame sent))

/-- ENABLE_I2C (rule R104). -/
def execEnableI2c (d : Byte) (s : State) : Out :=
  bareFrame (.enableI2c d) s.cfg.opEnableI2c [d] s

/-- START (rule R105). -/
def execStart (a : BusAddr) (dir : Dir) (s : State) : Out :=
  bareFrame (.start a dir) s.cfg.opStart [startArg a dir] s

/-- TX (rule R106). -/
def execTx (n : Byte) (s : State) : Out :=
  bareFrame (.tx n) s.cfg.opTx [n] s

/-- RX (rule R107). -/
def execRx (n : Byte) (s : State) : Out :=
  bareFrame (.rx n) s.cfg.opRx [n] s

/-- STOP (rule R108). -/
def execStop (s : State) : Out :=
  bareFrame .stop s.cfg.opStop [] s

/-- DATA (rule R109): the reply is received by the sequencer's two steps `R_TAG` and `R_PAYLOAD`
under the Channel lock, then `UNLOCK` reports. It waits while the sequencer works or the lock is
held. It needs no engine (log entry 4). -/
def execData (n : Byte) (s : State) : Out :=
  if s.phase = .idle then
    match s.chlock with
    | .held _ => .next (s.defer (.data n))
    | .free =>
      .next (((s.latchReply n).setChlock (.held .sequencer)).setPhase .rTag).runSequencer
  else .next (s.defer (.data n))

end Sys2Proof.Machine
end

