-- ==== Sys2Proof/Machine/PortOps.lean ====
section
/-! DEFINITION. Port construction and the operations of 41_port_open.md: PIN, PIN_RELEASE, OPEN and
CLOSE. -/

namespace Sys2Proof.Machine

/-- Port construction (rules R29, R122, R181): a Port whose endpoint cannot be reached does not come
into being, and `ERR_CONNECT` is all there is. -/
def constructPort (c : Config) (p : PortName) (reachable : Bool) : Except Status State :=
  if reachable then .ok (State.fresh c p) else .error .errConnect

/-- PIN (rule R120): a handle, which is the calling thread's; an error kind; or a thread that waits until
the pin is released, for ever where it holds the pin itself (rule R224). `STATUS` is written at its end
(rules R18, R187; log entry 5). `OPSEL` keeps the operation the sequencer last accepted (log entry 22). -/
def execPin (index : Nat) (s : State) : Out :=
  match acquirePin s index (.host s.caller) with
  | .granted s' => .next (s'.reply .ok (.handle index))
  | .failed st s' => .next (s'.reply st (.status st))
  | .blocked s' => .next (s'.deferOn index (.pin index))

/-- PIN_RELEASE (rules R54, R121): only the thread that holds the handle can release it (log entry 18).
`OPSEL` keeps the operation the sequencer last accepted (log entry 22). -/
def execPinRelease (index : Nat) (s : State) : Out :=
  if s.pinlock[index]? = some (.held (.host s.caller)) then
    .next ((s.releasePin index).reply .ok .nothing)
  else .refused .noHandle

/-- What follows OPEN's attempt on pin 0: the construction goes on; or it stands at `O_ACQ_SCL` (rule
R126); or, where `PHASE` is that of an engine that exists, its thread waits blocked on pin 0, which is
the same position of a sequencer of its own (log entry 7). -/
def afterAcqScl (f : Freq) (s : State) : Progress → State
  | .moved s' => s'.runSequencer
  | .waits s' => if s.engExists then (s.setEnv s'.env).deferOn pinScl (.openEngine f) else s'

/-- An OPEN that is issued while another stands at `O_ACQ_SCL`, and gets pin 0 first (rule R54: which
acquirer proceeds is open): the sequencer works for it, and the other waits to try again. -/
def overtake (f : Freq) (s : State) : State :=
  let s' := s.setWaiting (s.waiting ++ [⟨s.opThread, .openEngine s.freqReq, none⟩])
  (((s'.latchOpen f).setPin pinScl (.held .engine)).setHasScl true).setPhase .oAcqSda

/-- OPEN while the sequencer works: its attempt on pin 0 is made all the same (rules R124, R200: OPEN
needs nothing but the Port). Where pin 0 is free while something else than an OPEN is in progress (a
bare DATA reply), it is not taken before the sequencer is idle. An OPEN that has to wait here stays an
entry of `waiting` until its own next try, also after what it waited beside has ended and while no
engine exists: `PHASE`, `BUSY` and `FREQ_REQ` do not show it (log entry 7). -/
def openBusy (f : Freq) (s : State) : State :=
  match acquirePin s pinScl .engine with
  | .granted _ =>
    if s.phase = .oAcqScl then (overtake f s).runSequencer else s.defer (.openEngine f)
  | .failed st s' => s'.reply st (.status st)
  | .blocked s' => s'.deferOn pinScl (.openEngine f)

/-- OPEN (rules R123 to R126). There is no test of `EXISTS`: a live engine holds pin 0. -/
def execOpen (f : Freq) (s : State) : Out :=
  if s.phase = .idle then
    .next (afterAcqScl f s ((s.latchOpen f).setPhase .oAcqScl).acqSclStep)
  else .next (openBusy f s)

/-- The pins of the engine in the order CLOSE releases them. -/
def closeList : CloseOrder → List Nat
  | .sdaFirst => [pinSda, pinScl]
  | .sclFirst => [pinScl, pinSda]

namespace State

/-- Releases the next pin of an engine whose life has ended; with the last one CLOSE ends: `STATUS` is
written (rule R18) and its thread goes on. -/
def closeStep (s : State) : State :=
  match s.closing with
  | [] => s
  | [i] => (((s.releasePin i).setClosing []).setStatus .ok).answer s.closeThread .nothing
  | i :: rest => (s.releasePin i).setClosing rest

/-- At most `n` such releases. -/
def closeRun : Nat → State → State
  | 0, s => s
  | n + 1, s => closeRun n s.closeStep

/-- The closer's turn: as many releases as the scheduler allows before another agent may step. -/
def runCloser (s : State) : State :=
  if s.closing = [] then s else closeRun s.drawBurst.1 s.drawBurst.2

/-- The engine ceases to exist; its two pins are still to be released (rule R128). -/
def beginClose (s : State) : State :=
  let (o, s') := s.drawCloseOrder
  ((((s'.setHasSda false).setHasScl false).setExists false).setClosing
    (s'.closing ++ closeList o)).setCloseThread s'.caller

end State

/-- CLOSE (rule R128): no frame is written; the two pins are released in two steps, in either
order. It is no operation of the sequencer: `OPSEL` keeps the one that was accepted last (log entry
22). -/
def execClose (s : State) : Out :=
  if s.engExists then
    if s.phase = .idle then .next s.beginClose.runCloser
    else .refused .closeDuringOperation
  else .refused .noEngine

end Sys2Proof.Machine
end

