-- ==== Sys2Proof/Machine/Transactions.lean ====
section
/-! DEFINITION. The three operations of an engine (43_transactions.md): SEND, READ and TRANSFER. -/

namespace Sys2Proof.Machine

/-- SEND (rule R152). -/
def execSend (addr : Nat) (w : List Byte) (s : State) : Out :=
  acceptOperation (contractRefusal addr [w.length]) (.send addr w) (s.latchSend addr w) .sLock s

/-- READ (rule R153). -/
def execRead (addr rlen : Nat) (s : State) : Out :=
  acceptOperation (contractRefusal addr [rlen]) (.read addr rlen) (s.latchRead addr rlen) .rLock s

/-- TRANSFER (rule R154). -/
def execTransfer (addr : Nat) (w : List Byte) (rlen : Nat) (s : State) : Out :=
  acceptOperation (contractRefusal addr [w.length, rlen]) (.transfer addr w rlen)
    (s.latchTransfer addr w rlen) .tLock s

end Sys2Proof.Machine
end

