-- ==== Sys2Proof/Machine/Dispatch.lean ====
section
/-! DEFINITION. One arm per instruction: its meaning. -/

namespace Sys2Proof.Machine

def exec (i : Instr) (s : State) : Host.Outcome State Fault Refusal :=
  match i with
  | .enableI2c d => Sys2Proof.Machine.execEnableI2c d s
  | .start a dir => Sys2Proof.Machine.execStart a dir s
  | .tx n => Sys2Proof.Machine.execTx n s
  | .rx n => Sys2Proof.Machine.execRx n s
  | .stop => Sys2Proof.Machine.execStop s
  | .data n => Sys2Proof.Machine.execData n s
  | .openEngine f => Sys2Proof.Machine.execOpen f s
  | .send a w => Sys2Proof.Machine.execSend a w s
  | .read a n => Sys2Proof.Machine.execRead a n s
  | .transfer a w n => Sys2Proof.Machine.execTransfer a w n s
  | .close => Sys2Proof.Machine.execClose s
  | .divisor f => Sys2Proof.Machine.execDivisor f s
  | .pin k => Sys2Proof.Machine.execPin k s
  | .pinRelease k => Sys2Proof.Machine.execPinRelease k s

end Sys2Proof.Machine
end

