-- ==== Sys2Proof/Machine/Turns.lean ====
section
/-! DEFINITION. The agents' steps (rules R10, R61, R203): the host's calls, the waiting callers, the
sequencer, the closer, and the agents this spec leaves open. -/

namespace Sys2Proof.Machine

/-- The threads that are inside a call: the one the sequencer works for, the one whose CLOSE releases
pins, and those that wait (rule R61). -/
def State.inCall (s : State) : List Nat :=
  (if s.phase = .idle then [] else [s.opThread]) ++
    ((if s.closing = [] then [] else [s.closeThread]) ++ s.waiting.map (fun w => w.thread))

/-- A holder of pin `i` may fail with the lock held: a pin user outside this model, or a thread that is
inside no call; a thread inside a call has no step of its own (rules R52, R61; log entry 19). -/
def State.mayFail (s : State) (i : Nat) : Bool :=
  match s.pinlock[i]? with
  | some (.held (.host t)) => !s.inCall.contains t
  | some (.held .other) => true
  | some (.held .engine) => false
  | some .free => false
  | some .poisoned => false
  | none => false

/-- A move of an agent outside the block (rules R10 (3) and (4), R47, R52, R54 to R56). A write to
TX needs the Channel lock; a pin's lock becomes POISONED only under a holder that may fail (log entry
19). -/
def applyEnv : EnvMove → State → State
  | .coprocSends b, s => s.setRx (s.rx ++ b)
  | .otherLocks, s => if s.chlock = .free then s.setChlock (.held .other) else s
  | .otherWrites b, s => if s.chlock = .held .other then s.setTx (s.tx ++ b) else s
  | .otherUnlocks, s => if s.chlock = .held .other then s.setChlock .free else s
  | .otherAcquires i, s => if s.pinlock[i]? = some .free then s.setPin i (.held .other) else s
  | .otherReleases i, s => if s.pinlock[i]? = some (.held .other) then s.releasePin i else s
  | .poison i, s => if s.mayFail i then s.setPin i .poisoned else s

/-- The first call of thread `t`, and the calls without it. -/
def takeCall (t : Nat) : List Call → Option (Call × List Call)
  | [] => none
  | c :: rest =>
    if c.thread = t then some (c, rest)
    else
      match takeCall t rest with
      | none => none
      | some (d, rest') => some (d, c :: rest')

/-- Thread `t`'s next call is fetched, decoded and run. What its bytes hold beyond the instruction is
dropped: a call is one instruction (log entry 3). A thread that is inside a call has no step (rules
R61, R150); with no call to issue nothing happens. -/
def serveCall (t : Nat) (s : State) : Out :=
  if s.inCall.contains t then .next s
  else
    match takeCall t s.calls with
    | none => .next s
    | some (c, rest) =>
      match decode s.cfg c.space c.bytes with
      | .error e => .refused (.undecodable e)
      | .ok (i, _) => exec i ((s.setCalls rest).setCaller t)

/-- The `k`-th waiting thread tries its call again, and waits again if it has to; one that is blocked on a
pin has no step until the pin is released (rule R52). A waiting call is bound to no engine: it meets
whatever engine there is when it is tried (log entry 24). -/
def serveWaiter (k : Nat) (s : State) : Out :=
  match s.waiting[k]? with
  | none => .next s
  | some w =>
    if s.stillBlocked w.blockedOn then .next s
    else exec w.instr ((s.setWaiting (s.waiting.eraseIdx k)).setCaller w.thread)

/-- The step of the agent whose turn it is. -/
def serveTurn : Turn → State → Out
  | .call t, s => serveCall t s
  | .retry k, s => serveWaiter k s
  | .sequencer, s => .next s.runSequencer
  | .closer, s => .next s.runCloser
  | .env m, s => .next (applyEnv m s)

/-- A thread that is inside no call. -/
def State.freshThread (s : State) : Nat := s.inCall.foldr max 0 + 1

/-- The call of thread `t` that holds an opcode-table word, as `decodeTableWord` lays it out. -/
def tableCall (t : Nat) (c : Config) (nbits w : Nat) : Call :=
  ⟨t, tableSpace c w, tableBytes nbits w⟩

end Sys2Proof.Machine
end

