-- ==== Sys2Proof/Machine/Step.lean ====
section
/-! DEFINITION. One step of the machine: one step of the agent the scheduler picks. -/

namespace Sys2Proof.Machine

/-- One step. -/
def step (s : State) : Host.Outcome State Fault Refusal :=
  serveTurn s.drawTurn.1 s.drawTurn.2

/-- The state with an opcode-table word as the next call of a thread that is inside no call, and that
thread as the agent that steps next. -/
def State.withFetchWord (s : State) (nbits w : Nat) : State :=
  { s with calls := tableCall s.freshThread s.cfg nbits w :: s.calls,
           env := { s.env with turns := .call s.freshThread :: s.env.turns } }

end Sys2Proof.Machine
end

