-- ==== Sys2Proof/Machine/Board.lean ====
section
/-! DEFINITION. The board: the block is instantiated once per port, and there are two ports (rules
R6, R203). Each instance is a State of its own; a step of the board is a step of one of them. -/

namespace Sys2Proof.Machine

/-- The two instances. -/
structure Board where
  a : State
  b : State
deriving DecidableEq, Repr

namespace Board

/-- The instance of a port. -/
def get (x : Board) : PortName → State
  | .a => x.a
  | .b => x.b

/-- Replaces the instance of a port. -/
def put (x : Board) (p : PortName) (s : State) : Board :=
  match p with
  | .a => { x with a := s }
  | .b => { x with b := s }

/-- Both ports constructed (rule R29); what is open at launch is open for each on its own (log entries 9,
15). -/
def reset : Board := ⟨State.fresh Config.gk .a, State.fresh Config.gk .b⟩

/-- A step of the instance of port `p`. -/
def step (p : PortName) (x : Board) : Host.Outcome Board Fault Refusal :=
  match Sys2Proof.Machine.step (x.get p) with
  | .next s => .next (x.put p s)
  | .fault r => .fault r
  | .refused r => .refused r

end Board

end Sys2Proof.Machine
end

