-- ==== Sys2Proof/Safety.lean ====
section
/-! DEFINITION. What a safe state is, in the terms the claims use: the invariant of the block, and the
relation between TX and the operation that holds the Channel lock. -/

namespace Sys2Proof.Machine

/-- The lock state of a pin that the engine holds. -/
abbrev engineHeld : Option PinLock := some (.held .engine)

/-- The phases of OPEN, of SEND, of READ and of TRANSFER, each with the operation it belongs to; `IDLE`
and `UNLOCK` belong to none (rule R16's table). -/
def Phase.operation : Phase → Option Op
  | .idle => none
  | .oAcqScl => some .openEngine
  | .oAcqSda => some .openEngine
  | .oLock => some .openEngine
  | .oEnable => some .openEngine
  | .sLock => some .send
  | .sStart => some .send
  | .sTxhdr => some .send
  | .sData => some .send
  | .sStop => some .send
  | .rLock => some .read
  | .rStart => some .read
  | .rRxhdr => some .read
  | .rStop => some .read
  | .rTag => some .read
  | .rPayload => some .read
  | .tLock => some .transfer
  | .tStart1 => some .transfer
  | .tTxhdr => some .transfer
  | .tData => some .transfer
  | .tStart2 => some .transfer
  | .tRxhdr => some .transfer
  | .tStop => some .transfer
  | .tTag => some .transfer
  | .tPayload => some .transfer
  | .unlock => none

/-- The position of a phase in the sequence of its operation (rule R17: `PHASE` moves only forward). -/
def Phase.rank : Phase → Nat
  | .idle => 0
  | .oAcqScl => 1
  | .oAcqSda => 2
  | .oLock => 3
  | .oEnable => 4
  | .sLock => 1
  | .sStart => 2
  | .sTxhdr => 3
  | .sData => 4
  | .sStop => 5
  | .rLock => 1
  | .rStart => 2
  | .rRxhdr => 3
  | .rStop => 4
  | .rTag => 5
  | .rPayload => 6
  | .tLock => 1
  | .tStart1 => 2
  | .tTxhdr => 3
  | .tData => 4
  | .tStart2 => 5
  | .tRxhdr => 6
  | .tStop => 7
  | .tTag => 8
  | .tPayload => 9
  | .unlock => 10

/-- The instructions that may make their caller wait: all but those that acquire nothing. PIN_RELEASE and
CLOSE only release, and DIVISOR touches nothing (rules R121, R128, R145). -/
def mayWait : Instr → Bool
  | .enableI2c _ => true
  | .start _ _ => true
  | .tx _ => true
  | .rx _ => true
  | .stop => true
  | .data _ => true
  | .openEngine _ => true
  | .send _ _ => true
  | .read _ _ => true
  | .transfer _ _ _ => true
  | .close => false
  | .divisor _ => false
  | .pin _ => true
  | .pinRelease _ => false

namespace State

/-- An OPEN is under way: the sequencer works for it. -/
abbrev opening (s : State) : Prop :=
  s.phase ≠ .idle ∧ s.job = .operation ∧ s.opsel = .openEngine

/-- The parameters meet rule R5's constraints, the Channel is connected (R24), every pin index below
`N_PINS` and no other has a registry entry (R27), and the two buffers have 255 cells (R14, R15). -/
structure Sizes (s : State) : Prop where
  cfg_wf : s.cfg.wf = true
  channel_up : s.chUp = true
  registry : s.pinlock.length = s.cfg.nPins
  wbuf_len : s.wbuf.length = maxLen
  rbuf_len : s.rbuf.length = maxLen

/-- How `PHASE`, `OPSEL`, the job and the Channel lock go together. -/
structure Sequencing (s : State) : Prop where
  /-- The Channel lock is the sequencer's exactly in the phases of the critical section (R56). -/
  lock_iff : s.chlock = .held .sequencer ↔ s.phase.locked = true
  /-- `OPSEL` is the operation whose phase it is. -/
  opsel_phase : ∀ o, s.phase.operation = some o → s.job = .operation → s.opsel = o
  /-- At `UNLOCK` an operation is one of the four that have a sequence. -/
  opsel_unlock : s.phase = .unlock → s.job = .operation →
    s.opsel = .openEngine ∨ s.opsel = .send ∨ s.opsel = .read ∨ s.opsel = .transfer
  /-- A bare DATA reply uses READ's two receiving phases and `UNLOCK`. -/
  bare_phase : s.job = .bareReply → s.phase = .idle ∨ s.phase = .rTag ∨ s.phase = .rPayload ∨
    s.phase = .unlock
  /-- TRANSFER's data phase is stood at only where the parameter has one (R154). -/
  data_phase : s.phase = .tData → s.cfg.xferDataPhase = .present
  /-- A sequence that has met an error stands at `UNLOCK` (R156). -/
  outcome_ok : s.phase ≠ .idle → s.phase ≠ .unlock → s.outcome = .ok

/-- Which of `EXISTS`, `HAS_SCL` and `HAS_SDA` are 1 (rules R13, R124, R126, R127 (d), R151): an
OPEN under way has pin 0 from the step after `O_ACQ_SCL` and pin 1 from the step after `O_ACQ_SDA`,
and no engine exists yet; another operation runs on an engine that exists; else there is an engine with both pins, or
neither engine nor pin. -/
def Ownership (s : State) : Prop :=
  if s.opening then
    s.engExists = false ∧ s.hasScl = decide (s.phase ≠ .oAcqScl) ∧
      s.hasSda = decide (s.phase ≠ .oAcqScl ∧ s.phase ≠ .oAcqSda)
  else
    s.hasScl = s.engExists ∧ s.hasSda = s.engExists ∧
      (s.phase ≠ .idle → s.job = .operation → s.engExists = true)

/-- The pins the engine has are locked for it (R13, R30), and so are those a CLOSE has still to
release, which the engine no longer has (R128). -/
structure PinsHeld (s : State) : Prop where
  scl_held : s.hasScl = true → s.pinlock[pinScl]? = engineHeld
  sda_held : s.hasSda = true → s.pinlock[pinSda]? = engineHeld
  closing_nodup : s.closing.Nodup
  closing_pins : ∀ i ∈ s.closing, i = pinScl ∨ i = pinSda
  closing_held : ∀ i ∈ s.closing, s.pinlock[i]? = engineHeld
  closing_not_scl : pinScl ∈ s.closing → s.hasScl = false
  closing_not_sda : pinSda ∈ s.closing → s.hasSda = false

/-- Those that wait. An attempt is marked as blocked on a pin only while that pin is not free, so it has
no step until the pin is released (R52, R54); no thread is inside two calls at once (R61, R150); and no
call that cannot block waits, so that no thread inside a call releases a pin (R121). -/
structure Waits (s : State) : Prop where
  parked_phase : ∀ i, s.parked = some i →
    (s.phase = .oAcqScl ∧ i = pinScl) ∨ (s.phase = .oAcqSda ∧ i = pinSda)
  parked_not_free : ∀ i, s.parked = some i → s.pinlock[i]? ≠ some .free
  blocked_not_free : ∀ w ∈ s.waiting, ∀ i, w.blockedOn = some i → s.pinlock[i]? ≠ some .free
  one_call_each : s.inCall.Nodup
  waiting_calls : ∀ w ∈ s.waiting, mayWait w.instr = true

/-- The invariant of the block. -/
structure Inv (s : State) : Prop where
  sizes : s.Sizes
  sequencing : s.Sequencing
  ownership : s.Ownership
  pins : s.PinsHeld
  waits : s.Waits

/-! ### What the claims' hypotheses are made of -/

/-- An attempt on pin `i` fails with `st` (rule R52): the index is unknown, the lock is poisoned, or it
is held and failure is the outcome under `PIN_CONTENTION`. -/
def PinFails (s : State) (i : Nat) (st : Status) : Prop :=
  (s.pinlock[i]? = none ∧ st = .errPinUnknown) ∨
  (s.pinlock[i]? = some .poisoned ∧ st = .errPinContention) ∨
  ((∃ o, s.pinlock[i]? = some (.held o)) ∧ st = .errPinContention ∧
    (s.cfg.pinContention = .fail ∨
      (s.cfg.pinContention = .either ∧ ∃ rest, s.env.pinChoices = .fail :: rest)))

/-- An attempt on pin `i` finds it held and has to wait (rule R52). -/
def PinBlocks (s : State) (i : Nat) : Prop :=
  (∃ o, s.pinlock[i]? = some (.held o)) ∧
    (s.cfg.pinContention = .block ∨
      (s.cfg.pinContention = .either ∧ ∃ rest, s.env.pinChoices = .block :: rest))

/-- An engine that takes operations: it exists, the sequencer is idle, the Channel lock is free. -/
def Ready (s : State) : Prop := s.engExists = true ∧ s.phase = .idle ∧ s.chlock = .free

/-! ### TX and the operation in progress -/

/-- The bytes the job in progress puts on TX if every write succeeds (rule R158), from the latched
operands. -/
def fullRun (s : State) : List Byte :=
  match s.job with
  | .bareReply => []
  | .operation =>
    match s.opsel with
    | .openEngine => enableFrame s.cfg s.div
    | .send => startFrame s.cfg s.addr .write ++ txFrame s.cfg s.wlen ++ s.dataRun ++
        stopFrame s.cfg
    | .read => startFrame s.cfg s.addr .read ++ rxFrame s.cfg s.rlen ++ stopFrame s.cfg
    | .transfer => startFrame s.cfg s.addr s.cfg.xferFirstDir ++ txFrame s.cfg s.wlen ++
        xferRun s.cfg s.dataRun ++ startFrame s.cfg s.addr .read ++ rxFrame s.cfg s.rlen ++
        stopFrame s.cfg
    | .close => []
    | .divisor => []
    | .pin => []
    | .pinRelease => []

/-- The bytes that the step at the current phase writes if its write succeeds (rules R126, R152 to R154):
none, where the phase writes nothing. -/
def phaseBytes (s : State) : List Byte :=
  match s.phase with
  | .oEnable => enableFrame s.cfg s.div
  | .sStart => startFrame s.cfg s.addr .write
  | .sTxhdr => txFrame s.cfg s.wlen
  | .sData => s.dataRun
  | .sStop => stopFrame s.cfg
  | .rStart => startFrame s.cfg s.addr .read
  | .rRxhdr => rxFrame s.cfg s.rlen
  | .rStop => stopFrame s.cfg
  | .tStart1 => startFrame s.cfg s.addr s.cfg.xferFirstDir
  | .tTxhdr => txFrame s.cfg s.wlen
  | .tData => s.dataRun
  | .tStart2 => startFrame s.cfg s.addr .read
  | .tRxhdr => rxFrame s.cfg s.rlen
  | .tStop => stopFrame s.cfg
  | _ => []

/-- How many bytes the step at the current phase asks the Channel for (rules R153, R154). -/
def phaseAsks (s : State) : Nat :=
  match s.phase with
  | .rTag => 1
  | .tTag => 1
  | .rPayload => s.rlen.toNat
  | .tPayload => s.rlen.toNat
  | _ => 0

/-- Which part of them is on TX at the current phase, if nothing has failed. -/
def writtenRun (s : State) : List Byte :=
  match s.phase with
  | .sTxhdr => startFrame s.cfg s.addr .write
  | .sData => startFrame s.cfg s.addr .write ++ txFrame s.cfg s.wlen
  | .sStop => startFrame s.cfg s.addr .write ++ txFrame s.cfg s.wlen ++ s.dataRun
  | .rRxhdr => startFrame s.cfg s.addr .read
  | .rStop => startFrame s.cfg s.addr .read ++ rxFrame s.cfg s.rlen
  | .rTag => s.fullRun
  | .rPayload => s.fullRun
  | .tTxhdr => startFrame s.cfg s.addr s.cfg.xferFirstDir
  | .tData => startFrame s.cfg s.addr s.cfg.xferFirstDir ++ txFrame s.cfg s.wlen
  | .tStart2 => startFrame s.cfg s.addr s.cfg.xferFirstDir ++ txFrame s.cfg s.wlen ++
      xferRun s.cfg s.dataRun
  | .tRxhdr => startFrame s.cfg s.addr s.cfg.xferFirstDir ++ txFrame s.cfg s.wlen ++
      xferRun s.cfg s.dataRun ++ startFrame s.cfg s.addr .read
  | .tStop => startFrame s.cfg s.addr s.cfg.xferFirstDir ++ txFrame s.cfg s.wlen ++
      xferRun s.cfg s.dataRun ++ startFrame s.cfg s.addr .read ++ rxFrame s.cfg s.rlen
  | .tTag => s.fullRun
  | .tPayload => s.fullRun
  | .unlock => s.fullRun
  | _ => []

/-- What the job in progress has put on TX since it took the Channel lock, when TX held `base`: its
own bytes in order and nothing else. An aborted write sequence leaves a prefix (rules R57, R58,
R156, R158). -/
def OnWire (base : List Byte) (s : State) : Prop :=
  (s.outcome = .ok → s.tx = base ++ s.writtenRun) ∧
    (s.outcome ≠ .ok → ∃ p, p <+: s.fullRun ∧ s.tx = base ++ p)

end State

end Sys2Proof.Machine
end

