-- ==== Sys2Proof/Certificates/Slice0/Obligations.lean ====
section
/-! DEFINITION. The statements about the model, one def per obligation of OBLIGATIONS.json. -/

open Sys2Proof Sys2Proof.Machine

/-! ### The divisor -/

/-- Rule R142: above 255 the result is exactly 255, below 0 it is exactly 0; the comparison is made on
the exact rational, whatever its size. -/
def Obligations.DivisorSaturates : Prop :=
  ∀ (c : Config) (f : Freq), f ≠ 0#32 →
    let raw : Rat := ((c.maxClock : Rat) / (f.toNat : Rat) - (c.maxClock : Rat) * c.riseTime.toRat) /
      c.scale.toRat - c.offset.toRat
    (255 < raw → computeDivisor c f = 255#8) ∧ (raw < 0 → computeDivisor c f = 0#8)

/-- Rules R141, R143 and R144 with decision D4, the spec's own choice: an in-range value is rounded
down, and a frequency of 0 gives 255. -/
def Obligations.DivisorRoundsDown : Prop :=
  ∀ (c : Config) (f : Freq),
    let raw : Rat := ((c.maxClock : Rat) / (f.toNat : Rat) - (c.maxClock : Rat) * c.riseTime.toRat) /
      c.scale.toRat - c.offset.toRat
    (f ≠ 0#32 → 0 ≤ raw → raw ≤ 255 → ((computeDivisor c f).toNat : Int) = ⌊raw⌋) ∧
    computeDivisor c 0#32 = 255#8

/-- Rule R146, derived by the spec: a higher frequency never gives a larger divisor. -/
def Obligations.DivisorNeverRises : Prop :=
  ∀ (c : Config) (f1 f2 : Freq), c.wf = true → f1.toNat ≤ f2.toNat →
    (computeDivisor c f2).toNat ≤ (computeDivisor c f1).toNat

/-- Rule R147, derived by the spec: the integer-only closed form for the default constants (log entry
1). The bytes it gives are rounded down, which is the spec's own decision D4 (log entry 16): this
statement rests on D4. -/
def Obligations.DivisorClosedForm : Prop :=
  ∀ f : Freq, f ≠ 0#32 →
    ((computeDivisor Config.gk f).toNat : Int) =
      if (600000000 - 134 * (f.toNat : Int)) < 0 then 0
      else min ((600000000 - 134 * (f.toNat : Int)) / (25 * (f.toNat : Int))) 255

/-- Rule R145: DIVISOR answers in every state, reads no register and writes none; its caller gets the
byte. -/
def Obligations.DivisorTouchesNothing : Prop :=
  ∀ (s : State) (f : Freq),
    exec (.divisor f) s =
      .next { s with ret := .divisor (computeDivisor s.cfg f), retTo := s.caller }

/-! ### Encodings -/

/-- Decode and encode agree, for every well-formed instruction and all parameters that meet rule
R5's constraints, whatever follows on the stream. -/
def Obligations.DecodeOfEncode : Prop :=
  ∀ (c : Config) (i : Instr) (rest : List Byte), c.wf = true → i.wellFormed = true →
    decode c i.space (encode c i ++ rest) = .ok (i, rest)

/-- Rule R83: no decoder ever yields an address or a length out of contract. -/
def Obligations.DecodedIsInContract : Prop :=
  ∀ (c : Config) (sp : Space) (bytes rest : List Byte) (i : Instr),
    decode c sp bytes = .ok (i, rest) → i.wellFormed = true

/-- Rule R77: the start argument has the address in bits 7:1 and the direction in bit 0, and is
`(ADDR << 1) | dir` in 8 bits. -/
def Obligations.StartArgumentLayout : Prop :=
  ∀ (a : BusAddr) (d : Dir),
    (startArg a d).extractLsb' 1 7 = a ∧ (startArg a d).extractLsb' 0 1 = d.bit ∧
    startArg a d = (a.setWidth 8 <<< 1) ||| d.bit.setWidth 8

/-- Words written out bit by bit decode to their instructions. The layout of the command words is the
spec's (rules R71 to R77), with the opcode and tag values of log entry 1. The layout of the reply request
`84 02`, of the operation request `02 1D 03`, and of the operand bytes behind the table word 7 is the
model's own: rule R86 gives no fixed layout (log entry 3). -/
def Obligations.WrittenWordsDecode : Prop :=
  decode Config.gk .command [0x0C#8, 0x04#8] = .ok (.enableI2c 4#8, []) ∧
  decode Config.gk .command [0x13#8, 0x3B#8] = .ok (.start 0x1D#7 .read, []) ∧
  decode Config.gk .command [0x14#8] = .ok (.stop, []) ∧
  decode Config.gk .reply [0x84#8, 0x02#8] = .ok (.data 2#8, []) ∧
  decode Config.gk .request [0x02#8, 0x1D#8, 0x03#8] = .ok (.read 29 3, []) ∧
  decodeTableWord 16 0x3A13 = some (.start 0x1D#7 .write) ∧
  decodeTableWord 8 7 = some (.pinRelease 0)

/-- Rule R84: a reader of TX that takes every announced data run reads a SEND back as START, TX with
its data run, and STOP. -/
def Obligations.RecordedSendReadsBack : Prop :=
  ∀ (c : Config) (a : Nat) (w : List Byte), c.wf = true → w.length ≤ 255 →
    readStream c 3 (sendBytes c a w) =
      .ok [⟨.start (BitVec.ofNat 7 a) .write, []⟩, ⟨.tx (BitVec.ofNat 8 w.length), w⟩, ⟨.stop, []⟩]

/-- Rules R84 and R221: such a reader takes the five bytes after the TX frame of a five-byte TRANSFER
without a data phase for the announced data. -/
def Obligations.RecordedTransferIsMisread : Prop :=
  ∀ (c : Config) (a n : Nat) (w : List Byte), c.wf = true → c.xferDataPhase = .absent →
    w.length = 5 →
    readStream c 2 (transferBytes c a w n) =
      .ok [⟨.start (BitVec.ofNat 7 a) c.xferFirstDir, []⟩,
        ⟨.tx 5#8, startFrame c (BitVec.ofNat 7 a) .read ++ rxFrame c (BitVec.ofNat 8 n) ++
          stopFrame c⟩]

/-! ### Bare frames -/

/-- Rules R104 to R108: with the Channel lock free and the write succeeding, each command frame puts
its bytes on TX and changes nothing else; its caller gets `ok` (log entry 4). -/
def Obligations.CommandFramesComplete : Prop :=
  ∀ (s : State) (ss : List SendOutcome), s.chlock = .free → s.env.sends = .ok :: ss →
    let after (bytes : List Byte) : State :=
      { s with tx := s.tx ++ bytes, ret := .frame true, retTo := s.caller,
               env := { s.env with sends := ss } }
    (∀ d, exec (.enableI2c d) s = .next (after [s.cfg.opEnableI2c, d])) ∧
    (∀ a dir, exec (.start a dir) s = .next (after [s.cfg.opStart, startArg a dir])) ∧
    (∀ n, exec (.tx n) s = .next (after [s.cfg.opTx, n])) ∧
    (∀ n, exec (.rx n) s = .next (after [s.cfg.opRx, n])) ∧
    exec .stop s = .next (after [s.cfg.opStop])

/-- Rules R48 and R101: a command frame whose write fails leaves a prefix of its bytes on TX, its
caller gets `fail`, and no register changes. That a frame is a call of its own is the model's choice
(log entry 4). -/
def Obligations.CommandFrameFails : Prop :=
  ∀ (s : State) (i : Instr) (k : Nat) (ss : List SendOutcome), i.space = .command →
    s.chlock = .free → s.env.sends = .fail k :: ss →
    exec i s = .next { s with
      tx := s.tx ++ (encode s.cfg i).take k, ret := .frame false, retTo := s.caller,
      env := { s.env with sends := ss } }

/-- Rule R55: while the Channel lock is held the caller of a bare frame, or of a bare DATA reply,
waits. That it takes the lock itself is the model's choice (log entry 4). -/
def Obligations.FramesWaitForTheLock : Prop :=
  ∀ (s : State) (i : Instr) (o : ChOwner), i.space ≠ .request → s.chlock = .held o →
    exec i s = .next { s with waiting := s.waiting ++ [⟨s.caller, i, none⟩] }

/-- Rule R109: with the tag and the payload in RX, DATA puts the payload into `RBUF[0..n-1]`, leaves
the rest of `RBUF` and of RX, and hands the payload over (log entry 4). -/
def Obligations.DataReplyCompletes : Prop :=
  ∀ (s : State) (n : Byte) (p more : List Byte) (rs : List RecvOutcome) (k : Nat) (bs : List Nat),
    s.phase = .idle → s.chlock = .free → p.length = n.toNat →
    s.rx = s.cfg.tagData :: (p ++ more) → s.env.recvs = .deliver :: .deliver :: rs →
    s.env.bursts = k :: bs → 3 ≤ k →
    exec (.data n) s = .next { s with
      rx := more, rbuf := p ++ s.rbuf.drop n.toNat, rlen := n, outcome := .ok, job := .bareReply,
      opThread := s.caller, ret := .received p, retTo := s.caller,
      env := { s.env with recvs := rs, bursts := bs } }

/-- Rules R82 and R109: on another tag exactly one byte is taken from RX, `RBUF` is not written, and
the error carries the byte. That a reply is received by a call of its own, and what it leaves in
`STATUS`, is the model's choice (log entry 4). -/
def Obligations.DataReplyDesync : Prop :=
  ∀ (s : State) (n b : Byte) (more : List Byte) (rs : List RecvOutcome) (k : Nat) (bs : List Nat),
    s.phase = .idle → s.chlock = .free → b ≠ s.cfg.tagData → s.rx = b :: more →
    s.env.recvs = .deliver :: rs → s.env.bursts = k :: bs → 2 ≤ k →
    exec (.data n) s = .next { s with
      rx := more, rlen := n, outcome := .errDesync b, job := .bareReply, status := .errDesync b,
      opThread := s.caller, ret := .status (.errDesync b), retTo := s.caller,
      env := { s.env with recvs := rs, bursts := bs } }

/-! ### Pins -/

/-- Rules R120 and R18: PIN on a free pin locks it for its caller and hands out the handle; `STATUS` is
`OK` (log entry 5); nothing else changes. -/
def Obligations.PinCompletes : Prop :=
  ∀ (s : State) (i : Nat), s.pinlock[i]? = some .free →
    exec (.pin i) s = .next { s with
      pinlock := s.pinlock.set i (.held (.host s.caller)), status := .ok, ret := .handle i, retTo := s.caller }

/-- An index that is not below `N_PINS` is reported to the caller as unknown, whatever is held, and again
at every further attempt with it (rule R183). That `STATUS` holds the error too is the model's reading of
rule R18; rule R120 lists nothing beside `PINLOCK` (log entry 5). -/
def Obligations.UnknownPinReported : Prop :=
  ∀ (s : State) (i : Nat), s.Inv → s.cfg.nPins ≤ i →
    let t : State := { s with
      status := .errPinUnknown, ret := .status .errPinUnknown, retTo := s.caller }
    exec (.pin i) s = .next t ∧ exec (.pin i) t = .next t

/-- Rules R52 and R120: a poisoned pin, or a held one where failure is the outcome, is reported to the
caller; a held one where blocking is the outcome makes the caller wait, blocked on the pin; the pin is
not granted. That the failed PIN leaves the error in `STATUS` too is the model's reading of rule R18; rule
R120 lists nothing beside `PINLOCK` (log entry 5). -/
def Obligations.PinContentionReportedOrWaits : Prop :=
  ∀ (s : State) (i : Nat),
    (s.PinFails i .errPinContention → ∃ e, exec (.pin i) s = .next { s with
      status := .errPinContention, ret := .status .errPinContention, retTo := s.caller, env := e }) ∧
    (s.PinBlocks i → ∃ e, exec (.pin i) s = .next { s with
      waiting := s.waiting ++ [⟨s.caller, .pin i, some i⟩], env := e })

/-- Rules R121 and R18: PIN_RELEASE frees the pin of a handle that the calling thread holds and lets those
blocked on it proceed; `STATUS` is `OK` (log entry 5). -/
def Obligations.PinReleaseCompletes : Prop :=
  ∀ (s : State) (i : Nat), s.pinlock[i]? = some (.held (.host s.caller)) →
    exec (.pinRelease i) s = .next { s.wake i with
      pinlock := s.pinlock.set i .free, status := .ok, ret := .nothing, retTo := s.caller }

/-- Rules R54 and R121: only the holder of a handle can release it: PIN_RELEASE is refused where the
calling thread does not hold the pin, be it free, or held by another thread, the engine (whose handles
cannot be released this way) or another user. That the holder is the thread PIN returned to is the model's
choice (log entry 18). -/
def Obligations.PinReleaseNeedsTheHandle : Prop :=
  ∀ (s : State) (i : Nat), s.pinlock[i]? ≠ some (.held (.host s.caller)) →
    exec (.pinRelease i) s = .refused .noHandle

/-- Rules R52, R54 and R203: an attempt that has blocked has no step while the pin is held: not a
thread's, at its turn, and not that of an OPEN in progress. A release of the pin frees it, and then
nobody is blocked on it; those blocked on another pin stay so, and everybody keeps thread and call. -/
def Obligations.BlockedUntilRelease : Prop :=
  ∀ (s : State) (i : Nat),
    (∀ (o : PinOwner) (k : Nat) (w : Waiter) (ts : List Turn), s.pinlock[i]? = some (.held o) →
      s.env.turns = .retry k :: ts → s.waiting[k]? = some w → w.blockedOn = some i →
      step s = .next { s with env := { s.env with turns := ts } }) ∧
    (∀ o : PinOwner, s.pinlock[i]? = some (.held o) → s.parked = some i →
      s.phase = .oAcqScl ∨ s.phase = .oAcqSda → s.seqStep = .waits s) ∧
    (i < s.pinlock.length → (s.releasePin i).pinlock[i]? = some .free) ∧
    (s.releasePin i).parked ≠ some i ∧ (s.parked ≠ some i → (s.releasePin i).parked = s.parked) ∧
    (∀ (k : Nat) (w : Waiter), s.waiting[k]? = some w →
      (s.releasePin i).waiting[k]? =
        some { w with blockedOn := if w.blockedOn = some i then none else w.blockedOn })

/-- Rules R52 to R54, R120 and R224: no step hands a held pin to another holder: a pin that is held stays
with its holder, or is free or poisoned after the step. Only its holder releases it: while the thread that
holds it is inside a call, it stays held by that thread, whoever steps. So a thread that is blocked on a
pin it holds itself never proceeds: neither a call that waits, nor an OPEN in progress (log entries 18 and
19). -/
def Obligations.HeldPinsAreNeverGranted : Prop :=
  ∀ (s t : State) (j : Nat), step s = .next t →
    (∀ o : PinOwner, s.pinlock[j]? = some (.held o) →
      t.pinlock[j]? = some (.held o) ∨ t.pinlock[j]? = some .free ∨
        t.pinlock[j]? = some .poisoned) ∧
    (∀ th : Nat, s.Inv → th ∈ s.inCall → s.pinlock[j]? = some (.held (.host th)) →
      t.pinlock[j]? = some (.held (.host th))) ∧
    (∀ w : Waiter, s.Inv → w ∈ s.waiting → w.blockedOn = some j →
      s.pinlock[j]? = some (.held (.host w.thread)) → w ∈ t.waiting) ∧
    (s.Inv → s.parked = some j → s.pinlock[j]? = some (.held (.host s.opThread)) →
      t.phase = s.phase ∧ t.parked = some j ∧ t.opThread = s.opThread)

/-! ### OPEN and CLOSE -/

/-- Rules R126 and R30: OPEN with both pins and the Channel lock free, the write succeeding and the
sequencer not interrupted. -/
def Obligations.OpenCompletes : Prop :=
  ∀ (s : State) (f : Freq) (ss : List SendOutcome) (k : Nat) (bs : List Nat),
    s.phase = .idle → s.pinlock[pinScl]? = some .free → s.pinlock[pinSda]? = some .free →
    s.chlock = .free → s.env.sends = .ok :: ss → s.env.bursts = k :: bs → 4 ≤ k →
    exec (.openEngine f) s = .next { s with
      pinlock := (s.pinlock.set pinScl (.held .engine)).set pinSda (.held .engine),
      hasScl := true, hasSda := true, engExists := true, freq := f, freqReq := f,
      opsel := .openEngine, tx := s.tx ++ [s.cfg.opEnableI2c, computeDivisor s.cfg f],
      status := .ok, outcome := .ok, job := .operation, opThread := s.caller, parked := none,
      ret := .status .ok, retTo := s.caller,
      env := { s.env with sends := ss, bursts := bs } }

/-- Rule R125: where either acquisition fails, OPEN returns its error kind; no pin is leaked, no
engine is built, `FREQ` is not written, `CHLOCK` is not taken and TX is unchanged. The first clause is
the clock pin, for which no attempt on the data pin follows; the second is the data pin; the third and
the fourth are an OPEN that has waited at `O_ACQ_SCL` or at `O_ACQ_SDA` and may make its attempt. -/
def Obligations.OpenAcquisitionFails : Prop :=
  ∀ (s : State) (st : Status),
    (∀ f : Freq, s.phase = .idle → s.PinFails pinScl st →
      ∃ e, exec (.openEngine f) s = .next { s with
        freqReq := f, opsel := .openEngine, outcome := .ok, job := .operation, opThread := s.caller,
        parked := none, status := st, ret := .status st, retTo := s.caller, env := e }) ∧
    (∀ f : Freq, s.phase = .idle → s.pinlock[pinScl]? = some .free → s.PinFails pinSda st →
      (∃ k bs, s.env.bursts = k :: bs ∧ 1 ≤ k) →
      ∃ e, exec (.openEngine f) s = .next { s with
        hasScl := false, freqReq := f, opsel := .openEngine, outcome := .ok, job := .operation,
        opThread := s.caller, parked := none, waiting := (s.wake pinScl).waiting,
        status := st, ret := .status st, retTo := s.caller, env := e }) ∧
    (s.phase = .oAcqScl → s.stillBlocked s.parked = false → s.PinFails pinScl st →
      ∃ e, s.seqStep = .moved { s with
        phase := .idle, parked := none, status := st, ret := .status st, retTo := s.opThread,
        env := e }) ∧
    (s.phase = .oAcqSda → s.stillBlocked s.parked = false → s.PinFails pinSda st →
      ∃ e, s.seqStep = .moved { s with
        pinlock := s.pinlock.set pinScl .free, hasScl := false, phase := .idle, parked := none,
        waiting := (s.wake pinScl).waiting, status := st, ret := .status st, retTo := s.opThread,
        env := e })

/-- Rules R52 and R126: where an attempt blocks, OPEN has no step there: on pin 0 it stands at
`O_ACQ_SCL` with nothing taken, or, beside an engine that exists, its thread waits blocked on pin 0 (log
entry 7); on pin 1 it stands at `O_ACQ_SDA` with pin 0 held. In all cases TX is unchanged. -/
def Obligations.OpenBlocks : Prop :=
  ∀ (s : State) (f : Freq), s.phase = .idle →
    (s.PinBlocks pinScl → s.engExists = false → ∃ e, exec (.openEngine f) s = .next { s with
      freqReq := f, opsel := .openEngine, outcome := .ok, job := .operation, opThread := s.caller,
      parked := some pinScl, phase := .oAcqScl, env := e }) ∧
    (s.PinBlocks pinScl → s.engExists = true → ∃ e, exec (.openEngine f) s = .next { s with
      waiting := s.waiting ++ [⟨s.caller, .openEngine f, some pinScl⟩], env := e }) ∧
    (s.pinlock[pinScl]? = some .free → s.PinBlocks pinSda →
      (∃ k bs, s.env.bursts = k :: bs ∧ 1 ≤ k) →
      ∃ e, exec (.openEngine f) s = .next { s with
        pinlock := s.pinlock.set pinScl (.held .engine), hasScl := true, freqReq := f,
        opsel := .openEngine, outcome := .ok, job := .operation, opThread := s.caller,
        parked := some pinSda, phase := .oAcqSda, env := e })

/-- Rules R52 and R126: an OPEN that waited at `O_ACQ_SCL` or at `O_ACQ_SDA` goes on when the pins are
free. -/
def Obligations.BlockedOpenGoesOn : Prop :=
  ∀ (s : State) (ss : List SendOutcome) (k : Nat) (bs : List Nat),
    s.job = .operation → s.opsel = .openEngine → s.outcome = .ok →
    s.stillBlocked s.parked = false → s.pinlock[pinSda]? = some .free → s.chlock = .free →
    s.env.sends = .ok :: ss → s.env.bursts = k :: bs →
    let done (locks : List PinLock) : State := { s with
      pinlock := locks.set pinSda (.held .engine), hasScl := true, hasSda := true,
      engExists := true, freq := s.freqReq,
      tx := s.tx ++ [s.cfg.opEnableI2c, computeDivisor s.cfg s.freqReq],
      phase := .idle, parked := none, status := .ok, ret := .status .ok, retTo := s.opThread,
      env := { s.env with sends := ss, bursts := bs } }
    (s.phase = .oAcqScl → s.pinlock[pinScl]? = some .free → 5 ≤ k →
      s.runSequencer = done (s.pinlock.set pinScl (.held .engine))) ∧
    (s.phase = .oAcqSda → s.hasScl = true → 4 ≤ k → s.runSequencer = done s.pinlock)

/-- Rule R126 with decision D17, the spec's own choice: where the enable frame's write fails, OPEN
releases both pins, builds no engine and returns `ERR_IO`; a prefix of the frame is on TX. -/
def Obligations.OpenWriteFails : Prop :=
  ∀ (s : State) (f : Freq) (j : Nat) (ss : List SendOutcome) (k : Nat) (bs : List Nat),
    s.phase = .idle → s.pinlock[pinScl]? = some .free → s.pinlock[pinSda]? = some .free →
    s.chlock = .free → s.env.sends = .fail j :: ss → s.env.bursts = k :: bs → 4 ≤ k →
    exec (.openEngine f) s = .next { s with
      hasScl := false, hasSda := false, freq := f, freqReq := f, opsel := .openEngine,
      tx := s.tx ++ [s.cfg.opEnableI2c, computeDivisor s.cfg f].take j,
      status := .errIo, outcome := .errIo, job := .operation, opThread := s.caller, parked := none,
      waiting := ((s.wake pinSda).wake pinScl).waiting,
      ret := .status .errIo, retTo := s.caller, env := { s.env with sends := ss, bursts := bs } }

/-- Rule R127, whatever the environment chooses: an OPEN that has returned (it neither waits nor
stands in its sequence) either built an engine and put exactly its enable frame on TX, or reports an
error and left both pins as they were; after an acquisition error TX is unchanged. -/
def Obligations.OpenIsSafe : Prop :=
  ∀ (s t : State) (f : Freq), s.phase = .idle → exec (.openEngine f) s = .next t →
    t.phase = .idle → t.waiting.length = s.waiting.length →
    (t.status = .ok ∧ t.engExists = true ∧ t.hasScl = true ∧ t.hasSda = true ∧ t.freq = f ∧
      t.tx = s.tx ++ [s.cfg.opEnableI2c, computeDivisor s.cfg f]) ∨
    (t.status ≠ .ok ∧ t.engExists = s.engExists ∧ t.pinlock = s.pinlock ∧
      (t.status ≠ .errIo → t.tx = s.tx))

/-- Rule R124: an OPEN on a port whose engine exists takes nothing, writes nothing to TX and leaves
the engine as it is, whatever the environment chooses. That `PHASE` stays the engine's, also where the
OPEN has to wait, is the model's choice (log entry 7). -/
def Obligations.SecondOpenTakesNothing : Prop :=
  ∀ (s : State) (f : Freq), s.Inv → s.engExists = true →
    ∃ t, exec (.openEngine f) s = .next t ∧ t.tx = s.tx ∧ t.rx = s.rx ∧ t.pinlock = s.pinlock ∧
      t.chlock = s.chlock ∧ t.engExists = true ∧ t.hasScl = s.hasScl ∧ t.hasSda = s.hasSda ∧
      t.freq = s.freq ∧ t.phase = s.phase

/-- Rules R124, R126 and R52: an OPEN while the sequencer works makes its attempt on pin 0. Where the
attempt fails its caller gets the error kind, and where it blocks its caller waits, blocked on pin 0. A
free pin 0 is not taken while anything but an OPEN is in progress (a bare DATA reply): the caller waits
until the sequencer is idle; from another OPEN that stands at `O_ACQ_SCL` it is taken, and that OPEN's
caller waits to try again. What is in progress is left alone in all other cases (log entry 7). -/
def Obligations.OpenAtABusySequencer : Prop :=
  ∀ (s : State) (f : Freq) (st : Status), s.phase ≠ .idle →
    (s.PinFails pinScl st → ∃ e, exec (.openEngine f) s = .next { s with
      status := st, ret := .status st, retTo := s.caller, env := e }) ∧
    (s.PinBlocks pinScl → ∃ e, exec (.openEngine f) s = .next { s with
      waiting := s.waiting ++ [⟨s.caller, .openEngine f, some pinScl⟩], env := e }) ∧
    (s.pinlock[pinScl]? = some .free → s.phase ≠ .oAcqScl →
      exec (.openEngine f) s = .next { s with
        waiting := s.waiting ++ [⟨s.caller, .openEngine f, none⟩] }) ∧
    (∀ bs, s.pinlock[pinScl]? = some .free → s.phase = .oAcqScl → s.env.bursts = 0 :: bs →
      exec (.openEngine f) s = .next { s with
        waiting := s.waiting ++ [⟨s.opThread, .openEngine s.freqReq, none⟩],
        pinlock := s.pinlock.set pinScl (.held .engine), hasScl := true, freqReq := f,
        opsel := .openEngine, outcome := .ok, job := .operation, opThread := s.caller,
        parked := none, phase := .oAcqSda, env := { s.env with bursts := bs } })

/-- Rule R128: CLOSE, not interrupted, frees both pins in either order, lets those blocked on them
proceed, and ends the engine; no frame is written; `STATUS` is `OK` (rule R18, log entry 5). -/
def Obligations.CloseCompletes : Prop :=
  ∀ (s : State) (o : CloseOrder) (os : List CloseOrder) (k : Nat) (bs : List Nat),
    s.engExists = true → s.phase = .idle → s.closing = [] → s.env.closeOrders = o :: os →
    s.env.bursts = k :: bs → 2 ≤ k →
    exec .close s = .next { (s.wake pinScl).wake pinSda with
      pinlock := (s.pinlock.set pinScl .free).set pinSda .free,
      hasScl := false, hasSda := false, engExists := false, closeThread := s.caller,
      status := .ok, ret := .nothing, retTo := s.caller,
      env := { s.env with closeOrders := os, bursts := bs } }

/-- Rule R128: between CLOSE's two releases one pin is free while the other is still held, in the
order the environment chose. That `EXISTS` and the handles go before the first release is the model's
choice (log entry 13). -/
def Obligations.CloseReleasesInTwoSteps : Prop :=
  ∀ (s : State) (os : List CloseOrder) (bs : List Nat),
    s.engExists = true → s.phase = .idle → s.closing = [] → s.env.bursts = 1 :: bs →
    (s.env.closeOrders = .sdaFirst :: os → exec .close s = .next { s.wake pinSda with
      pinlock := s.pinlock.set pinSda .free, hasScl := false, hasSda := false,
      engExists := false, closing := [pinScl], closeThread := s.caller,
      env := { s.env with closeOrders := os, bursts := bs } }) ∧
    (s.env.closeOrders = .sclFirst :: os → exec .close s = .next { s.wake pinScl with
      pinlock := s.pinlock.set pinScl .free, hasScl := false, hasSda := false,
      engExists := false, closing := [pinSda], closeThread := s.caller,
      env := { s.env with closeOrders := os, bursts := bs } })

/-- Rule R128 and decision D18, the spec's own choice: CLOSE without an engine, or during an operation,
is refused. -/
def Obligations.CloseRefused : Prop :=
  ∀ s : State,
    (s.engExists = false → exec .close s = .refused .noEngine) ∧
    (s.engExists = true → s.phase ≠ .idle → exec .close s = .refused .closeDuringOperation)

/-! ### SEND, READ and TRANSFER -/

/-- Rule R152: SEND, every write succeeding and the sequencer not interrupted. -/
def Obligations.SendCompletes : Prop :=
  ∀ (s : State) (a : Nat) (w : List Byte) (ss : List SendOutcome) (k : Nat) (bs : List Nat),
    a < 128 → w.length ≤ 255 → s.Ready → s.env.sends = .ok :: .ok :: .ok :: .ok :: ss →
    s.env.bursts = k :: bs → 6 ≤ k →
    exec (.send a w) s = .next { s with
      tx := s.tx ++ [s.cfg.opStart, startArg (BitVec.ofNat 7 a) .write,
        s.cfg.opTx, BitVec.ofNat 8 w.length] ++ w ++ [s.cfg.opStop],
      opsel := .send, addr := BitVec.ofNat 7 a, wlen := BitVec.ofNat 8 w.length,
      wbuf := w ++ s.wbuf.drop w.length, status := .ok, outcome := .ok, job := .operation,
      opThread := s.caller, ret := .status .ok, retTo := s.caller,
      env := { s.env with sends := ss, bursts := bs } }

/-- Rule R153: READ, every write succeeding, the reply in RX and the sequencer not interrupted. -/
def Obligations.ReadCompletes : Prop :=
  ∀ (s : State) (a n : Nat) (p more : List Byte) (ss : List SendOutcome) (rs : List RecvOutcome)
    (k : Nat) (bs : List Nat),
    a < 128 → n ≤ 255 → s.Ready → p.length = n → s.rx = s.cfg.tagData :: (p ++ more) →
    s.env.sends = .ok :: .ok :: .ok :: ss → s.env.recvs = .deliver :: .deliver :: rs →
    s.env.bursts = k :: bs → 7 ≤ k →
    exec (.read a n) s = .next { s with
      tx := s.tx ++ [s.cfg.opStart, startArg (BitVec.ofNat 7 a) .read,
        s.cfg.opRx, BitVec.ofNat 8 n, s.cfg.opStop],
      rx := more, rbuf := p ++ s.rbuf.drop n,
      opsel := .read, addr := BitVec.ofNat 7 a, rlen := BitVec.ofNat 8 n,
      status := .ok, outcome := .ok, job := .operation, opThread := s.caller,
      ret := .received p, retTo := s.caller,
      env := { s.env with sends := ss, recvs := rs, bursts := bs } }

/-- Rule R154 without a data phase, this hardware's value: TRANSFER, every write succeeding, the reply
in RX and the sequencer not interrupted. The write buffer's bytes do not reach TX. -/
def Obligations.TransferCompletes : Prop :=
  ∀ (s : State) (a n : Nat) (w p more : List Byte) (ss : List SendOutcome)
    (rs : List RecvOutcome) (k : Nat) (bs : List Nat),
    s.cfg.xferDataPhase = .absent → a < 128 → w.length ≤ 255 → n ≤ 255 → s.Ready →
    p.length = n → s.rx = s.cfg.tagData :: (p ++ more) →
    s.env.sends = .ok :: .ok :: .ok :: .ok :: .ok :: ss →
    s.env.recvs = .deliver :: .deliver :: rs → s.env.bursts = k :: bs → 9 ≤ k →
    exec (.transfer a w n) s = .next { s with
      tx := s.tx ++ [s.cfg.opStart, startArg (BitVec.ofNat 7 a) s.cfg.xferFirstDir,
        s.cfg.opTx, BitVec.ofNat 8 w.length,
        s.cfg.opStart, startArg (BitVec.ofNat 7 a) .read,
        s.cfg.opRx, BitVec.ofNat 8 n, s.cfg.opStop],
      rx := more, rbuf := p ++ s.rbuf.drop n,
      opsel := .transfer, addr := BitVec.ofNat 7 a, wlen := BitVec.ofNat 8 w.length,
      rlen := BitVec.ofNat 8 n, wbuf := w ++ s.wbuf.drop w.length,
      status := .ok, outcome := .ok, job := .operation, opThread := s.caller,
      ret := .received p, retTo := s.caller,
      env := { s.env with sends := ss, recvs := rs, bursts := bs } }

/-- Rule R154 with a data phase (conflict C2's other setting): the write buffer's bytes follow the TX
frame. -/
def Obligations.TransferWithDataCompletes : Prop :=
  ∀ (s : State) (a n : Nat) (w p more : List Byte) (ss : List SendOutcome)
    (rs : List RecvOutcome) (k : Nat) (bs : List Nat),
    s.cfg.xferDataPhase = .present → a < 128 → w.length ≤ 255 → n ≤ 255 → s.Ready →
    p.length = n → s.rx = s.cfg.tagData :: (p ++ more) →
    s.env.sends = .ok :: .ok :: .ok :: .ok :: .ok :: .ok :: ss →
    s.env.recvs = .deliver :: .deliver :: rs → s.env.bursts = k :: bs → 10 ≤ k →
    exec (.transfer a w n) s = .next { s with
      tx := s.tx ++ [s.cfg.opStart, startArg (BitVec.ofNat 7 a) s.cfg.xferFirstDir,
        s.cfg.opTx, BitVec.ofNat 8 w.length] ++ w ++
        [s.cfg.opStart, startArg (BitVec.ofNat 7 a) .read,
        s.cfg.opRx, BitVec.ofNat 8 n, s.cfg.opStop],
      rx := more, rbuf := p ++ s.rbuf.drop n,
      opsel := .transfer, addr := BitVec.ofNat 7 a, wlen := BitVec.ofNat 8 w.length,
      rlen := BitVec.ofNat 8 n, wbuf := w ++ s.wbuf.drop w.length,
      status := .ok, outcome := .ok, job := .operation, opThread := s.caller,
      ret := .received p, retTo := s.caller,
      env := { s.env with sends := ss, recvs := rs, bursts := bs } }

/-- Rules R153 and R160: a READ whose reply has another tag takes that one byte, leaves `RBUF`, and
returns `ERR_DESYNC` with it. -/
def Obligations.ReadDesync : Prop :=
  ∀ (s : State) (a n : Nat) (b : Byte) (more : List Byte) (ss : List SendOutcome)
    (rs : List RecvOutcome) (k : Nat) (bs : List Nat),
    a < 128 → n ≤ 255 → s.Ready → b ≠ s.cfg.tagData → s.rx = b :: more →
    s.env.sends = .ok :: .ok :: .ok :: ss → s.env.recvs = .deliver :: rs →
    s.env.bursts = k :: bs → 6 ≤ k →
    exec (.read a n) s = .next { s with
      tx := s.tx ++ readBytes s.cfg a n, rx := more,
      opsel := .read, addr := BitVec.ofNat 7 a, rlen := BitVec.ofNat 8 n,
      status := .errDesync b, outcome := .errDesync b, job := .operation, opThread := s.caller,
      ret := .status (.errDesync b), retTo := s.caller,
      env := { s.env with sends := ss, recvs := rs, bursts := bs } }

/-- Rule R160: the check of the reply tag, in READ and in TRANSFER alike. After the STOP has been
written the tag step comes; it waits while RX is empty. Another byte than the data tag: `ERR_DESYNC`,
`PHASE` at `UNLOCK`, `RBUF` not written, no further byte read. The data tag: the payload step comes
next; it waits while fewer than `RLEN` bytes are there, and takes exactly `RLEN` bytes into `RBUF`.
`ERR_DESYNC` is not `ERR_IO`. -/
def Obligations.ReplyTagIsChecked : Prop :=
  ∀ (s : State) (b : Byte) (more : List Byte) (ss : List SendOutcome) (rs : List RecvOutcome)
    (stopPhase tagPhase payPhase : Phase),
    (stopPhase = .rStop ∧ tagPhase = .rTag ∧ payPhase = .rPayload) ∨
      (stopPhase = .tStop ∧ tagPhase = .tTag ∧ payPhase = .tPayload) →
    s.env.sends = .ok :: ss → s.env.recvs = .deliver :: rs →
    (s.phase = stopPhase → ∃ t, s.seqStep = .moved t ∧ t.phase = tagPhase ∧
      t.tx = s.tx ++ [s.cfg.opStop] ∧ t.rx = s.rx) ∧
    (s.phase = tagPhase → s.rx = [] → ∃ t, s.seqStep = .waits t ∧ t.phase = tagPhase ∧
      t.rx = [] ∧ t.rbuf = s.rbuf ∧ t.tx = s.tx) ∧
    (s.phase = tagPhase → s.rx = b :: more → b ≠ s.cfg.tagData → ∃ t, s.seqStep = .moved t ∧
      t.status = .errDesync b ∧ t.outcome = .errDesync b ∧ t.phase = .unlock ∧ t.rbuf = s.rbuf ∧
      t.rx = more ∧ t.tx = s.tx ∧ t.status ≠ .errIo) ∧
    (s.phase = tagPhase → s.rx = b :: more → b = s.cfg.tagData → ∃ t, s.seqStep = .moved t ∧
      t.phase = payPhase ∧ t.rbuf = s.rbuf ∧ t.rx = more ∧ t.tx = s.tx) ∧
    (s.phase = payPhase → s.rx.length < s.rlen.toNat → ∃ t, s.seqStep = .waits t ∧
      t.phase = payPhase ∧ t.rx = s.rx ∧ t.rbuf = s.rbuf ∧ t.tx = s.tx) ∧
    (s.phase = payPhase → s.rlen.toNat ≤ s.rx.length → ∃ t, s.seqStep = .moved t ∧
      t.phase = .unlock ∧ t.rbuf = s.rx.take s.rlen.toNat ++ s.rbuf.drop s.rlen.toNat ∧
      t.rx = s.rx.drop s.rlen.toNat ∧ t.tx = s.tx ∧ t.outcome = s.outcome)

/-- Rules R216 and R56: a READ whose reply has not come stands at `R_TAG` with its three frames on TX
and the Channel lock held; it returns nothing. -/
def Obligations.ReadBlocksWithTheLock : Prop :=
  ∀ (s : State) (a n : Nat) (ss : List SendOutcome) (rs : List RecvOutcome)
    (k : Nat) (bs : List Nat),
    a < 128 → n ≤ 255 → s.Ready → s.rx = [] → s.env.sends = .ok :: .ok :: .ok :: ss →
    s.env.recvs = .deliver :: rs → s.env.bursts = k :: bs → 5 ≤ k →
    exec (.read a n) s = .next { s with
      tx := s.tx ++ readBytes s.cfg a n, chlock := .held .sequencer, phase := .rTag,
      opsel := .read, addr := BitVec.ofNat 7 a, rlen := BitVec.ofNat 8 n,
      outcome := .ok, job := .operation, opThread := s.caller,
      env := { s.env with sends := ss, recvs := rs, bursts := bs } }

/-- Rules R49 and R190, the spec's own decision D14: a receive that fails. At the tag step `RBUF` is
unchanged; at the payload step its first `RLEN` cells hold unspecified bytes and the others are unchanged; at most the bytes asked
for have left RX, and the outcome is `ERR_IO`. -/
def Obligations.FailedReceive : Prop :=
  ∀ (s : State) (k : Nat) (rs : List RecvOutcome), s.Inv → s.env.recvs = .fail k :: rs →
    (s.phase = .rTag ∨ s.phase = .tTag → ∃ t, s.seqStep = .moved t ∧ t.status = .errIo ∧
      t.outcome = .errIo ∧ t.phase = .unlock ∧ t.rbuf = s.rbuf ∧ t.rx = s.rx.drop (min k 1) ∧
      t.tx = s.tx) ∧
    (s.phase = .rPayload ∨ s.phase = .tPayload → ∃ t, s.seqStep = .moved t ∧
      t.status = .errIo ∧ t.outcome = .errIo ∧ t.phase = .unlock ∧
      t.rbuf.drop s.rlen.toNat = s.rbuf.drop s.rlen.toNat ∧ t.rbuf.length = s.rbuf.length ∧
      t.rx = s.rx.drop (min k s.rlen.toNat) ∧ t.tx = s.tx)

/-- Rule R156: a Channel call of a sequence that fails ends the sequence. The failing step makes that
one call and no other: of what it would write only a prefix of that phase's own bytes reaches TX, of
what it asked for only some bytes have left RX, and no further outcome of the Channel is used; it goes
to `UNLOCK` with `ERR_IO`, which it writes to `STATUS` (in OPEN the step at `UNLOCK` does, rule R126).
The step at `UNLOCK` makes no Channel call, frees the Channel lock and hands the error to the caller. -/
def Obligations.FailureAbortsTheSequence : Prop :=
  (∀ (s : State) (k : Nat) (ss : List SendOutcome), s.env.sends = .fail k :: ss →
    s.phase = .oEnable ∨ s.phase = .sStart ∨ s.phase = .sTxhdr ∨ s.phase = .sData ∨
      s.phase = .sStop ∨ s.phase = .rStart ∨ s.phase = .rRxhdr ∨ s.phase = .rStop ∨
      s.phase = .tStart1 ∨ s.phase = .tTxhdr ∨ s.phase = .tData ∨ s.phase = .tStart2 ∨
      s.phase = .tRxhdr ∨ s.phase = .tStop →
    s.seqStep = .moved { s with
      tx := s.tx ++ s.phaseBytes.take k, phase := .unlock, outcome := .errIo,
      status := if s.phase = .oEnable then s.status else .errIo,
      env := { s.env with sends := ss } }) ∧
  (∀ (s : State) (k : Nat) (rs : List RecvOutcome), s.env.recvs = .fail k :: rs →
    s.phase = .rTag ∨ s.phase = .rPayload ∨ s.phase = .tTag ∨ s.phase = .tPayload →
    ∃ t, s.seqStep = .moved t ∧ t.phase = .unlock ∧ t.status = .errIo ∧ t.outcome = .errIo ∧
      t.tx = s.tx ∧ t.rx = s.rx.drop (min k s.phaseAsks) ∧ t.env.recvs = rs ∧
      t.env.sends = s.env.sends) ∧
  (∀ s : State, s.phase = .unlock → s.outcome ≠ .ok → ∃ t, s.seqStep = .moved t ∧
    t.phase = .idle ∧ t.status = s.outcome ∧ t.chlock = .free ∧ t.tx = s.tx ∧ t.rx = s.rx ∧
    t.env = s.env ∧ t.ret = .status s.outcome ∧ t.retTo = s.opThread)

/-- Rules R158 and R189, whatever the environment chooses: an accepted SEND, READ or TRANSFER answers a
next state and has added a prefix of its sequence to TX; it returns `OK` only with the whole
sequence there. SEND touches neither RX nor `RBUF`; the others take bytes only from the front of
RX. -/
def Obligations.OperationsAddAPrefix : Prop :=
  ∀ (s : State) (a n : Nat) (w : List Byte), a < 128 → w.length ≤ 255 → n ≤ 255 →
    s.engExists = true → s.phase = .idle →
    (∃ t p, exec (.send a w) s = .next t ∧ t.tx = s.tx ++ p ∧ p <+: sendBytes s.cfg a w ∧
      (t.phase = .idle → t.status = .ok → p = sendBytes s.cfg a w) ∧ t.rx = s.rx ∧
      t.rbuf = s.rbuf) ∧
    (∃ t p, exec (.read a n) s = .next t ∧ t.tx = s.tx ++ p ∧ p <+: readBytes s.cfg a n ∧
      (t.phase = .idle → t.status = .ok → p = readBytes s.cfg a n) ∧ t.rx <:+ s.rx) ∧
    (∃ t p, exec (.transfer a w n) s = .next t ∧ t.tx = s.tx ++ p ∧
      p <+: transferBytes s.cfg a w n ∧
      (t.phase = .idle → t.status = .ok → p = transferBytes s.cfg a w n) ∧ t.rx <:+ s.rx)

/-- Rules R159 and R193: whatever the environment chooses, SEND, READ and TRANSFER leave `FREQ`, `EXISTS`,
`HAS_SCL`, `HAS_SDA`, every `PINLOCK`, the parameters and the pins a CLOSE has to release as they are: in
every state the call that is issued, as far as it goes; in every state each step of the sequencer at a
phase of one of them, or at `UNLOCK` with one of them in `OPSEL`, an error's end among them; and the
sequencer's whole turn with one of them in progress. -/
def Obligations.OperationsKeepTheEngine : Prop :=
  let keeps (s t : State) : Prop :=
    t.freq = s.freq ∧ t.engExists = s.engExists ∧ t.hasScl = s.hasScl ∧ t.hasSda = s.hasSda ∧
      t.pinlock = s.pinlock ∧ t.cfg = s.cfg ∧ t.port = s.port ∧ t.chUp = s.chUp ∧
      t.closing = s.closing ∧ t.calls = s.calls ∧ t.freqReq = s.freqReq
  let oneOfThem (o : Op) : Prop := o = .send ∨ o = .read ∨ o = .transfer
  (∀ (s t : State) (a n : Nat) (w : List Byte),
    exec (.send a w) s = .next t ∨ exec (.read a n) s = .next t ∨
      exec (.transfer a w n) s = .next t → keeps s t) ∧
  (∀ (s : State), ((∃ o, s.phase.operation = some o ∧ oneOfThem o) ∨
      (s.phase = .unlock ∧ oneOfThem s.opsel)) →
    keeps s s.seqStep.state ∧ s.seqStep.state.opsel = s.opsel ∧
      s.seqStep.state.waiting = s.waiting ∧ s.seqStep.state.parked = s.parked) ∧
  (∀ (s : State), s.Inv → oneOfThem s.opsel → keeps s s.runSequencer)

/-- Rules R77, R78 and R83: an address above 127 or a buffer above 255 bytes is refused in every state,
before anything is looked at. -/
def Obligations.OutOfContractIsRefused : Prop :=
  ∀ (s : State) (a n : Nat) (w : List Byte),
    (128 ≤ a → exec (.send a w) s = .refused .addressOutOfContract ∧
      exec (.read a n) s = .refused .addressOutOfContract ∧
      exec (.transfer a w n) s = .refused .addressOutOfContract) ∧
    (a < 128 → 255 < w.length → exec (.send a w) s = .refused .lengthOutOfContract ∧
      exec (.transfer a w n) s = .refused .lengthOutOfContract) ∧
    (a < 128 → 255 < n → exec (.read a n) s = .refused .lengthOutOfContract ∧
      exec (.transfer a w n) s = .refused .lengthOutOfContract)

/-- Rule R151: with no engine there is nothing to call. -/
def Obligations.OperationsNeedAnEngine : Prop :=
  ∀ (s : State) (a n : Nat) (w : List Byte), a < 128 → w.length ≤ 255 → n ≤ 255 →
    s.engExists = false →
    exec (.send a w) s = .refused .noEngine ∧ exec (.read a n) s = .refused .noEngine ∧
      exec (.transfer a w n) s = .refused .noEngine

/-- Rule R150 and decision D23, the spec's own choice: while the sequencer is busy a further request
to its engine waits, and nothing else changes; so does a bare DATA reply (log entry 4). -/
def Obligations.BusySequencerMakesCallersWait : Prop :=
  ∀ (s : State) (a n : Nat) (w : List Byte) (m : Byte), a < 128 → w.length ≤ 255 →
    n ≤ 255 → s.phase ≠ .idle →
    let waits (i : Instr) : Prop :=
      exec i s = .next { s with waiting := s.waiting ++ [⟨s.caller, i, none⟩] }
    (s.engExists = true → waits (.send a w) ∧ waits (.read a n) ∧ waits (.transfer a w n)) ∧
      waits (.data m)

/-! ### The sequencer and the agents -/

/-- Rule R17: `PHASE` moves only forward: a step leads to the next phase of the sequence, to `UNLOCK`,
or, from OPEN before the lock is held and from `UNLOCK`, to `IDLE`; or it does not move. -/
def Obligations.PhaseMovesForward : Prop :=
  ∀ s : State,
    (∀ t, s.seqStep = .moved t →
      (s.phase.rank < t.phase.rank ∧ (t.phase = s.phase.next s.cfg ∨ t.phase = .unlock)) ∨
      (t.phase = .idle ∧ (s.phase = .oAcqScl ∨ s.phase = .oAcqSda ∨ s.phase = .unlock))) ∧
    (∀ t, s.seqStep = .waits t → t.phase = s.phase)

/-- Rules R57 and R58: while an operation holds the Channel lock, TX is what it was when the lock was
taken followed by this operation's own bytes in order, whatever other agents do between its steps.
When the operation ends, its run on TX is a prefix of its sequence, the whole of it if it ends with
`OK`. -/
def Obligations.TxHoldsOneContiguousRun : Prop :=
  ∀ (s t : State) (base : List Byte), s.Inv → s.phase.locked = true → s.OnWire base →
    step s = .next t →
    (t.phase.locked = true ∧ t.OnWire base ∧ t.fullRun = s.fullRun) ∨
    (t.phase = .idle ∧ ∃ p, p <+: s.fullRun ∧ t.tx = base ++ p ∧
      (s.job = .operation → t.status = .ok → p = s.fullRun))

/-- Rules R55, R58, R155: the Channel lock keeps everybody but its holder from the Channel. While the
sequencer holds it, a step of any other agent leaves TX and the lock as they are, and takes nothing from
RX. While anybody holds it, the sequencer has no step at a phase that takes the lock. While another engine
holds it, every turn but that of an agent outside the block (a call, a retry, the sequencer's, the
closer's) leaves TX, RX and the lock as they are. -/
def Obligations.OthersCannotUseTheChannel : Prop :=
  (∀ (s t : State) (u : Turn) (rest : List Turn), s.chlock = .held .sequencer →
    s.env.turns = u :: rest → u ≠ .sequencer → step s = .next t →
    t.tx = s.tx ∧ t.chlock = s.chlock ∧ s.rx <+: t.rx) ∧
  (∀ (s : State) (o : ChOwner), s.chlock = .held o →
    s.phase = .oLock ∨ s.phase = .sLock ∨ s.phase = .rLock ∨ s.phase = .tLock →
    s.seqStep = .waits s) ∧
  (∀ (s t : State) (u : Turn) (rest : List Turn), s.Inv → s.chlock = .held .other →
    s.env.turns = u :: rest → (∀ m, u ≠ .env m) → step s = .next t →
    t.tx = s.tx ∧ t.chlock = s.chlock ∧ t.rx = s.rx)

/-- Rules R24 and R25: no step changes the parameters, the port or `CH_UP`, and TX only grows. -/
def Obligations.TxOnlyGrows : Prop :=
  ∀ s t : State, step s = .next t →
    t.cfg = s.cfg ∧ t.port = s.port ∧ t.chUp = s.chUp ∧ s.tx <+: t.tx

/-- The invariant is kept by every step, from every state that meets it. -/
def Obligations.EveryStepKeepsInv : Prop :=
  ∀ s t : State, s.Inv → step s = .next t → t.Inv

/-- The invariant holds at reset. Its clauses about the operand latches and the buffers rest on the
values of log entry 2. -/
def Obligations.ResetMeetsInv : Prop := State.reset.Inv

/-- Rule R29, for the locks, `EXISTS` and `PHASE` the spec's own decision D21: after Port construction
the Channel is up, the Channel lock and every pin lock are free, nothing is on TX, no engine exists, and the sequencer is idle. -/
def Obligations.ResetIsAFreshPort : Prop :=
  State.reset.chUp = true ∧ State.reset.chlock = .free ∧
  (∀ i, i < State.reset.cfg.nPins → State.reset.pinlock[i]? = some .free) ∧
  State.reset.tx = [] ∧ State.reset.engExists = false ∧ State.reset.hasScl = false ∧
  State.reset.hasSda = false ∧ State.reset.phase = .idle

/-- Rules R122 and R181: a port whose endpoint cannot be reached does not come into being; its
construction reports `ERR_CONNECT`. -/
def Obligations.UnreachableEndpoint : Prop :=
  ∀ (c : Config) (p : PortName),
    constructPort c p false = .error .errConnect ∧ constructPort c p true = .ok (State.fresh c p)

/-- A step runs the decoded instruction: where the turn of a thread comes that is inside no call, and its
next call decodes to `i`, the step is `exec i` for that thread with that call and that turn used up;
the calls of other threads before and behind it stay. A thread that is inside a call has no step (rules
R61, R150). The queue of calls and the turns are the model's choice (log entries 6 and 8). -/
def Obligations.StepRunsTheCall : Prop :=
  ∀ (s : State) (t : Nat) (ts : List Turn), s.env.turns = .call t :: ts →
    (∀ (before behind : List Call) (c : Call) (i : Instr) (more : List Byte), t ∉ s.inCall →
      s.calls = before ++ c :: behind → (∀ d ∈ before, d.thread ≠ t) → c.thread = t →
      i.wellFormed = true → decode s.cfg c.space c.bytes = .ok (i, more) →
      step s = exec i { s with
        calls := before ++ behind, caller := t, env := { s.env with turns := ts } }) ∧
    (t ∈ s.inCall → step s = .next { s with env := { s.env with turns := ts } })

/-- Rules R52, R128 and R203: a waiting thread that is not blocked makes its call again at its turn; the
sequencer goes on with its operation; and where a CLOSE was interrupted, the closer's turn frees the
engine's next pin, and with the last one CLOSE returns to its thread. The turns are the model's choice
(log entries 6, 12 and 13). -/
def Obligations.WaitersAreServed : Prop :=
  ∀ (s : State) (ts : List Turn),
    (∀ k w, s.env.turns = .retry k :: ts → s.waiting[k]? = some w →
      s.stillBlocked w.blockedOn = false →
      step s = exec w.instr { s with
        waiting := s.waiting.eraseIdx k, caller := w.thread, env := { s.env with turns := ts } }) ∧
    (s.env.turns = .sequencer :: ts →
      step s = .next (State.runSequencer { s with env := { s.env with turns := ts } })) ∧
    (∀ (k : Nat) (bs : List Nat), s.env.turns = .closer :: ts → s.env.bursts = k :: bs →
      (∀ (i j : Nat) (l : List Nat), s.closing = i :: j :: l → k = 1 →
        step s = .next { s.wake i with
          pinlock := s.pinlock.set i .free, closing := j :: l,
          env := { s.env with turns := ts, bursts := bs } }) ∧
      (∀ i, s.closing = [i] → 1 ≤ k →
        step s = .next { s.wake i with
          pinlock := s.pinlock.set i .free, closing := [], status := .ok, ret := .nothing,
          retTo := s.closeThread, env := { s.env with turns := ts, bursts := bs } }) ∧
      (∀ i j, s.closing = [i, j] → 2 ≤ k →
        step s = .next { (s.wake i).wake j with
          pinlock := (s.pinlock.set i .free).set j .free, closing := [], status := .ok,
          ret := .nothing, retTo := s.closeThread,
          env := { s.env with turns := ts, bursts := bs } }))

/-- Rules R10, R47 and R54, log entries 6 and 19: what the agents outside the block do. At its turn an
agent makes its move; each move does what it says where it is enabled, and nothing where it is not; a
thread that holds a pin fails, and poisons its lock, only while it is inside no call. They
change only RX, TX, the Channel lock and the pin locks (a release lets those blocked on the pin proceed),
and of these nothing that the engine or the sequencer holds. -/
def Obligations.OutsideAgentsKeepTheEngine : Prop :=
  ∀ (s : State) (m : EnvMove),
    (∀ ts, s.env.turns = .env m :: ts →
      step s = .next (applyEnv m { s with env := { s.env with turns := ts } })) ∧
    (∀ b, applyEnv (.coprocSends b) s = { s with rx := s.rx ++ b }) ∧
    (s.chlock = .free → applyEnv .otherLocks s = { s with chlock := .held .other }) ∧
    (s.chlock ≠ .free → applyEnv .otherLocks s = s) ∧
    (∀ b, s.chlock = .held .other →
      applyEnv (.otherWrites b) s = { s with tx := s.tx ++ b } ∧
      applyEnv .otherUnlocks s = { s with chlock := .free }) ∧
    (∀ b, s.chlock ≠ .held .other →
      applyEnv (.otherWrites b) s = s ∧ applyEnv .otherUnlocks s = s) ∧
    (∀ i, (s.pinlock[i]? = some .free →
        applyEnv (.otherAcquires i) s = { s with pinlock := s.pinlock.set i (.held .other) }) ∧
      (s.pinlock[i]? ≠ some .free → applyEnv (.otherAcquires i) s = s) ∧
      (s.pinlock[i]? = some (.held .other) →
        applyEnv (.otherReleases i) s = { s.wake i with pinlock := s.pinlock.set i .free }) ∧
      (s.pinlock[i]? ≠ some (.held .other) → applyEnv (.otherReleases i) s = s) ∧
      (s.pinlock[i]? = some (.held .other) ∨
          (∃ th, s.pinlock[i]? = some (.held (.host th)) ∧ th ∉ s.inCall) →
        applyEnv (.poison i) s = { s with pinlock := s.pinlock.set i .poisoned }) ∧
      (s.pinlock[i]? ≠ some (.held .other) →
          (∀ th, s.pinlock[i]? = some (.held (.host th)) → th ∈ s.inCall) →
        applyEnv (.poison i) s = s)) ∧
    applyEnv m s = { s with
      rx := (applyEnv m s).rx, tx := (applyEnv m s).tx, chlock := (applyEnv m s).chlock,
      pinlock := (applyEnv m s).pinlock, waiting := (applyEnv m s).waiting,
      parked := (applyEnv m s).parked } ∧
    (applyEnv m s).waiting.map (fun w => (w.thread, w.instr)) =
      s.waiting.map (fun w => (w.thread, w.instr)) ∧
    s.rx <+: (applyEnv m s).rx ∧
    (s.chlock = .held .sequencer →
      (applyEnv m s).chlock = .held .sequencer ∧ (applyEnv m s).tx = s.tx) ∧
    (∀ j : Nat, s.pinlock[j]? = some (PinLock.held .engine) →
      (applyEnv m s).pinlock[j]? = some (PinLock.held .engine))

/-- Rules R6 and R203: the two ports share nothing: a step of one leaves the other as it is. -/
def Obligations.PortsShareNothing : Prop :=
  ∀ (x y : Board) (p q : PortName), Board.step p x = .next y → q ≠ p →
    y.get q = x.get q ∧ step (x.get p) = .next (y.get p)
end

