-- ==== Sys2Proof/Laws/State.lean ====
section
/-! SUPPORT. One lemma per field per named update of State, each true by rfl, so that no proof
unfolds a record update. -/

namespace Sys2Proof.Machine.State

variable (s : State)

@[simp] theorem setEnv_cfg (e : Env) : (s.setEnv e).cfg = s.cfg := rfl
@[simp] theorem setEnv_port (e : Env) : (s.setEnv e).port = s.port := rfl
@[simp] theorem setEnv_chUp (e : Env) : (s.setEnv e).chUp = s.chUp := rfl
@[simp] theorem setEnv_tx (e : Env) : (s.setEnv e).tx = s.tx := rfl
@[simp] theorem setEnv_rx (e : Env) : (s.setEnv e).rx = s.rx := rfl
@[simp] theorem setEnv_chlock (e : Env) : (s.setEnv e).chlock = s.chlock := rfl
@[simp] theorem setEnv_pinlock (e : Env) : (s.setEnv e).pinlock = s.pinlock := rfl
@[simp] theorem setEnv_engExists (e : Env) : (s.setEnv e).engExists = s.engExists := rfl
@[simp] theorem setEnv_hasScl (e : Env) : (s.setEnv e).hasScl = s.hasScl := rfl
@[simp] theorem setEnv_hasSda (e : Env) : (s.setEnv e).hasSda = s.hasSda := rfl
@[simp] theorem setEnv_freq (e : Env) : (s.setEnv e).freq = s.freq := rfl
@[simp] theorem setEnv_opsel (e : Env) : (s.setEnv e).opsel = s.opsel := rfl
@[simp] theorem setEnv_addr (e : Env) : (s.setEnv e).addr = s.addr := rfl
@[simp] theorem setEnv_wlen (e : Env) : (s.setEnv e).wlen = s.wlen := rfl
@[simp] theorem setEnv_rlen (e : Env) : (s.setEnv e).rlen = s.rlen := rfl
@[simp] theorem setEnv_wbuf (e : Env) : (s.setEnv e).wbuf = s.wbuf := rfl
@[simp] theorem setEnv_freqReq (e : Env) : (s.setEnv e).freqReq = s.freqReq := rfl
@[simp] theorem setEnv_rbuf (e : Env) : (s.setEnv e).rbuf = s.rbuf := rfl
@[simp] theorem setEnv_phase (e : Env) : (s.setEnv e).phase = s.phase := rfl
@[simp] theorem setEnv_status (e : Env) : (s.setEnv e).status = s.status := rfl
@[simp] theorem setEnv_outcome (e : Env) : (s.setEnv e).outcome = s.outcome := rfl
@[simp] theorem setEnv_job (e : Env) : (s.setEnv e).job = s.job := rfl
@[simp] theorem setEnv_opThread (e : Env) : (s.setEnv e).opThread = s.opThread := rfl
@[simp] theorem setEnv_parked (e : Env) : (s.setEnv e).parked = s.parked := rfl
@[simp] theorem setEnv_closing (e : Env) : (s.setEnv e).closing = s.closing := rfl
@[simp] theorem setEnv_closeThread (e : Env) : (s.setEnv e).closeThread = s.closeThread := rfl
@[simp] theorem setEnv_calls (e : Env) : (s.setEnv e).calls = s.calls := rfl
@[simp] theorem setEnv_waiting (e : Env) : (s.setEnv e).waiting = s.waiting := rfl
@[simp] theorem setEnv_caller (e : Env) : (s.setEnv e).caller = s.caller := rfl
@[simp] theorem setEnv_ret (e : Env) : (s.setEnv e).ret = s.ret := rfl
@[simp] theorem setEnv_retTo (e : Env) : (s.setEnv e).retTo = s.retTo := rfl
@[simp] theorem setEnv_env (e : Env) : (s.setEnv e).env = e := rfl

@[simp] theorem setTx_cfg (b : List Byte) : (s.setTx b).cfg = s.cfg := rfl
@[simp] theorem setTx_port (b : List Byte) : (s.setTx b).port = s.port := rfl
@[simp] theorem setTx_chUp (b : List Byte) : (s.setTx b).chUp = s.chUp := rfl
@[simp] theorem setTx_tx (b : List Byte) : (s.setTx b).tx = b := rfl
@[simp] theorem setTx_rx (b : List Byte) : (s.setTx b).rx = s.rx := rfl
@[simp] theorem setTx_chlock (b : List Byte) : (s.setTx b).chlock = s.chlock := rfl
@[simp] theorem setTx_pinlock (b : List Byte) : (s.setTx b).pinlock = s.pinlock := rfl
@[simp] theorem setTx_engExists (b : List Byte) : (s.setTx b).engExists = s.engExists := rfl
@[simp] theorem setTx_hasScl (b : List Byte) : (s.setTx b).hasScl = s.hasScl := rfl
@[simp] theorem setTx_hasSda (b : List Byte) : (s.setTx b).hasSda = s.hasSda := rfl
@[simp] theorem setTx_freq (b : List Byte) : (s.setTx b).freq = s.freq := rfl
@[simp] theorem setTx_opsel (b : List Byte) : (s.setTx b).opsel = s.opsel := rfl
@[simp] theorem setTx_addr (b : List Byte) : (s.setTx b).addr = s.addr := rfl
@[simp] theorem setTx_wlen (b : List Byte) : (s.setTx b).wlen = s.wlen := rfl
@[simp] theorem setTx_rlen (b : List Byte) : (s.setTx b).rlen = s.rlen := rfl
@[simp] theorem setTx_wbuf (b : List Byte) : (s.setTx b).wbuf = s.wbuf := rfl
@[simp] theorem setTx_freqReq (b : List Byte) : (s.setTx b).freqReq = s.freqReq := rfl
@[simp] theorem setTx_rbuf (b : List Byte) : (s.setTx b).rbuf = s.rbuf := rfl
@[simp] theorem setTx_phase (b : List Byte) : (s.setTx b).phase = s.phase := rfl
@[simp] theorem setTx_status (b : List Byte) : (s.setTx b).status = s.status := rfl
@[simp] theorem setTx_outcome (b : List Byte) : (s.setTx b).outcome = s.outcome := rfl
@[simp] theorem setTx_job (b : List Byte) : (s.setTx b).job = s.job := rfl
@[simp] theorem setTx_opThread (b : List Byte) : (s.setTx b).opThread = s.opThread := rfl
@[simp] theorem setTx_parked (b : List Byte) : (s.setTx b).parked = s.parked := rfl
@[simp] theorem setTx_closing (b : List Byte) : (s.setTx b).closing = s.closing := rfl
@[simp] theorem setTx_closeThread (b : List Byte) : (s.setTx b).closeThread = s.closeThread := rfl
@[simp] theorem setTx_calls (b : List Byte) : (s.setTx b).calls = s.calls := rfl
@[simp] theorem setTx_waiting (b : List Byte) : (s.setTx b).waiting = s.waiting := rfl
@[simp] theorem setTx_caller (b : List Byte) : (s.setTx b).caller = s.caller := rfl
@[simp] theorem setTx_ret (b : List Byte) : (s.setTx b).ret = s.ret := rfl
@[simp] theorem setTx_retTo (b : List Byte) : (s.setTx b).retTo = s.retTo := rfl
@[simp] theorem setTx_env (b : List Byte) : (s.setTx b).env = s.env := rfl

@[simp] theorem setRx_cfg (b : List Byte) : (s.setRx b).cfg = s.cfg := rfl
@[simp] theorem setRx_port (b : List Byte) : (s.setRx b).port = s.port := rfl
@[simp] theorem setRx_chUp (b : List Byte) : (s.setRx b).chUp = s.chUp := rfl
@[simp] theorem setRx_tx (b : List Byte) : (s.setRx b).tx = s.tx := rfl
@[simp] theorem setRx_rx (b : List Byte) : (s.setRx b).rx = b := rfl
@[simp] theorem setRx_chlock (b : List Byte) : (s.setRx b).chlock = s.chlock := rfl
@[simp] theorem setRx_pinlock (b : List Byte) : (s.setRx b).pinlock = s.pinlock := rfl
@[simp] theorem setRx_engExists (b : List Byte) : (s.setRx b).engExists = s.engExists := rfl
@[simp] theorem setRx_hasScl (b : List Byte) : (s.setRx b).hasScl = s.hasScl := rfl
@[simp] theorem setRx_hasSda (b : List Byte) : (s.setRx b).hasSda = s.hasSda := rfl
@[simp] theorem setRx_freq (b : List Byte) : (s.setRx b).freq = s.freq := rfl
@[simp] theorem setRx_opsel (b : List Byte) : (s.setRx b).opsel = s.opsel := rfl
@[simp] theorem setRx_addr (b : List Byte) : (s.setRx b).addr = s.addr := rfl
@[simp] theorem setRx_wlen (b : List Byte) : (s.setRx b).wlen = s.wlen := rfl
@[simp] theorem setRx_rlen (b : List Byte) : (s.setRx b).rlen = s.rlen := rfl
@[simp] theorem setRx_wbuf (b : List Byte) : (s.setRx b).wbuf = s.wbuf := rfl
@[simp] theorem setRx_freqReq (b : List Byte) : (s.setRx b).freqReq = s.freqReq := rfl
@[simp] theorem setRx_rbuf (b : List Byte) : (s.setRx b).rbuf = s.rbuf := rfl
@[simp] theorem setRx_phase (b : List Byte) : (s.setRx b).phase = s.phase := rfl
@[simp] theorem setRx_status (b : List Byte) : (s.setRx b).status = s.status := rfl
@[simp] theorem setRx_outcome (b : List Byte) : (s.setRx b).outcome = s.outcome := rfl
@[simp] theorem setRx_job (b : List Byte) : (s.setRx b).job = s.job := rfl
@[simp] theorem setRx_opThread (b : List Byte) : (s.setRx b).opThread = s.opThread := rfl
@[simp] theorem setRx_parked (b : List Byte) : (s.setRx b).parked = s.parked := rfl
@[simp] theorem setRx_closing (b : List Byte) : (s.setRx b).closing = s.closing := rfl
@[simp] theorem setRx_closeThread (b : List Byte) : (s.setRx b).closeThread = s.closeThread := rfl
@[simp] theorem setRx_calls (b : List Byte) : (s.setRx b).calls = s.calls := rfl
@[simp] theorem setRx_waiting (b : List Byte) : (s.setRx b).waiting = s.waiting := rfl
@[simp] theorem setRx_caller (b : List Byte) : (s.setRx b).caller = s.caller := rfl
@[simp] theorem setRx_ret (b : List Byte) : (s.setRx b).ret = s.ret := rfl
@[simp] theorem setRx_retTo (b : List Byte) : (s.setRx b).retTo = s.retTo := rfl
@[simp] theorem setRx_env (b : List Byte) : (s.setRx b).env = s.env := rfl

@[simp] theorem setChlock_cfg (l : ChLock) : (s.setChlock l).cfg = s.cfg := rfl
@[simp] theorem setChlock_port (l : ChLock) : (s.setChlock l).port = s.port := rfl
@[simp] theorem setChlock_chUp (l : ChLock) : (s.setChlock l).chUp = s.chUp := rfl
@[simp] theorem setChlock_tx (l : ChLock) : (s.setChlock l).tx = s.tx := rfl
@[simp] theorem setChlock_rx (l : ChLock) : (s.setChlock l).rx = s.rx := rfl
@[simp] theorem setChlock_chlock (l : ChLock) : (s.setChlock l).chlock = l := rfl
@[simp] theorem setChlock_pinlock (l : ChLock) : (s.setChlock l).pinlock = s.pinlock := rfl
@[simp] theorem setChlock_engExists (l : ChLock) : (s.setChlock l).engExists = s.engExists := rfl
@[simp] theorem setChlock_hasScl (l : ChLock) : (s.setChlock l).hasScl = s.hasScl := rfl
@[simp] theorem setChlock_hasSda (l : ChLock) : (s.setChlock l).hasSda = s.hasSda := rfl
@[simp] theorem setChlock_freq (l : ChLock) : (s.setChlock l).freq = s.freq := rfl
@[simp] theorem setChlock_opsel (l : ChLock) : (s.setChlock l).opsel = s.opsel := rfl
@[simp] theorem setChlock_addr (l : ChLock) : (s.setChlock l).addr = s.addr := rfl
@[simp] theorem setChlock_wlen (l : ChLock) : (s.setChlock l).wlen = s.wlen := rfl
@[simp] theorem setChlock_rlen (l : ChLock) : (s.setChlock l).rlen = s.rlen := rfl
@[simp] theorem setChlock_wbuf (l : ChLock) : (s.setChlock l).wbuf = s.wbuf := rfl
@[simp] theorem setChlock_freqReq (l : ChLock) : (s.setChlock l).freqReq = s.freqReq := rfl
@[simp] theorem setChlock_rbuf (l : ChLock) : (s.setChlock l).rbuf = s.rbuf := rfl
@[simp] theorem setChlock_phase (l : ChLock) : (s.setChlock l).phase = s.phase := rfl
@[simp] theorem setChlock_status (l : ChLock) : (s.setChlock l).status = s.status := rfl
@[simp] theorem setChlock_outcome (l : ChLock) : (s.setChlock l).outcome = s.outcome := rfl
@[simp] theorem setChlock_job (l : ChLock) : (s.setChlock l).job = s.job := rfl
@[simp] theorem setChlock_opThread (l : ChLock) : (s.setChlock l).opThread = s.opThread := rfl
@[simp] theorem setChlock_parked (l : ChLock) : (s.setChlock l).parked = s.parked := rfl
@[simp] theorem setChlock_closing (l : ChLock) : (s.setChlock l).closing = s.closing := rfl
@[simp] theorem setChlock_closeThread (l : ChLock) : (s.setChlock l).closeThread = s.closeThread := rfl
@[simp] theorem setChlock_calls (l : ChLock) : (s.setChlock l).calls = s.calls := rfl
@[simp] theorem setChlock_waiting (l : ChLock) : (s.setChlock l).waiting = s.waiting := rfl
@[simp] theorem setChlock_caller (l : ChLock) : (s.setChlock l).caller = s.caller := rfl
@[simp] theorem setChlock_ret (l : ChLock) : (s.setChlock l).ret = s.ret := rfl
@[simp] theorem setChlock_retTo (l : ChLock) : (s.setChlock l).retTo = s.retTo := rfl
@[simp] theorem setChlock_env (l : ChLock) : (s.setChlock l).env = s.env := rfl

@[simp] theorem setPinlock_cfg (l : List PinLock) : (s.setPinlock l).cfg = s.cfg := rfl
@[simp] theorem setPinlock_port (l : List PinLock) : (s.setPinlock l).port = s.port := rfl
@[simp] theorem setPinlock_chUp (l : List PinLock) : (s.setPinlock l).chUp = s.chUp := rfl
@[simp] theorem setPinlock_tx (l : List PinLock) : (s.setPinlock l).tx = s.tx := rfl
@[simp] theorem setPinlock_rx (l : List PinLock) : (s.setPinlock l).rx = s.rx := rfl
@[simp] theorem setPinlock_chlock (l : List PinLock) : (s.setPinlock l).chlock = s.chlock := rfl
@[simp] theorem setPinlock_pinlock (l : List PinLock) : (s.setPinlock l).pinlock = l := rfl
@[simp] theorem setPinlock_engExists (l : List PinLock) : (s.setPinlock l).engExists = s.engExists := rfl
@[simp] theorem setPinlock_hasScl (l : List PinLock) : (s.setPinlock l).hasScl = s.hasScl := rfl
@[simp] theorem setPinlock_hasSda (l : List PinLock) : (s.setPinlock l).hasSda = s.hasSda := rfl
@[simp] theorem setPinlock_freq (l : List PinLock) : (s.setPinlock l).freq = s.freq := rfl
@[simp] theorem setPinlock_opsel (l : List PinLock) : (s.setPinlock l).opsel = s.opsel := rfl
@[simp] theorem setPinlock_addr (l : List PinLock) : (s.setPinlock l).addr = s.addr := rfl
@[simp] theorem setPinlock_wlen (l : List PinLock) : (s.setPinlock l).wlen = s.wlen := rfl
@[simp] theorem setPinlock_rlen (l : List PinLock) : (s.setPinlock l).rlen = s.rlen := rfl
@[simp] theorem setPinlock_wbuf (l : List PinLock) : (s.setPinlock l).wbuf = s.wbuf := rfl
@[simp] theorem setPinlock_freqReq (l : List PinLock) : (s.setPinlock l).freqReq = s.freqReq := rfl
@[simp] theorem setPinlock_rbuf (l : List PinLock) : (s.setPinlock l).rbuf = s.rbuf := rfl
@[simp] theorem setPinlock_phase (l : List PinLock) : (s.setPinlock l).phase = s.phase := rfl
@[simp] theorem setPinlock_status (l : List PinLock) : (s.setPinlock l).status = s.status := rfl
@[simp] theorem setPinlock_outcome (l : List PinLock) : (s.setPinlock l).outcome = s.outcome := rfl
@[simp] theorem setPinlock_job (l : List PinLock) : (s.setPinlock l).job = s.job := rfl
@[simp] theorem setPinlock_opThread (l : List PinLock) : (s.setPinlock l).opThread = s.opThread := rfl
@[simp] theorem setPinlock_parked (l : List PinLock) : (s.setPinlock l).parked = s.parked := rfl
@[simp] theorem setPinlock_closing (l : List PinLock) : (s.setPinlock l).closing = s.closing := rfl
@[simp] theorem setPinlock_closeThread (l : List PinLock) :
    (s.setPinlock l).closeThread = s.closeThread := rfl
@[simp] theorem setPinlock_calls (l : List PinLock) : (s.setPinlock l).calls = s.calls := rfl
@[simp] theorem setPinlock_waiting (l : List PinLock) : (s.setPinlock l).waiting = s.waiting := rfl
@[simp] theorem setPinlock_caller (l : List PinLock) : (s.setPinlock l).caller = s.caller := rfl
@[simp] theorem setPinlock_ret (l : List PinLock) : (s.setPinlock l).ret = s.ret := rfl
@[simp] theorem setPinlock_retTo (l : List PinLock) : (s.setPinlock l).retTo = s.retTo := rfl
@[simp] theorem setPinlock_env (l : List PinLock) : (s.setPinlock l).env = s.env := rfl

@[simp] theorem setExists_cfg (b : Bool) : (s.setExists b).cfg = s.cfg := rfl
@[simp] theorem setExists_port (b : Bool) : (s.setExists b).port = s.port := rfl
@[simp] theorem setExists_chUp (b : Bool) : (s.setExists b).chUp = s.chUp := rfl
@[simp] theorem setExists_tx (b : Bool) : (s.setExists b).tx = s.tx := rfl
@[simp] theorem setExists_rx (b : Bool) : (s.setExists b).rx = s.rx := rfl
@[simp] theorem setExists_chlock (b : Bool) : (s.setExists b).chlock = s.chlock := rfl
@[simp] theorem setExists_pinlock (b : Bool) : (s.setExists b).pinlock = s.pinlock := rfl
@[simp] theorem setExists_engExists (b : Bool) : (s.setExists b).engExists = b := rfl
@[simp] theorem setExists_hasScl (b : Bool) : (s.setExists b).hasScl = s.hasScl := rfl
@[simp] theorem setExists_hasSda (b : Bool) : (s.setExists b).hasSda = s.hasSda := rfl
@[simp] theorem setExists_freq (b : Bool) : (s.setExists b).freq = s.freq := rfl
@[simp] theorem setExists_opsel (b : Bool) : (s.setExists b).opsel = s.opsel := rfl
@[simp] theorem setExists_addr (b : Bool) : (s.setExists b).addr = s.addr := rfl
@[simp] theorem setExists_wlen (b : Bool) : (s.setExists b).wlen = s.wlen := rfl
@[simp] theorem setExists_rlen (b : Bool) : (s.setExists b).rlen = s.rlen := rfl
@[simp] theorem setExists_wbuf (b : Bool) : (s.setExists b).wbuf = s.wbuf := rfl
@[simp] theorem setExists_freqReq (b : Bool) : (s.setExists b).freqReq = s.freqReq := rfl
@[simp] theorem setExists_rbuf (b : Bool) : (s.setExists b).rbuf = s.rbuf := rfl
@[simp] theorem setExists_phase (b : Bool) : (s.setExists b).phase = s.phase := rfl
@[simp] theorem setExists_status (b : Bool) : (s.setExists b).status = s.status := rfl
@[simp] theorem setExists_outcome (b : Bool) : (s.setExists b).outcome = s.outcome := rfl
@[simp] theorem setExists_job (b : Bool) : (s.setExists b).job = s.job := rfl
@[simp] theorem setExists_opThread (b : Bool) : (s.setExists b).opThread = s.opThread := rfl
@[simp] theorem setExists_parked (b : Bool) : (s.setExists b).parked = s.parked := rfl
@[simp] theorem setExists_closing (b : Bool) : (s.setExists b).closing = s.closing := rfl
@[simp] theorem setExists_closeThread (b : Bool) : (s.setExists b).closeThread = s.closeThread := rfl
@[simp] theorem setExists_calls (b : Bool) : (s.setExists b).calls = s.calls := rfl
@[simp] theorem setExists_waiting (b : Bool) : (s.setExists b).waiting = s.waiting := rfl
@[simp] theorem setExists_caller (b : Bool) : (s.setExists b).caller = s.caller := rfl
@[simp] theorem setExists_ret (b : Bool) : (s.setExists b).ret = s.ret := rfl
@[simp] theorem setExists_retTo (b : Bool) : (s.setExists b).retTo = s.retTo := rfl
@[simp] theorem setExists_env (b : Bool) : (s.setExists b).env = s.env := rfl

@[simp] theorem setHasScl_cfg (b : Bool) : (s.setHasScl b).cfg = s.cfg := rfl
@[simp] theorem setHasScl_port (b : Bool) : (s.setHasScl b).port = s.port := rfl
@[simp] theorem setHasScl_chUp (b : Bool) : (s.setHasScl b).chUp = s.chUp := rfl
@[simp] theorem setHasScl_tx (b : Bool) : (s.setHasScl b).tx = s.tx := rfl
@[simp] theorem setHasScl_rx (b : Bool) : (s.setHasScl b).rx = s.rx := rfl
@[simp] theorem setHasScl_chlock (b : Bool) : (s.setHasScl b).chlock = s.chlock := rfl
@[simp] theorem setHasScl_pinlock (b : Bool) : (s.setHasScl b).pinlock = s.pinlock := rfl
@[simp] theorem setHasScl_engExists (b : Bool) : (s.setHasScl b).engExists = s.engExists := rfl
@[simp] theorem setHasScl_hasScl (b : Bool) : (s.setHasScl b).hasScl = b := rfl
@[simp] theorem setHasScl_hasSda (b : Bool) : (s.setHasScl b).hasSda = s.hasSda := rfl
@[simp] theorem setHasScl_freq (b : Bool) : (s.setHasScl b).freq = s.freq := rfl
@[simp] theorem setHasScl_opsel (b : Bool) : (s.setHasScl b).opsel = s.opsel := rfl
@[simp] theorem setHasScl_addr (b : Bool) : (s.setHasScl b).addr = s.addr := rfl
@[simp] theorem setHasScl_wlen (b : Bool) : (s.setHasScl b).wlen = s.wlen := rfl
@[simp] theorem setHasScl_rlen (b : Bool) : (s.setHasScl b).rlen = s.rlen := rfl
@[simp] theorem setHasScl_wbuf (b : Bool) : (s.setHasScl b).wbuf = s.wbuf := rfl
@[simp] theorem setHasScl_freqReq (b : Bool) : (s.setHasScl b).freqReq = s.freqReq := rfl
@[simp] theorem setHasScl_rbuf (b : Bool) : (s.setHasScl b).rbuf = s.rbuf := rfl
@[simp] theorem setHasScl_phase (b : Bool) : (s.setHasScl b).phase = s.phase := rfl
@[simp] theorem setHasScl_status (b : Bool) : (s.setHasScl b).status = s.status := rfl
@[simp] theorem setHasScl_outcome (b : Bool) : (s.setHasScl b).outcome = s.outcome := rfl
@[simp] theorem setHasScl_job (b : Bool) : (s.setHasScl b).job = s.job := rfl
@[simp] theorem setHasScl_opThread (b : Bool) : (s.setHasScl b).opThread = s.opThread := rfl
@[simp] theorem setHasScl_parked (b : Bool) : (s.setHasScl b).parked = s.parked := rfl
@[simp] theorem setHasScl_closing (b : Bool) : (s.setHasScl b).closing = s.closing := rfl
@[simp] theorem setHasScl_closeThread (b : Bool) : (s.setHasScl b).closeThread = s.closeThread := rfl
@[simp] theorem setHasScl_calls (b : Bool) : (s.setHasScl b).calls = s.calls := rfl
@[simp] theorem setHasScl_waiting (b : Bool) : (s.setHasScl b).waiting = s.waiting := rfl
@[simp] theorem setHasScl_caller (b : Bool) : (s.setHasScl b).caller = s.caller := rfl
@[simp] theorem setHasScl_ret (b : Bool) : (s.setHasScl b).ret = s.ret := rfl
@[simp] theorem setHasScl_retTo (b : Bool) : (s.setHasScl b).retTo = s.retTo := rfl
@[simp] theorem setHasScl_env (b : Bool) : (s.setHasScl b).env = s.env := rfl

@[simp] theorem setHasSda_cfg (b : Bool) : (s.setHasSda b).cfg = s.cfg := rfl
@[simp] theorem setHasSda_port (b : Bool) : (s.setHasSda b).port = s.port := rfl
@[simp] theorem setHasSda_chUp (b : Bool) : (s.setHasSda b).chUp = s.chUp := rfl
@[simp] theorem setHasSda_tx (b : Bool) : (s.setHasSda b).tx = s.tx := rfl
@[simp] theorem setHasSda_rx (b : Bool) : (s.setHasSda b).rx = s.rx := rfl
@[simp] theorem setHasSda_chlock (b : Bool) : (s.setHasSda b).chlock = s.chlock := rfl
@[simp] theorem setHasSda_pinlock (b : Bool) : (s.setHasSda b).pinlock = s.pinlock := rfl
@[simp] theorem setHasSda_engExists (b : Bool) : (s.setHasSda b).engExists = s.engExists := rfl
@[simp] theorem setHasSda_hasScl (b : Bool) : (s.setHasSda b).hasScl = s.hasScl := rfl
@[simp] theorem setHasSda_hasSda (b : Bool) : (s.setHasSda b).hasSda = b := rfl
@[simp] theorem setHasSda_freq (b : Bool) : (s.setHasSda b).freq = s.freq := rfl
@[simp] theorem setHasSda_opsel (b : Bool) : (s.setHasSda b).opsel = s.opsel := rfl
@[simp] theorem setHasSda_addr (b : Bool) : (s.setHasSda b).addr = s.addr := rfl
@[simp] theorem setHasSda_wlen (b : Bool) : (s.setHasSda b).wlen = s.wlen := rfl
@[simp] theorem setHasSda_rlen (b : Bool) : (s.setHasSda b).rlen = s.rlen := rfl
@[simp] theorem setHasSda_wbuf (b : Bool) : (s.setHasSda b).wbuf = s.wbuf := rfl
@[simp] theorem setHasSda_freqReq (b : Bool) : (s.setHasSda b).freqReq = s.freqReq := rfl
@[simp] theorem setHasSda_rbuf (b : Bool) : (s.setHasSda b).rbuf = s.rbuf := rfl
@[simp] theorem setHasSda_phase (b : Bool) : (s.setHasSda b).phase = s.phase := rfl
@[simp] theorem setHasSda_status (b : Bool) : (s.setHasSda b).status = s.status := rfl
@[simp] theorem setHasSda_outcome (b : Bool) : (s.setHasSda b).outcome = s.outcome := rfl
@[simp] theorem setHasSda_job (b : Bool) : (s.setHasSda b).job = s.job := rfl
@[simp] theorem setHasSda_opThread (b : Bool) : (s.setHasSda b).opThread = s.opThread := rfl
@[simp] theorem setHasSda_parked (b : Bool) : (s.setHasSda b).parked = s.parked := rfl
@[simp] theorem setHasSda_closing (b : Bool) : (s.setHasSda b).closing = s.closing := rfl
@[simp] theorem setHasSda_closeThread (b : Bool) : (s.setHasSda b).closeThread = s.closeThread := rfl
@[simp] theorem setHasSda_calls (b : Bool) : (s.setHasSda b).calls = s.calls := rfl
@[simp] theorem setHasSda_waiting (b : Bool) : (s.setHasSda b).waiting = s.waiting := rfl
@[simp] theorem setHasSda_caller (b : Bool) : (s.setHasSda b).caller = s.caller := rfl
@[simp] theorem setHasSda_ret (b : Bool) : (s.setHasSda b).ret = s.ret := rfl
@[simp] theorem setHasSda_retTo (b : Bool) : (s.setHasSda b).retTo = s.retTo := rfl
@[simp] theorem setHasSda_env (b : Bool) : (s.setHasSda b).env = s.env := rfl

@[simp] theorem setFreq_cfg (f : Freq) : (s.setFreq f).cfg = s.cfg := rfl
@[simp] theorem setFreq_port (f : Freq) : (s.setFreq f).port = s.port := rfl
@[simp] theorem setFreq_chUp (f : Freq) : (s.setFreq f).chUp = s.chUp := rfl
@[simp] theorem setFreq_tx (f : Freq) : (s.setFreq f).tx = s.tx := rfl
@[simp] theorem setFreq_rx (f : Freq) : (s.setFreq f).rx = s.rx := rfl
@[simp] theorem setFreq_chlock (f : Freq) : (s.setFreq f).chlock = s.chlock := rfl
@[simp] theorem setFreq_pinlock (f : Freq) : (s.setFreq f).pinlock = s.pinlock := rfl
@[simp] theorem setFreq_engExists (f : Freq) : (s.setFreq f).engExists = s.engExists := rfl
@[simp] theorem setFreq_hasScl (f : Freq) : (s.setFreq f).hasScl = s.hasScl := rfl
@[simp] theorem setFreq_hasSda (f : Freq) : (s.setFreq f).hasSda = s.hasSda := rfl
@[simp] theorem setFreq_freq (f : Freq) : (s.setFreq f).freq = f := rfl
@[simp] theorem setFreq_opsel (f : Freq) : (s.setFreq f).opsel = s.opsel := rfl
@[simp] theorem setFreq_addr (f : Freq) : (s.setFreq f).addr = s.addr := rfl
@[simp] theorem setFreq_wlen (f : Freq) : (s.setFreq f).wlen = s.wlen := rfl
@[simp] theorem setFreq_rlen (f : Freq) : (s.setFreq f).rlen = s.rlen := rfl
@[simp] theorem setFreq_wbuf (f : Freq) : (s.setFreq f).wbuf = s.wbuf := rfl
@[simp] theorem setFreq_freqReq (f : Freq) : (s.setFreq f).freqReq = s.freqReq := rfl
@[simp] theorem setFreq_rbuf (f : Freq) : (s.setFreq f).rbuf = s.rbuf := rfl
@[simp] theorem setFreq_phase (f : Freq) : (s.setFreq f).phase = s.phase := rfl
@[simp] theorem setFreq_status (f : Freq) : (s.setFreq f).status = s.status := rfl
@[simp] theorem setFreq_outcome (f : Freq) : (s.setFreq f).outcome = s.outcome := rfl
@[simp] theorem setFreq_job (f : Freq) : (s.setFreq f).job = s.job := rfl
@[simp] theorem setFreq_opThread (f : Freq) : (s.setFreq f).opThread = s.opThread := rfl
@[simp] theorem setFreq_parked (f : Freq) : (s.setFreq f).parked = s.parked := rfl
@[simp] theorem setFreq_closing (f : Freq) : (s.setFreq f).closing = s.closing := rfl
@[simp] theorem setFreq_closeThread (f : Freq) : (s.setFreq f).closeThread = s.closeThread := rfl
@[simp] theorem setFreq_calls (f : Freq) : (s.setFreq f).calls = s.calls := rfl
@[simp] theorem setFreq_waiting (f : Freq) : (s.setFreq f).waiting = s.waiting := rfl
@[simp] theorem setFreq_caller (f : Freq) : (s.setFreq f).caller = s.caller := rfl
@[simp] theorem setFreq_ret (f : Freq) : (s.setFreq f).ret = s.ret := rfl
@[simp] theorem setFreq_retTo (f : Freq) : (s.setFreq f).retTo = s.retTo := rfl
@[simp] theorem setFreq_env (f : Freq) : (s.setFreq f).env = s.env := rfl

@[simp] theorem setRbuf_cfg (b : List Byte) : (s.setRbuf b).cfg = s.cfg := rfl
@[simp] theorem setRbuf_port (b : List Byte) : (s.setRbuf b).port = s.port := rfl
@[simp] theorem setRbuf_chUp (b : List Byte) : (s.setRbuf b).chUp = s.chUp := rfl
@[simp] theorem setRbuf_tx (b : List Byte) : (s.setRbuf b).tx = s.tx := rfl
@[simp] theorem setRbuf_rx (b : List Byte) : (s.setRbuf b).rx = s.rx := rfl
@[simp] theorem setRbuf_chlock (b : List Byte) : (s.setRbuf b).chlock = s.chlock := rfl
@[simp] theorem setRbuf_pinlock (b : List Byte) : (s.setRbuf b).pinlock = s.pinlock := rfl
@[simp] theorem setRbuf_engExists (b : List Byte) : (s.setRbuf b).engExists = s.engExists := rfl
@[simp] theorem setRbuf_hasScl (b : List Byte) : (s.setRbuf b).hasScl = s.hasScl := rfl
@[simp] theorem setRbuf_hasSda (b : List Byte) : (s.setRbuf b).hasSda = s.hasSda := rfl
@[simp] theorem setRbuf_freq (b : List Byte) : (s.setRbuf b).freq = s.freq := rfl
@[simp] theorem setRbuf_opsel (b : List Byte) : (s.setRbuf b).opsel = s.opsel := rfl
@[simp] theorem setRbuf_addr (b : List Byte) : (s.setRbuf b).addr = s.addr := rfl
@[simp] theorem setRbuf_wlen (b : List Byte) : (s.setRbuf b).wlen = s.wlen := rfl
@[simp] theorem setRbuf_rlen (b : List Byte) : (s.setRbuf b).rlen = s.rlen := rfl
@[simp] theorem setRbuf_wbuf (b : List Byte) : (s.setRbuf b).wbuf = s.wbuf := rfl
@[simp] theorem setRbuf_freqReq (b : List Byte) : (s.setRbuf b).freqReq = s.freqReq := rfl
@[simp] theorem setRbuf_rbuf (b : List Byte) : (s.setRbuf b).rbuf = b := rfl
@[simp] theorem setRbuf_phase (b : List Byte) : (s.setRbuf b).phase = s.phase := rfl
@[simp] theorem setRbuf_status (b : List Byte) : (s.setRbuf b).status = s.status := rfl
@[simp] theorem setRbuf_outcome (b : List Byte) : (s.setRbuf b).outcome = s.outcome := rfl
@[simp] theorem setRbuf_job (b : List Byte) : (s.setRbuf b).job = s.job := rfl
@[simp] theorem setRbuf_opThread (b : List Byte) : (s.setRbuf b).opThread = s.opThread := rfl
@[simp] theorem setRbuf_parked (b : List Byte) : (s.setRbuf b).parked = s.parked := rfl
@[simp] theorem setRbuf_closing (b : List Byte) : (s.setRbuf b).closing = s.closing := rfl
@[simp] theorem setRbuf_closeThread (b : List Byte) : (s.setRbuf b).closeThread = s.closeThread := rfl
@[simp] theorem setRbuf_calls (b : List Byte) : (s.setRbuf b).calls = s.calls := rfl
@[simp] theorem setRbuf_waiting (b : List Byte) : (s.setRbuf b).waiting = s.waiting := rfl
@[simp] theorem setRbuf_caller (b : List Byte) : (s.setRbuf b).caller = s.caller := rfl
@[simp] theorem setRbuf_ret (b : List Byte) : (s.setRbuf b).ret = s.ret := rfl
@[simp] theorem setRbuf_retTo (b : List Byte) : (s.setRbuf b).retTo = s.retTo := rfl
@[simp] theorem setRbuf_env (b : List Byte) : (s.setRbuf b).env = s.env := rfl

@[simp] theorem setPhase_cfg (p : Phase) : (s.setPhase p).cfg = s.cfg := rfl
@[simp] theorem setPhase_port (p : Phase) : (s.setPhase p).port = s.port := rfl
@[simp] theorem setPhase_chUp (p : Phase) : (s.setPhase p).chUp = s.chUp := rfl
@[simp] theorem setPhase_tx (p : Phase) : (s.setPhase p).tx = s.tx := rfl
@[simp] theorem setPhase_rx (p : Phase) : (s.setPhase p).rx = s.rx := rfl
@[simp] theorem setPhase_chlock (p : Phase) : (s.setPhase p).chlock = s.chlock := rfl
@[simp] theorem setPhase_pinlock (p : Phase) : (s.setPhase p).pinlock = s.pinlock := rfl
@[simp] theorem setPhase_engExists (p : Phase) : (s.setPhase p).engExists = s.engExists := rfl
@[simp] theorem setPhase_hasScl (p : Phase) : (s.setPhase p).hasScl = s.hasScl := rfl
@[simp] theorem setPhase_hasSda (p : Phase) : (s.setPhase p).hasSda = s.hasSda := rfl
@[simp] theorem setPhase_freq (p : Phase) : (s.setPhase p).freq = s.freq := rfl
@[simp] theorem setPhase_opsel (p : Phase) : (s.setPhase p).opsel = s.opsel := rfl
@[simp] theorem setPhase_addr (p : Phase) : (s.setPhase p).addr = s.addr := rfl
@[simp] theorem setPhase_wlen (p : Phase) : (s.setPhase p).wlen = s.wlen := rfl
@[simp] theorem setPhase_rlen (p : Phase) : (s.setPhase p).rlen = s.rlen := rfl
@[simp] theorem setPhase_wbuf (p : Phase) : (s.setPhase p).wbuf = s.wbuf := rfl
@[simp] theorem setPhase_freqReq (p : Phase) : (s.setPhase p).freqReq = s.freqReq := rfl
@[simp] theorem setPhase_rbuf (p : Phase) : (s.setPhase p).rbuf = s.rbuf := rfl
@[simp] theorem setPhase_phase (p : Phase) : (s.setPhase p).phase = p := rfl
@[simp] theorem setPhase_status (p : Phase) : (s.setPhase p).status = s.status := rfl
@[simp] theorem setPhase_outcome (p : Phase) : (s.setPhase p).outcome = s.outcome := rfl
@[simp] theorem setPhase_job (p : Phase) : (s.setPhase p).job = s.job := rfl
@[simp] theorem setPhase_opThread (p : Phase) : (s.setPhase p).opThread = s.opThread := rfl
@[simp] theorem setPhase_parked (p : Phase) : (s.setPhase p).parked = s.parked := rfl
@[simp] theorem setPhase_closing (p : Phase) : (s.setPhase p).closing = s.closing := rfl
@[simp] theorem setPhase_closeThread (p : Phase) : (s.setPhase p).closeThread = s.closeThread := rfl
@[simp] theorem setPhase_calls (p : Phase) : (s.setPhase p).calls = s.calls := rfl
@[simp] theorem setPhase_waiting (p : Phase) : (s.setPhase p).waiting = s.waiting := rfl
@[simp] theorem setPhase_caller (p : Phase) : (s.setPhase p).caller = s.caller := rfl
@[simp] theorem setPhase_ret (p : Phase) : (s.setPhase p).ret = s.ret := rfl
@[simp] theorem setPhase_retTo (p : Phase) : (s.setPhase p).retTo = s.retTo := rfl
@[simp] theorem setPhase_env (p : Phase) : (s.setPhase p).env = s.env := rfl

@[simp] theorem setStatus_cfg (st : Status) : (s.setStatus st).cfg = s.cfg := rfl
@[simp] theorem setStatus_port (st : Status) : (s.setStatus st).port = s.port := rfl
@[simp] theorem setStatus_chUp (st : Status) : (s.setStatus st).chUp = s.chUp := rfl
@[simp] theorem setStatus_tx (st : Status) : (s.setStatus st).tx = s.tx := rfl
@[simp] theorem setStatus_rx (st : Status) : (s.setStatus st).rx = s.rx := rfl
@[simp] theorem setStatus_chlock (st : Status) : (s.setStatus st).chlock = s.chlock := rfl
@[simp] theorem setStatus_pinlock (st : Status) : (s.setStatus st).pinlock = s.pinlock := rfl
@[simp] theorem setStatus_engExists (st : Status) : (s.setStatus st).engExists = s.engExists := rfl
@[simp] theorem setStatus_hasScl (st : Status) : (s.setStatus st).hasScl = s.hasScl := rfl
@[simp] theorem setStatus_hasSda (st : Status) : (s.setStatus st).hasSda = s.hasSda := rfl
@[simp] theorem setStatus_freq (st : Status) : (s.setStatus st).freq = s.freq := rfl
@[simp] theorem setStatus_opsel (st : Status) : (s.setStatus st).opsel = s.opsel := rfl
@[simp] theorem setStatus_addr (st : Status) : (s.setStatus st).addr = s.addr := rfl
@[simp] theorem setStatus_wlen (st : Status) : (s.setStatus st).wlen = s.wlen := rfl
@[simp] theorem setStatus_rlen (st : Status) : (s.setStatus st).rlen = s.rlen := rfl
@[simp] theorem setStatus_wbuf (st : Status) : (s.setStatus st).wbuf = s.wbuf := rfl
@[simp] theorem setStatus_freqReq (st : Status) : (s.setStatus st).freqReq = s.freqReq := rfl
@[simp] theorem setStatus_rbuf (st : Status) : (s.setStatus st).rbuf = s.rbuf := rfl
@[simp] theorem setStatus_phase (st : Status) : (s.setStatus st).phase = s.phase := rfl
@[simp] theorem setStatus_status (st : Status) : (s.setStatus st).status = st := rfl
@[simp] theorem setStatus_outcome (st : Status) : (s.setStatus st).outcome = s.outcome := rfl
@[simp] theorem setStatus_job (st : Status) : (s.setStatus st).job = s.job := rfl
@[simp] theorem setStatus_opThread (st : Status) : (s.setStatus st).opThread = s.opThread := rfl
@[simp] theorem setStatus_parked (st : Status) : (s.setStatus st).parked = s.parked := rfl
@[simp] theorem setStatus_closing (st : Status) : (s.setStatus st).closing = s.closing := rfl
@[simp] theorem setStatus_closeThread (st : Status) : (s.setStatus st).closeThread = s.closeThread := rfl
@[simp] theorem setStatus_calls (st : Status) : (s.setStatus st).calls = s.calls := rfl
@[simp] theorem setStatus_waiting (st : Status) : (s.setStatus st).waiting = s.waiting := rfl
@[simp] theorem setStatus_caller (st : Status) : (s.setStatus st).caller = s.caller := rfl
@[simp] theorem setStatus_ret (st : Status) : (s.setStatus st).ret = s.ret := rfl
@[simp] theorem setStatus_retTo (st : Status) : (s.setStatus st).retTo = s.retTo := rfl
@[simp] theorem setStatus_env (st : Status) : (s.setStatus st).env = s.env := rfl

@[simp] theorem setOutcome_cfg (st : Status) : (s.setOutcome st).cfg = s.cfg := rfl
@[simp] theorem setOutcome_port (st : Status) : (s.setOutcome st).port = s.port := rfl
@[simp] theorem setOutcome_chUp (st : Status) : (s.setOutcome st).chUp = s.chUp := rfl
@[simp] theorem setOutcome_tx (st : Status) : (s.setOutcome st).tx = s.tx := rfl
@[simp] theorem setOutcome_rx (st : Status) : (s.setOutcome st).rx = s.rx := rfl
@[simp] theorem setOutcome_chlock (st : Status) : (s.setOutcome st).chlock = s.chlock := rfl
@[simp] theorem setOutcome_pinlock (st : Status) : (s.setOutcome st).pinlock = s.pinlock := rfl
@[simp] theorem setOutcome_engExists (st : Status) : (s.setOutcome st).engExists = s.engExists := rfl
@[simp] theorem setOutcome_hasScl (st : Status) : (s.setOutcome st).hasScl = s.hasScl := rfl
@[simp] theorem setOutcome_hasSda (st : Status) : (s.setOutcome st).hasSda = s.hasSda := rfl
@[simp] theorem setOutcome_freq (st : Status) : (s.setOutcome st).freq = s.freq := rfl
@[simp] theorem setOutcome_opsel (st : Status) : (s.setOutcome st).opsel = s.opsel := rfl
@[simp] theorem setOutcome_addr (st : Status) : (s.setOutcome st).addr = s.addr := rfl
@[simp] theorem setOutcome_wlen (st : Status) : (s.setOutcome st).wlen = s.wlen := rfl
@[simp] theorem setOutcome_rlen (st : Status) : (s.setOutcome st).rlen = s.rlen := rfl
@[simp] theorem setOutcome_wbuf (st : Status) : (s.setOutcome st).wbuf = s.wbuf := rfl
@[simp] theorem setOutcome_freqReq (st : Status) : (s.setOutcome st).freqReq = s.freqReq := rfl
@[simp] theorem setOutcome_rbuf (st : Status) : (s.setOutcome st).rbuf = s.rbuf := rfl
@[simp] theorem setOutcome_phase (st : Status) : (s.setOutcome st).phase = s.phase := rfl
@[simp] theorem setOutcome_status (st : Status) : (s.setOutcome st).status = s.status := rfl
@[simp] theorem setOutcome_outcome (st : Status) : (s.setOutcome st).outcome = st := rfl
@[simp] theorem setOutcome_job (st : Status) : (s.setOutcome st).job = s.job := rfl
@[simp] theorem setOutcome_opThread (st : Status) : (s.setOutcome st).opThread = s.opThread := rfl
@[simp] theorem setOutcome_parked (st : Status) : (s.setOutcome st).parked = s.parked := rfl
@[simp] theorem setOutcome_closing (st : Status) : (s.setOutcome st).closing = s.closing := rfl
@[simp] theorem setOutcome_closeThread (st : Status) : (s.setOutcome st).closeThread = s.closeThread := rfl
@[simp] theorem setOutcome_calls (st : Status) : (s.setOutcome st).calls = s.calls := rfl
@[simp] theorem setOutcome_waiting (st : Status) : (s.setOutcome st).waiting = s.waiting := rfl
@[simp] theorem setOutcome_caller (st : Status) : (s.setOutcome st).caller = s.caller := rfl
@[simp] theorem setOutcome_ret (st : Status) : (s.setOutcome st).ret = s.ret := rfl
@[simp] theorem setOutcome_retTo (st : Status) : (s.setOutcome st).retTo = s.retTo := rfl
@[simp] theorem setOutcome_env (st : Status) : (s.setOutcome st).env = s.env := rfl

@[simp] theorem setClosing_cfg (l : List Nat) : (s.setClosing l).cfg = s.cfg := rfl
@[simp] theorem setClosing_port (l : List Nat) : (s.setClosing l).port = s.port := rfl
@[simp] theorem setClosing_chUp (l : List Nat) : (s.setClosing l).chUp = s.chUp := rfl
@[simp] theorem setClosing_tx (l : List Nat) : (s.setClosing l).tx = s.tx := rfl
@[simp] theorem setClosing_rx (l : List Nat) : (s.setClosing l).rx = s.rx := rfl
@[simp] theorem setClosing_chlock (l : List Nat) : (s.setClosing l).chlock = s.chlock := rfl
@[simp] theorem setClosing_pinlock (l : List Nat) : (s.setClosing l).pinlock = s.pinlock := rfl
@[simp] theorem setClosing_engExists (l : List Nat) : (s.setClosing l).engExists = s.engExists := rfl
@[simp] theorem setClosing_hasScl (l : List Nat) : (s.setClosing l).hasScl = s.hasScl := rfl
@[simp] theorem setClosing_hasSda (l : List Nat) : (s.setClosing l).hasSda = s.hasSda := rfl
@[simp] theorem setClosing_freq (l : List Nat) : (s.setClosing l).freq = s.freq := rfl
@[simp] theorem setClosing_opsel (l : List Nat) : (s.setClosing l).opsel = s.opsel := rfl
@[simp] theorem setClosing_addr (l : List Nat) : (s.setClosing l).addr = s.addr := rfl
@[simp] theorem setClosing_wlen (l : List Nat) : (s.setClosing l).wlen = s.wlen := rfl
@[simp] theorem setClosing_rlen (l : List Nat) : (s.setClosing l).rlen = s.rlen := rfl
@[simp] theorem setClosing_wbuf (l : List Nat) : (s.setClosing l).wbuf = s.wbuf := rfl
@[simp] theorem setClosing_freqReq (l : List Nat) : (s.setClosing l).freqReq = s.freqReq := rfl
@[simp] theorem setClosing_rbuf (l : List Nat) : (s.setClosing l).rbuf = s.rbuf := rfl
@[simp] theorem setClosing_phase (l : List Nat) : (s.setClosing l).phase = s.phase := rfl
@[simp] theorem setClosing_status (l : List Nat) : (s.setClosing l).status = s.status := rfl
@[simp] theorem setClosing_outcome (l : List Nat) : (s.setClosing l).outcome = s.outcome := rfl
@[simp] theorem setClosing_job (l : List Nat) : (s.setClosing l).job = s.job := rfl
@[simp] theorem setClosing_opThread (l : List Nat) : (s.setClosing l).opThread = s.opThread := rfl
@[simp] theorem setClosing_parked (l : List Nat) : (s.setClosing l).parked = s.parked := rfl
@[simp] theorem setClosing_closing (l : List Nat) : (s.setClosing l).closing = l := rfl
@[simp] theorem setClosing_closeThread (l : List Nat) : (s.setClosing l).closeThread = s.closeThread := rfl
@[simp] theorem setClosing_calls (l : List Nat) : (s.setClosing l).calls = s.calls := rfl
@[simp] theorem setClosing_waiting (l : List Nat) : (s.setClosing l).waiting = s.waiting := rfl
@[simp] theorem setClosing_caller (l : List Nat) : (s.setClosing l).caller = s.caller := rfl
@[simp] theorem setClosing_ret (l : List Nat) : (s.setClosing l).ret = s.ret := rfl
@[simp] theorem setClosing_retTo (l : List Nat) : (s.setClosing l).retTo = s.retTo := rfl
@[simp] theorem setClosing_env (l : List Nat) : (s.setClosing l).env = s.env := rfl

@[simp] theorem setCalls_cfg (l : List Call) : (s.setCalls l).cfg = s.cfg := rfl
@[simp] theorem setCalls_port (l : List Call) : (s.setCalls l).port = s.port := rfl
@[simp] theorem setCalls_chUp (l : List Call) : (s.setCalls l).chUp = s.chUp := rfl
@[simp] theorem setCalls_tx (l : List Call) : (s.setCalls l).tx = s.tx := rfl
@[simp] theorem setCalls_rx (l : List Call) : (s.setCalls l).rx = s.rx := rfl
@[simp] theorem setCalls_chlock (l : List Call) : (s.setCalls l).chlock = s.chlock := rfl
@[simp] theorem setCalls_pinlock (l : List Call) : (s.setCalls l).pinlock = s.pinlock := rfl
@[simp] theorem setCalls_engExists (l : List Call) : (s.setCalls l).engExists = s.engExists := rfl
@[simp] theorem setCalls_hasScl (l : List Call) : (s.setCalls l).hasScl = s.hasScl := rfl
@[simp] theorem setCalls_hasSda (l : List Call) : (s.setCalls l).hasSda = s.hasSda := rfl
@[simp] theorem setCalls_freq (l : List Call) : (s.setCalls l).freq = s.freq := rfl
@[simp] theorem setCalls_opsel (l : List Call) : (s.setCalls l).opsel = s.opsel := rfl
@[simp] theorem setCalls_addr (l : List Call) : (s.setCalls l).addr = s.addr := rfl
@[simp] theorem setCalls_wlen (l : List Call) : (s.setCalls l).wlen = s.wlen := rfl
@[simp] theorem setCalls_rlen (l : List Call) : (s.setCalls l).rlen = s.rlen := rfl
@[simp] theorem setCalls_wbuf (l : List Call) : (s.setCalls l).wbuf = s.wbuf := rfl
@[simp] theorem setCalls_freqReq (l : List Call) : (s.setCalls l).freqReq = s.freqReq := rfl
@[simp] theorem setCalls_rbuf (l : List Call) : (s.setCalls l).rbuf = s.rbuf := rfl
@[simp] theorem setCalls_phase (l : List Call) : (s.setCalls l).phase = s.phase := rfl
@[simp] theorem setCalls_status (l : List Call) : (s.setCalls l).status = s.status := rfl
@[simp] theorem setCalls_outcome (l : List Call) : (s.setCalls l).outcome = s.outcome := rfl
@[simp] theorem setCalls_job (l : List Call) : (s.setCalls l).job = s.job := rfl
@[simp] theorem setCalls_opThread (l : List Call) : (s.setCalls l).opThread = s.opThread := rfl
@[simp] theorem setCalls_parked (l : List Call) : (s.setCalls l).parked = s.parked := rfl
@[simp] theorem setCalls_closing (l : List Call) : (s.setCalls l).closing = s.closing := rfl
@[simp] theorem setCalls_closeThread (l : List Call) : (s.setCalls l).closeThread = s.closeThread := rfl
@[simp] theorem setCalls_calls (l : List Call) : (s.setCalls l).calls = l := rfl
@[simp] theorem setCalls_waiting (l : List Call) : (s.setCalls l).waiting = s.waiting := rfl
@[simp] theorem setCalls_caller (l : List Call) : (s.setCalls l).caller = s.caller := rfl
@[simp] theorem setCalls_ret (l : List Call) : (s.setCalls l).ret = s.ret := rfl
@[simp] theorem setCalls_retTo (l : List Call) : (s.setCalls l).retTo = s.retTo := rfl
@[simp] theorem setCalls_env (l : List Call) : (s.setCalls l).env = s.env := rfl

@[simp] theorem setWaiting_cfg (l : List Waiter) : (s.setWaiting l).cfg = s.cfg := rfl
@[simp] theorem setWaiting_port (l : List Waiter) : (s.setWaiting l).port = s.port := rfl
@[simp] theorem setWaiting_chUp (l : List Waiter) : (s.setWaiting l).chUp = s.chUp := rfl
@[simp] theorem setWaiting_tx (l : List Waiter) : (s.setWaiting l).tx = s.tx := rfl
@[simp] theorem setWaiting_rx (l : List Waiter) : (s.setWaiting l).rx = s.rx := rfl
@[simp] theorem setWaiting_chlock (l : List Waiter) : (s.setWaiting l).chlock = s.chlock := rfl
@[simp] theorem setWaiting_pinlock (l : List Waiter) : (s.setWaiting l).pinlock = s.pinlock := rfl
@[simp] theorem setWaiting_engExists (l : List Waiter) : (s.setWaiting l).engExists = s.engExists := rfl
@[simp] theorem setWaiting_hasScl (l : List Waiter) : (s.setWaiting l).hasScl = s.hasScl := rfl
@[simp] theorem setWaiting_hasSda (l : List Waiter) : (s.setWaiting l).hasSda = s.hasSda := rfl
@[simp] theorem setWaiting_freq (l : List Waiter) : (s.setWaiting l).freq = s.freq := rfl
@[simp] theorem setWaiting_opsel (l : List Waiter) : (s.setWaiting l).opsel = s.opsel := rfl
@[simp] theorem setWaiting_addr (l : List Waiter) : (s.setWaiting l).addr = s.addr := rfl
@[simp] theorem setWaiting_wlen (l : List Waiter) : (s.setWaiting l).wlen = s.wlen := rfl
@[simp] theorem setWaiting_rlen (l : List Waiter) : (s.setWaiting l).rlen = s.rlen := rfl
@[simp] theorem setWaiting_wbuf (l : List Waiter) : (s.setWaiting l).wbuf = s.wbuf := rfl
@[simp] theorem setWaiting_freqReq (l : List Waiter) : (s.setWaiting l).freqReq = s.freqReq := rfl
@[simp] theorem setWaiting_rbuf (l : List Waiter) : (s.setWaiting l).rbuf = s.rbuf := rfl
@[simp] theorem setWaiting_phase (l : List Waiter) : (s.setWaiting l).phase = s.phase := rfl
@[simp] theorem setWaiting_status (l : List Waiter) : (s.setWaiting l).status = s.status := rfl
@[simp] theorem setWaiting_outcome (l : List Waiter) : (s.setWaiting l).outcome = s.outcome := rfl
@[simp] theorem setWaiting_job (l : List Waiter) : (s.setWaiting l).job = s.job := rfl
@[simp] theorem setWaiting_opThread (l : List Waiter) : (s.setWaiting l).opThread = s.opThread := rfl
@[simp] theorem setWaiting_parked (l : List Waiter) : (s.setWaiting l).parked = s.parked := rfl
@[simp] theorem setWaiting_closing (l : List Waiter) : (s.setWaiting l).closing = s.closing := rfl
@[simp] theorem setWaiting_closeThread (l : List Waiter) : (s.setWaiting l).closeThread = s.closeThread := rfl
@[simp] theorem setWaiting_calls (l : List Waiter) : (s.setWaiting l).calls = s.calls := rfl
@[simp] theorem setWaiting_waiting (l : List Waiter) : (s.setWaiting l).waiting = l := rfl
@[simp] theorem setWaiting_caller (l : List Waiter) : (s.setWaiting l).caller = s.caller := rfl
@[simp] theorem setWaiting_ret (l : List Waiter) : (s.setWaiting l).ret = s.ret := rfl
@[simp] theorem setWaiting_retTo (l : List Waiter) : (s.setWaiting l).retTo = s.retTo := rfl
@[simp] theorem setWaiting_env (l : List Waiter) : (s.setWaiting l).env = s.env := rfl

@[simp] theorem setParked_cfg (p : Option Nat) : (s.setParked p).cfg = s.cfg := rfl
@[simp] theorem setParked_port (p : Option Nat) : (s.setParked p).port = s.port := rfl
@[simp] theorem setParked_chUp (p : Option Nat) : (s.setParked p).chUp = s.chUp := rfl
@[simp] theorem setParked_tx (p : Option Nat) : (s.setParked p).tx = s.tx := rfl
@[simp] theorem setParked_rx (p : Option Nat) : (s.setParked p).rx = s.rx := rfl
@[simp] theorem setParked_chlock (p : Option Nat) : (s.setParked p).chlock = s.chlock := rfl
@[simp] theorem setParked_pinlock (p : Option Nat) : (s.setParked p).pinlock = s.pinlock := rfl
@[simp] theorem setParked_engExists (p : Option Nat) : (s.setParked p).engExists = s.engExists := rfl
@[simp] theorem setParked_hasScl (p : Option Nat) : (s.setParked p).hasScl = s.hasScl := rfl
@[simp] theorem setParked_hasSda (p : Option Nat) : (s.setParked p).hasSda = s.hasSda := rfl
@[simp] theorem setParked_freq (p : Option Nat) : (s.setParked p).freq = s.freq := rfl
@[simp] theorem setParked_opsel (p : Option Nat) : (s.setParked p).opsel = s.opsel := rfl
@[simp] theorem setParked_addr (p : Option Nat) : (s.setParked p).addr = s.addr := rfl
@[simp] theorem setParked_wlen (p : Option Nat) : (s.setParked p).wlen = s.wlen := rfl
@[simp] theorem setParked_rlen (p : Option Nat) : (s.setParked p).rlen = s.rlen := rfl
@[simp] theorem setParked_wbuf (p : Option Nat) : (s.setParked p).wbuf = s.wbuf := rfl
@[simp] theorem setParked_freqReq (p : Option Nat) : (s.setParked p).freqReq = s.freqReq := rfl
@[simp] theorem setParked_rbuf (p : Option Nat) : (s.setParked p).rbuf = s.rbuf := rfl
@[simp] theorem setParked_phase (p : Option Nat) : (s.setParked p).phase = s.phase := rfl
@[simp] theorem setParked_status (p : Option Nat) : (s.setParked p).status = s.status := rfl
@[simp] theorem setParked_outcome (p : Option Nat) : (s.setParked p).outcome = s.outcome := rfl
@[simp] theorem setParked_job (p : Option Nat) : (s.setParked p).job = s.job := rfl
@[simp] theorem setParked_opThread (p : Option Nat) : (s.setParked p).opThread = s.opThread := rfl
@[simp] theorem setParked_parked (p : Option Nat) : (s.setParked p).parked = p := rfl
@[simp] theorem setParked_closing (p : Option Nat) : (s.setParked p).closing = s.closing := rfl
@[simp] theorem setParked_closeThread (p : Option Nat) : (s.setParked p).closeThread = s.closeThread := rfl
@[simp] theorem setParked_calls (p : Option Nat) : (s.setParked p).calls = s.calls := rfl
@[simp] theorem setParked_waiting (p : Option Nat) : (s.setParked p).waiting = s.waiting := rfl
@[simp] theorem setParked_caller (p : Option Nat) : (s.setParked p).caller = s.caller := rfl
@[simp] theorem setParked_ret (p : Option Nat) : (s.setParked p).ret = s.ret := rfl
@[simp] theorem setParked_retTo (p : Option Nat) : (s.setParked p).retTo = s.retTo := rfl
@[simp] theorem setParked_env (p : Option Nat) : (s.setParked p).env = s.env := rfl

@[simp] theorem setCloseThread_cfg (t : Nat) : (s.setCloseThread t).cfg = s.cfg := rfl
@[simp] theorem setCloseThread_port (t : Nat) : (s.setCloseThread t).port = s.port := rfl
@[simp] theorem setCloseThread_chUp (t : Nat) : (s.setCloseThread t).chUp = s.chUp := rfl
@[simp] theorem setCloseThread_tx (t : Nat) : (s.setCloseThread t).tx = s.tx := rfl
@[simp] theorem setCloseThread_rx (t : Nat) : (s.setCloseThread t).rx = s.rx := rfl
@[simp] theorem setCloseThread_chlock (t : Nat) : (s.setCloseThread t).chlock = s.chlock := rfl
@[simp] theorem setCloseThread_pinlock (t : Nat) : (s.setCloseThread t).pinlock = s.pinlock := rfl
@[simp] theorem setCloseThread_engExists (t : Nat) : (s.setCloseThread t).engExists = s.engExists := rfl
@[simp] theorem setCloseThread_hasScl (t : Nat) : (s.setCloseThread t).hasScl = s.hasScl := rfl
@[simp] theorem setCloseThread_hasSda (t : Nat) : (s.setCloseThread t).hasSda = s.hasSda := rfl
@[simp] theorem setCloseThread_freq (t : Nat) : (s.setCloseThread t).freq = s.freq := rfl
@[simp] theorem setCloseThread_opsel (t : Nat) : (s.setCloseThread t).opsel = s.opsel := rfl
@[simp] theorem setCloseThread_addr (t : Nat) : (s.setCloseThread t).addr = s.addr := rfl
@[simp] theorem setCloseThread_wlen (t : Nat) : (s.setCloseThread t).wlen = s.wlen := rfl
@[simp] theorem setCloseThread_rlen (t : Nat) : (s.setCloseThread t).rlen = s.rlen := rfl
@[simp] theorem setCloseThread_wbuf (t : Nat) : (s.setCloseThread t).wbuf = s.wbuf := rfl
@[simp] theorem setCloseThread_freqReq (t : Nat) : (s.setCloseThread t).freqReq = s.freqReq := rfl
@[simp] theorem setCloseThread_rbuf (t : Nat) : (s.setCloseThread t).rbuf = s.rbuf := rfl
@[simp] theorem setCloseThread_phase (t : Nat) : (s.setCloseThread t).phase = s.phase := rfl
@[simp] theorem setCloseThread_status (t : Nat) : (s.setCloseThread t).status = s.status := rfl
@[simp] theorem setCloseThread_outcome (t : Nat) : (s.setCloseThread t).outcome = s.outcome := rfl
@[simp] theorem setCloseThread_job (t : Nat) : (s.setCloseThread t).job = s.job := rfl
@[simp] theorem setCloseThread_opThread (t : Nat) : (s.setCloseThread t).opThread = s.opThread := rfl
@[simp] theorem setCloseThread_parked (t : Nat) : (s.setCloseThread t).parked = s.parked := rfl
@[simp] theorem setCloseThread_closing (t : Nat) : (s.setCloseThread t).closing = s.closing := rfl
@[simp] theorem setCloseThread_closeThread (t : Nat) : (s.setCloseThread t).closeThread = t := rfl
@[simp] theorem setCloseThread_calls (t : Nat) : (s.setCloseThread t).calls = s.calls := rfl
@[simp] theorem setCloseThread_waiting (t : Nat) : (s.setCloseThread t).waiting = s.waiting := rfl
@[simp] theorem setCloseThread_caller (t : Nat) : (s.setCloseThread t).caller = s.caller := rfl
@[simp] theorem setCloseThread_ret (t : Nat) : (s.setCloseThread t).ret = s.ret := rfl
@[simp] theorem setCloseThread_retTo (t : Nat) : (s.setCloseThread t).retTo = s.retTo := rfl
@[simp] theorem setCloseThread_env (t : Nat) : (s.setCloseThread t).env = s.env := rfl

@[simp] theorem setCaller_cfg (t : Nat) : (s.setCaller t).cfg = s.cfg := rfl
@[simp] theorem setCaller_port (t : Nat) : (s.setCaller t).port = s.port := rfl
@[simp] theorem setCaller_chUp (t : Nat) : (s.setCaller t).chUp = s.chUp := rfl
@[simp] theorem setCaller_tx (t : Nat) : (s.setCaller t).tx = s.tx := rfl
@[simp] theorem setCaller_rx (t : Nat) : (s.setCaller t).rx = s.rx := rfl
@[simp] theorem setCaller_chlock (t : Nat) : (s.setCaller t).chlock = s.chlock := rfl
@[simp] theorem setCaller_pinlock (t : Nat) : (s.setCaller t).pinlock = s.pinlock := rfl
@[simp] theorem setCaller_engExists (t : Nat) : (s.setCaller t).engExists = s.engExists := rfl
@[simp] theorem setCaller_hasScl (t : Nat) : (s.setCaller t).hasScl = s.hasScl := rfl
@[simp] theorem setCaller_hasSda (t : Nat) : (s.setCaller t).hasSda = s.hasSda := rfl
@[simp] theorem setCaller_freq (t : Nat) : (s.setCaller t).freq = s.freq := rfl
@[simp] theorem setCaller_opsel (t : Nat) : (s.setCaller t).opsel = s.opsel := rfl
@[simp] theorem setCaller_addr (t : Nat) : (s.setCaller t).addr = s.addr := rfl
@[simp] theorem setCaller_wlen (t : Nat) : (s.setCaller t).wlen = s.wlen := rfl
@[simp] theorem setCaller_rlen (t : Nat) : (s.setCaller t).rlen = s.rlen := rfl
@[simp] theorem setCaller_wbuf (t : Nat) : (s.setCaller t).wbuf = s.wbuf := rfl
@[simp] theorem setCaller_freqReq (t : Nat) : (s.setCaller t).freqReq = s.freqReq := rfl
@[simp] theorem setCaller_rbuf (t : Nat) : (s.setCaller t).rbuf = s.rbuf := rfl
@[simp] theorem setCaller_phase (t : Nat) : (s.setCaller t).phase = s.phase := rfl
@[simp] theorem setCaller_status (t : Nat) : (s.setCaller t).status = s.status := rfl
@[simp] theorem setCaller_outcome (t : Nat) : (s.setCaller t).outcome = s.outcome := rfl
@[simp] theorem setCaller_job (t : Nat) : (s.setCaller t).job = s.job := rfl
@[simp] theorem setCaller_opThread (t : Nat) : (s.setCaller t).opThread = s.opThread := rfl
@[simp] theorem setCaller_parked (t : Nat) : (s.setCaller t).parked = s.parked := rfl
@[simp] theorem setCaller_closing (t : Nat) : (s.setCaller t).closing = s.closing := rfl
@[simp] theorem setCaller_closeThread (t : Nat) : (s.setCaller t).closeThread = s.closeThread := rfl
@[simp] theorem setCaller_calls (t : Nat) : (s.setCaller t).calls = s.calls := rfl
@[simp] theorem setCaller_waiting (t : Nat) : (s.setCaller t).waiting = s.waiting := rfl
@[simp] theorem setCaller_caller (t : Nat) : (s.setCaller t).caller = t := rfl
@[simp] theorem setCaller_ret (t : Nat) : (s.setCaller t).ret = s.ret := rfl
@[simp] theorem setCaller_retTo (t : Nat) : (s.setCaller t).retTo = s.retTo := rfl
@[simp] theorem setCaller_env (t : Nat) : (s.setCaller t).env = s.env := rfl

@[simp] theorem answer_cfg (t : Nat) (r : Ret) : (s.answer t r).cfg = s.cfg := rfl
@[simp] theorem answer_port (t : Nat) (r : Ret) : (s.answer t r).port = s.port := rfl
@[simp] theorem answer_chUp (t : Nat) (r : Ret) : (s.answer t r).chUp = s.chUp := rfl
@[simp] theorem answer_tx (t : Nat) (r : Ret) : (s.answer t r).tx = s.tx := rfl
@[simp] theorem answer_rx (t : Nat) (r : Ret) : (s.answer t r).rx = s.rx := rfl
@[simp] theorem answer_chlock (t : Nat) (r : Ret) : (s.answer t r).chlock = s.chlock := rfl
@[simp] theorem answer_pinlock (t : Nat) (r : Ret) : (s.answer t r).pinlock = s.pinlock := rfl
@[simp] theorem answer_engExists (t : Nat) (r : Ret) : (s.answer t r).engExists = s.engExists := rfl
@[simp] theorem answer_hasScl (t : Nat) (r : Ret) : (s.answer t r).hasScl = s.hasScl := rfl
@[simp] theorem answer_hasSda (t : Nat) (r : Ret) : (s.answer t r).hasSda = s.hasSda := rfl
@[simp] theorem answer_freq (t : Nat) (r : Ret) : (s.answer t r).freq = s.freq := rfl
@[simp] theorem answer_opsel (t : Nat) (r : Ret) : (s.answer t r).opsel = s.opsel := rfl
@[simp] theorem answer_addr (t : Nat) (r : Ret) : (s.answer t r).addr = s.addr := rfl
@[simp] theorem answer_wlen (t : Nat) (r : Ret) : (s.answer t r).wlen = s.wlen := rfl
@[simp] theorem answer_rlen (t : Nat) (r : Ret) : (s.answer t r).rlen = s.rlen := rfl
@[simp] theorem answer_wbuf (t : Nat) (r : Ret) : (s.answer t r).wbuf = s.wbuf := rfl
@[simp] theorem answer_freqReq (t : Nat) (r : Ret) : (s.answer t r).freqReq = s.freqReq := rfl
@[simp] theorem answer_rbuf (t : Nat) (r : Ret) : (s.answer t r).rbuf = s.rbuf := rfl
@[simp] theorem answer_phase (t : Nat) (r : Ret) : (s.answer t r).phase = s.phase := rfl
@[simp] theorem answer_status (t : Nat) (r : Ret) : (s.answer t r).status = s.status := rfl
@[simp] theorem answer_outcome (t : Nat) (r : Ret) : (s.answer t r).outcome = s.outcome := rfl
@[simp] theorem answer_job (t : Nat) (r : Ret) : (s.answer t r).job = s.job := rfl
@[simp] theorem answer_opThread (t : Nat) (r : Ret) : (s.answer t r).opThread = s.opThread := rfl
@[simp] theorem answer_parked (t : Nat) (r : Ret) : (s.answer t r).parked = s.parked := rfl
@[simp] theorem answer_closing (t : Nat) (r : Ret) : (s.answer t r).closing = s.closing := rfl
@[simp] theorem answer_closeThread (t : Nat) (r : Ret) : (s.answer t r).closeThread = s.closeThread := rfl
@[simp] theorem answer_calls (t : Nat) (r : Ret) : (s.answer t r).calls = s.calls := rfl
@[simp] theorem answer_waiting (t : Nat) (r : Ret) : (s.answer t r).waiting = s.waiting := rfl
@[simp] theorem answer_caller (t : Nat) (r : Ret) : (s.answer t r).caller = s.caller := rfl
@[simp] theorem answer_ret (t : Nat) (r : Ret) : (s.answer t r).ret = r := rfl
@[simp] theorem answer_retTo (t : Nat) (r : Ret) : (s.answer t r).retTo = t := rfl
@[simp] theorem answer_env (t : Nat) (r : Ret) : (s.answer t r).env = s.env := rfl

@[simp] theorem wake_cfg (i : Nat) : (s.wake i).cfg = s.cfg := rfl
@[simp] theorem wake_port (i : Nat) : (s.wake i).port = s.port := rfl
@[simp] theorem wake_chUp (i : Nat) : (s.wake i).chUp = s.chUp := rfl
@[simp] theorem wake_tx (i : Nat) : (s.wake i).tx = s.tx := rfl
@[simp] theorem wake_rx (i : Nat) : (s.wake i).rx = s.rx := rfl
@[simp] theorem wake_chlock (i : Nat) : (s.wake i).chlock = s.chlock := rfl
@[simp] theorem wake_pinlock (i : Nat) : (s.wake i).pinlock = s.pinlock := rfl
@[simp] theorem wake_engExists (i : Nat) : (s.wake i).engExists = s.engExists := rfl
@[simp] theorem wake_hasScl (i : Nat) : (s.wake i).hasScl = s.hasScl := rfl
@[simp] theorem wake_hasSda (i : Nat) : (s.wake i).hasSda = s.hasSda := rfl
@[simp] theorem wake_freq (i : Nat) : (s.wake i).freq = s.freq := rfl
@[simp] theorem wake_opsel (i : Nat) : (s.wake i).opsel = s.opsel := rfl
@[simp] theorem wake_addr (i : Nat) : (s.wake i).addr = s.addr := rfl
@[simp] theorem wake_wlen (i : Nat) : (s.wake i).wlen = s.wlen := rfl
@[simp] theorem wake_rlen (i : Nat) : (s.wake i).rlen = s.rlen := rfl
@[simp] theorem wake_wbuf (i : Nat) : (s.wake i).wbuf = s.wbuf := rfl
@[simp] theorem wake_freqReq (i : Nat) : (s.wake i).freqReq = s.freqReq := rfl
@[simp] theorem wake_rbuf (i : Nat) : (s.wake i).rbuf = s.rbuf := rfl
@[simp] theorem wake_phase (i : Nat) : (s.wake i).phase = s.phase := rfl
@[simp] theorem wake_status (i : Nat) : (s.wake i).status = s.status := rfl
@[simp] theorem wake_outcome (i : Nat) : (s.wake i).outcome = s.outcome := rfl
@[simp] theorem wake_job (i : Nat) : (s.wake i).job = s.job := rfl
@[simp] theorem wake_opThread (i : Nat) : (s.wake i).opThread = s.opThread := rfl
@[simp] theorem wake_parked (i : Nat) : (s.wake i).parked = unmark i s.parked := rfl
@[simp] theorem wake_closing (i : Nat) : (s.wake i).closing = s.closing := rfl
@[simp] theorem wake_closeThread (i : Nat) : (s.wake i).closeThread = s.closeThread := rfl
@[simp] theorem wake_calls (i : Nat) : (s.wake i).calls = s.calls := rfl
@[simp] theorem wake_waiting (i : Nat) :
    (s.wake i).waiting = s.waiting.map (fun w => { w with blockedOn := unmark i w.blockedOn }) := rfl
@[simp] theorem wake_caller (i : Nat) : (s.wake i).caller = s.caller := rfl
@[simp] theorem wake_ret (i : Nat) : (s.wake i).ret = s.ret := rfl
@[simp] theorem wake_retTo (i : Nat) : (s.wake i).retTo = s.retTo := rfl
@[simp] theorem wake_env (i : Nat) : (s.wake i).env = s.env := rfl

@[simp] theorem latchOpen_cfg (f : Freq) : (s.latchOpen f).cfg = s.cfg := rfl
@[simp] theorem latchOpen_port (f : Freq) : (s.latchOpen f).port = s.port := rfl
@[simp] theorem latchOpen_chUp (f : Freq) : (s.latchOpen f).chUp = s.chUp := rfl
@[simp] theorem latchOpen_tx (f : Freq) : (s.latchOpen f).tx = s.tx := rfl
@[simp] theorem latchOpen_rx (f : Freq) : (s.latchOpen f).rx = s.rx := rfl
@[simp] theorem latchOpen_chlock (f : Freq) : (s.latchOpen f).chlock = s.chlock := rfl
@[simp] theorem latchOpen_pinlock (f : Freq) : (s.latchOpen f).pinlock = s.pinlock := rfl
@[simp] theorem latchOpen_engExists (f : Freq) : (s.latchOpen f).engExists = s.engExists := rfl
@[simp] theorem latchOpen_hasScl (f : Freq) : (s.latchOpen f).hasScl = s.hasScl := rfl
@[simp] theorem latchOpen_hasSda (f : Freq) : (s.latchOpen f).hasSda = s.hasSda := rfl
@[simp] theorem latchOpen_freq (f : Freq) : (s.latchOpen f).freq = s.freq := rfl
@[simp] theorem latchOpen_opsel (f : Freq) : (s.latchOpen f).opsel = .openEngine := rfl
@[simp] theorem latchOpen_addr (f : Freq) : (s.latchOpen f).addr = s.addr := rfl
@[simp] theorem latchOpen_wlen (f : Freq) : (s.latchOpen f).wlen = s.wlen := rfl
@[simp] theorem latchOpen_rlen (f : Freq) : (s.latchOpen f).rlen = s.rlen := rfl
@[simp] theorem latchOpen_wbuf (f : Freq) : (s.latchOpen f).wbuf = s.wbuf := rfl
@[simp] theorem latchOpen_freqReq (f : Freq) : (s.latchOpen f).freqReq = f := rfl
@[simp] theorem latchOpen_rbuf (f : Freq) : (s.latchOpen f).rbuf = s.rbuf := rfl
@[simp] theorem latchOpen_phase (f : Freq) : (s.latchOpen f).phase = s.phase := rfl
@[simp] theorem latchOpen_status (f : Freq) : (s.latchOpen f).status = s.status := rfl
@[simp] theorem latchOpen_outcome (f : Freq) : (s.latchOpen f).outcome = .ok := rfl
@[simp] theorem latchOpen_job (f : Freq) : (s.latchOpen f).job = .operation := rfl
@[simp] theorem latchOpen_opThread (f : Freq) : (s.latchOpen f).opThread = s.caller := rfl
@[simp] theorem latchOpen_parked (f : Freq) : (s.latchOpen f).parked = none := rfl
@[simp] theorem latchOpen_closing (f : Freq) : (s.latchOpen f).closing = s.closing := rfl
@[simp] theorem latchOpen_closeThread (f : Freq) : (s.latchOpen f).closeThread = s.closeThread := rfl
@[simp] theorem latchOpen_calls (f : Freq) : (s.latchOpen f).calls = s.calls := rfl
@[simp] theorem latchOpen_waiting (f : Freq) : (s.latchOpen f).waiting = s.waiting := rfl
@[simp] theorem latchOpen_caller (f : Freq) : (s.latchOpen f).caller = s.caller := rfl
@[simp] theorem latchOpen_ret (f : Freq) : (s.latchOpen f).ret = s.ret := rfl
@[simp] theorem latchOpen_retTo (f : Freq) : (s.latchOpen f).retTo = s.retTo := rfl
@[simp] theorem latchOpen_env (f : Freq) : (s.latchOpen f).env = s.env := rfl

@[simp] theorem latchSend_cfg (a : Nat) (w : List Byte) : (s.latchSend a w).cfg = s.cfg := rfl
@[simp] theorem latchSend_port (a : Nat) (w : List Byte) : (s.latchSend a w).port = s.port := rfl
@[simp] theorem latchSend_chUp (a : Nat) (w : List Byte) : (s.latchSend a w).chUp = s.chUp := rfl
@[simp] theorem latchSend_tx (a : Nat) (w : List Byte) : (s.latchSend a w).tx = s.tx := rfl
@[simp] theorem latchSend_rx (a : Nat) (w : List Byte) : (s.latchSend a w).rx = s.rx := rfl
@[simp] theorem latchSend_chlock (a : Nat) (w : List Byte) : (s.latchSend a w).chlock = s.chlock := rfl
@[simp] theorem latchSend_pinlock (a : Nat) (w : List Byte) : (s.latchSend a w).pinlock = s.pinlock := rfl
@[simp] theorem latchSend_engExists (a : Nat) (w : List Byte) :
    (s.latchSend a w).engExists = s.engExists := rfl
@[simp] theorem latchSend_hasScl (a : Nat) (w : List Byte) : (s.latchSend a w).hasScl = s.hasScl := rfl
@[simp] theorem latchSend_hasSda (a : Nat) (w : List Byte) : (s.latchSend a w).hasSda = s.hasSda := rfl
@[simp] theorem latchSend_freq (a : Nat) (w : List Byte) : (s.latchSend a w).freq = s.freq := rfl
@[simp] theorem latchSend_opsel (a : Nat) (w : List Byte) : (s.latchSend a w).opsel = .send := rfl
@[simp] theorem latchSend_addr (a : Nat) (w : List Byte) : (s.latchSend a w).addr = BitVec.ofNat 7 a := rfl
@[simp] theorem latchSend_wlen (a : Nat) (w : List Byte) :
    (s.latchSend a w).wlen = BitVec.ofNat 8 w.length := rfl
@[simp] theorem latchSend_rlen (a : Nat) (w : List Byte) : (s.latchSend a w).rlen = s.rlen := rfl
@[simp] theorem latchSend_wbuf (a : Nat) (w : List Byte) : (s.latchSend a w).wbuf = overlay w s.wbuf := rfl
@[simp] theorem latchSend_freqReq (a : Nat) (w : List Byte) : (s.latchSend a w).freqReq = s.freqReq := rfl
@[simp] theorem latchSend_rbuf (a : Nat) (w : List Byte) : (s.latchSend a w).rbuf = s.rbuf := rfl
@[simp] theorem latchSend_phase (a : Nat) (w : List Byte) : (s.latchSend a w).phase = s.phase := rfl
@[simp] theorem latchSend_status (a : Nat) (w : List Byte) : (s.latchSend a w).status = s.status := rfl
@[simp] theorem latchSend_outcome (a : Nat) (w : List Byte) : (s.latchSend a w).outcome = .ok := rfl
@[simp] theorem latchSend_job (a : Nat) (w : List Byte) : (s.latchSend a w).job = .operation := rfl
@[simp] theorem latchSend_opThread (a : Nat) (w : List Byte) : (s.latchSend a w).opThread = s.caller := rfl
@[simp] theorem latchSend_parked (a : Nat) (w : List Byte) : (s.latchSend a w).parked = s.parked := rfl
@[simp] theorem latchSend_closing (a : Nat) (w : List Byte) : (s.latchSend a w).closing = s.closing := rfl
@[simp] theorem latchSend_closeThread (a : Nat) (w : List Byte) :
    (s.latchSend a w).closeThread = s.closeThread := rfl
@[simp] theorem latchSend_calls (a : Nat) (w : List Byte) : (s.latchSend a w).calls = s.calls := rfl
@[simp] theorem latchSend_waiting (a : Nat) (w : List Byte) : (s.latchSend a w).waiting = s.waiting := rfl
@[simp] theorem latchSend_caller (a : Nat) (w : List Byte) : (s.latchSend a w).caller = s.caller := rfl
@[simp] theorem latchSend_ret (a : Nat) (w : List Byte) : (s.latchSend a w).ret = s.ret := rfl
@[simp] theorem latchSend_retTo (a : Nat) (w : List Byte) : (s.latchSend a w).retTo = s.retTo := rfl
@[simp] theorem latchSend_env (a : Nat) (w : List Byte) : (s.latchSend a w).env = s.env := rfl

@[simp] theorem latchRead_cfg (a n : Nat) : (s.latchRead a n).cfg = s.cfg := rfl
@[simp] theorem latchRead_port (a n : Nat) : (s.latchRead a n).port = s.port := rfl
@[simp] theorem latchRead_chUp (a n : Nat) : (s.latchRead a n).chUp = s.chUp := rfl
@[simp] theorem latchRead_tx (a n : Nat) : (s.latchRead a n).tx = s.tx := rfl
@[simp] theorem latchRead_rx (a n : Nat) : (s.latchRead a n).rx = s.rx := rfl
@[simp] theorem latchRead_chlock (a n : Nat) : (s.latchRead a n).chlock = s.chlock := rfl
@[simp] theorem latchRead_pinlock (a n : Nat) : (s.latchRead a n).pinlock = s.pinlock := rfl
@[simp] theorem latchRead_engExists (a n : Nat) : (s.latchRead a n).engExists = s.engExists := rfl
@[simp] theorem latchRead_hasScl (a n : Nat) : (s.latchRead a n).hasScl = s.hasScl := rfl
@[simp] theorem latchRead_hasSda (a n : Nat) : (s.latchRead a n).hasSda = s.hasSda := rfl
@[simp] theorem latchRead_freq (a n : Nat) : (s.latchRead a n).freq = s.freq := rfl
@[simp] theorem latchRead_opsel (a n : Nat) : (s.latchRead a n).opsel = .read := rfl
@[simp] theorem latchRead_addr (a n : Nat) : (s.latchRead a n).addr = BitVec.ofNat 7 a := rfl
@[simp] theorem latchRead_wlen (a n : Nat) : (s.latchRead a n).wlen = s.wlen := rfl
@[simp] theorem latchRead_rlen (a n : Nat) : (s.latchRead a n).rlen = BitVec.ofNat 8 n := rfl
@[simp] theorem latchRead_wbuf (a n : Nat) : (s.latchRead a n).wbuf = s.wbuf := rfl
@[simp] theorem latchRead_freqReq (a n : Nat) : (s.latchRead a n).freqReq = s.freqReq := rfl
@[simp] theorem latchRead_rbuf (a n : Nat) : (s.latchRead a n).rbuf = s.rbuf := rfl
@[simp] theorem latchRead_phase (a n : Nat) : (s.latchRead a n).phase = s.phase := rfl
@[simp] theorem latchRead_status (a n : Nat) : (s.latchRead a n).status = s.status := rfl
@[simp] theorem latchRead_outcome (a n : Nat) : (s.latchRead a n).outcome = .ok := rfl
@[simp] theorem latchRead_job (a n : Nat) : (s.latchRead a n).job = .operation := rfl
@[simp] theorem latchRead_opThread (a n : Nat) : (s.latchRead a n).opThread = s.caller := rfl
@[simp] theorem latchRead_parked (a n : Nat) : (s.latchRead a n).parked = s.parked := rfl
@[simp] theorem latchRead_closing (a n : Nat) : (s.latchRead a n).closing = s.closing := rfl
@[simp] theorem latchRead_closeThread (a n : Nat) : (s.latchRead a n).closeThread = s.closeThread := rfl
@[simp] theorem latchRead_calls (a n : Nat) : (s.latchRead a n).calls = s.calls := rfl
@[simp] theorem latchRead_waiting (a n : Nat) : (s.latchRead a n).waiting = s.waiting := rfl
@[simp] theorem latchRead_caller (a n : Nat) : (s.latchRead a n).caller = s.caller := rfl
@[simp] theorem latchRead_ret (a n : Nat) : (s.latchRead a n).ret = s.ret := rfl
@[simp] theorem latchRead_retTo (a n : Nat) : (s.latchRead a n).retTo = s.retTo := rfl
@[simp] theorem latchRead_env (a n : Nat) : (s.latchRead a n).env = s.env := rfl

@[simp] theorem latchTransfer_cfg (a : Nat) (w : List Byte) (n : Nat) :
    (s.latchTransfer a w n).cfg = s.cfg := rfl
@[simp] theorem latchTransfer_port (a : Nat) (w : List Byte) (n : Nat) :
    (s.latchTransfer a w n).port = s.port := rfl
@[simp] theorem latchTransfer_chUp (a : Nat) (w : List Byte) (n : Nat) :
    (s.latchTransfer a w n).chUp = s.chUp := rfl
@[simp] theorem latchTransfer_tx (a : Nat) (w : List Byte) (n : Nat) :
    (s.latchTransfer a w n).tx = s.tx := rfl
@[simp] theorem latchTransfer_rx (a : Nat) (w : List Byte) (n : Nat) :
    (s.latchTransfer a w n).rx = s.rx := rfl
@[simp] theorem latchTransfer_chlock (a : Nat) (w : List Byte) (n : Nat) :
    (s.latchTransfer a w n).chlock = s.chlock := rfl
@[simp] theorem latchTransfer_pinlock (a : Nat) (w : List Byte) (n : Nat) :
    (s.latchTransfer a w n).pinlock = s.pinlock := rfl
@[simp] theorem latchTransfer_engExists (a : Nat) (w : List Byte) (n : Nat) :
    (s.latchTransfer a w n).engExists = s.engExists := rfl
@[simp] theorem latchTransfer_hasScl (a : Nat) (w : List Byte) (n : Nat) :
    (s.latchTransfer a w n).hasScl = s.hasScl := rfl
@[simp] theorem latchTransfer_hasSda (a : Nat) (w : List Byte) (n : Nat) :
    (s.latchTransfer a w n).hasSda = s.hasSda := rfl
@[simp] theorem latchTransfer_freq (a : Nat) (w : List Byte) (n : Nat) :
    (s.latchTransfer a w n).freq = s.freq := rfl
@[simp] theorem latchTransfer_opsel (a : Nat) (w : List Byte) (n : Nat) :
    (s.latchTransfer a w n).opsel = .transfer := rfl
@[simp] theorem latchTransfer_addr (a : Nat) (w : List Byte) (n : Nat) :
    (s.latchTransfer a w n).addr = BitVec.ofNat 7 a := rfl
@[simp] theorem latchTransfer_wlen (a : Nat) (w : List Byte) (n : Nat) :
    (s.latchTransfer a w n).wlen = BitVec.ofNat 8 w.length := rfl
@[simp] theorem latchTransfer_rlen (a : Nat) (w : List Byte) (n : Nat) :
    (s.latchTransfer a w n).rlen = BitVec.ofNat 8 n := rfl
@[simp] theorem latchTransfer_wbuf (a : Nat) (w : List Byte) (n : Nat) :
    (s.latchTransfer a w n).wbuf = overlay w s.wbuf := rfl
@[simp] theorem latchTransfer_freqReq (a : Nat) (w : List Byte) (n : Nat) :
    (s.latchTransfer a w n).freqReq = s.freqReq := rfl
@[simp] theorem latchTransfer_rbuf (a : Nat) (w : List Byte) (n : Nat) :
    (s.latchTransfer a w n).rbuf = s.rbuf := rfl
@[simp] theorem latchTransfer_phase (a : Nat) (w : List Byte) (n : Nat) :
    (s.latchTransfer a w n).phase = s.phase := rfl
@[simp] theorem latchTransfer_status (a : Nat) (w : List Byte) (n : Nat) :
    (s.latchTransfer a w n).status = s.status := rfl
@[simp] theorem latchTransfer_outcome (a : Nat) (w : List Byte) (n : Nat) :
    (s.latchTransfer a w n).outcome = .ok := rfl
@[simp] theorem latchTransfer_job (a : Nat) (w : List Byte) (n : Nat) :
    (s.latchTransfer a w n).job = .operation := rfl
@[simp] theorem latchTransfer_opThread (a : Nat) (w : List Byte) (n : Nat) :
    (s.latchTransfer a w n).opThread = s.caller := rfl
@[simp] theorem latchTransfer_parked (a : Nat) (w : List Byte) (n : Nat) :
    (s.latchTransfer a w n).parked = s.parked := rfl
@[simp] theorem latchTransfer_closing (a : Nat) (w : List Byte) (n : Nat) :
    (s.latchTransfer a w n).closing = s.closing := rfl
@[simp] theorem latchTransfer_closeThread (a : Nat) (w : List Byte) (n : Nat) :
    (s.latchTransfer a w n).closeThread = s.closeThread := rfl
@[simp] theorem latchTransfer_calls (a : Nat) (w : List Byte) (n : Nat) :
    (s.latchTransfer a w n).calls = s.calls := rfl
@[simp] theorem latchTransfer_waiting (a : Nat) (w : List Byte) (n : Nat) :
    (s.latchTransfer a w n).waiting = s.waiting := rfl
@[simp] theorem latchTransfer_caller (a : Nat) (w : List Byte) (n : Nat) :
    (s.latchTransfer a w n).caller = s.caller := rfl
@[simp] theorem latchTransfer_ret (a : Nat) (w : List Byte) (n : Nat) :
    (s.latchTransfer a w n).ret = s.ret := rfl
@[simp] theorem latchTransfer_retTo (a : Nat) (w : List Byte) (n : Nat) :
    (s.latchTransfer a w n).retTo = s.retTo := rfl
@[simp] theorem latchTransfer_env (a : Nat) (w : List Byte) (n : Nat) :
    (s.latchTransfer a w n).env = s.env := rfl

@[simp] theorem latchReply_cfg (n : Byte) : (s.latchReply n).cfg = s.cfg := rfl
@[simp] theorem latchReply_port (n : Byte) : (s.latchReply n).port = s.port := rfl
@[simp] theorem latchReply_chUp (n : Byte) : (s.latchReply n).chUp = s.chUp := rfl
@[simp] theorem latchReply_tx (n : Byte) : (s.latchReply n).tx = s.tx := rfl
@[simp] theorem latchReply_rx (n : Byte) : (s.latchReply n).rx = s.rx := rfl
@[simp] theorem latchReply_chlock (n : Byte) : (s.latchReply n).chlock = s.chlock := rfl
@[simp] theorem latchReply_pinlock (n : Byte) : (s.latchReply n).pinlock = s.pinlock := rfl
@[simp] theorem latchReply_engExists (n : Byte) : (s.latchReply n).engExists = s.engExists := rfl
@[simp] theorem latchReply_hasScl (n : Byte) : (s.latchReply n).hasScl = s.hasScl := rfl
@[simp] theorem latchReply_hasSda (n : Byte) : (s.latchReply n).hasSda = s.hasSda := rfl
@[simp] theorem latchReply_freq (n : Byte) : (s.latchReply n).freq = s.freq := rfl
@[simp] theorem latchReply_opsel (n : Byte) : (s.latchReply n).opsel = s.opsel := rfl
@[simp] theorem latchReply_addr (n : Byte) : (s.latchReply n).addr = s.addr := rfl
@[simp] theorem latchReply_wlen (n : Byte) : (s.latchReply n).wlen = s.wlen := rfl
@[simp] theorem latchReply_rlen (n : Byte) : (s.latchReply n).rlen = n := rfl
@[simp] theorem latchReply_wbuf (n : Byte) : (s.latchReply n).wbuf = s.wbuf := rfl
@[simp] theorem latchReply_freqReq (n : Byte) : (s.latchReply n).freqReq = s.freqReq := rfl
@[simp] theorem latchReply_rbuf (n : Byte) : (s.latchReply n).rbuf = s.rbuf := rfl
@[simp] theorem latchReply_phase (n : Byte) : (s.latchReply n).phase = s.phase := rfl
@[simp] theorem latchReply_status (n : Byte) : (s.latchReply n).status = s.status := rfl
@[simp] theorem latchReply_outcome (n : Byte) : (s.latchReply n).outcome = .ok := rfl
@[simp] theorem latchReply_job (n : Byte) : (s.latchReply n).job = .bareReply := rfl
@[simp] theorem latchReply_opThread (n : Byte) : (s.latchReply n).opThread = s.caller := rfl
@[simp] theorem latchReply_parked (n : Byte) : (s.latchReply n).parked = s.parked := rfl
@[simp] theorem latchReply_closing (n : Byte) : (s.latchReply n).closing = s.closing := rfl
@[simp] theorem latchReply_closeThread (n : Byte) : (s.latchReply n).closeThread = s.closeThread := rfl
@[simp] theorem latchReply_calls (n : Byte) : (s.latchReply n).calls = s.calls := rfl
@[simp] theorem latchReply_waiting (n : Byte) : (s.latchReply n).waiting = s.waiting := rfl
@[simp] theorem latchReply_caller (n : Byte) : (s.latchReply n).caller = s.caller := rfl
@[simp] theorem latchReply_ret (n : Byte) : (s.latchReply n).ret = s.ret := rfl
@[simp] theorem latchReply_retTo (n : Byte) : (s.latchReply n).retTo = s.retTo := rfl
@[simp] theorem latchReply_env (n : Byte) : (s.latchReply n).env = s.env := rfl

end Sys2Proof.Machine.State
end

