-- ==== Sys2Proof/Laws/Ops.lean ====
section
/-! SUPPORT. For each shared operation, once, everything it can do: the draws, the Channel's
primitives, the locks, the steps of the sequencer. -/

namespace Sys2Proof.Machine

namespace State

variable (s : State)

/-! ### Updates that stand for two -/

@[simp] theorem setEnv_self : s.setEnv s.env = s := rfl
@[simp] theorem setEnv_setEnv (e e' : Env) : (s.setEnv e).setEnv e' = s.setEnv e' := rfl
@[simp] theorem setTx_self : s.setTx s.tx = s := rfl
@[simp] theorem setRx_self : s.setRx s.rx = s := rfl

/-! ### Draws change only the environment's choices -/

theorem drawTurn_spec : ∃ e, s.drawTurn.2 = s.setEnv e := by
  unfold drawTurn countDraw; split <;> exact ⟨_, rfl⟩

theorem drawBurst_spec : ∃ e, s.drawBurst.2 = s.setEnv e := by
  unfold drawBurst countDraw; split <;> exact ⟨_, rfl⟩

theorem drawSend_spec : ∃ e, s.drawSend.2 = s.setEnv e := by
  unfold drawSend countDraw; split <;> exact ⟨_, rfl⟩

theorem drawRecv_spec : ∃ e, s.drawRecv.2 = s.setEnv e := by
  unfold drawRecv countDraw; split <;> exact ⟨_, rfl⟩

theorem drawPinChoice_spec : ∃ e, s.drawPinChoice.2 = s.setEnv e := by
  unfold drawPinChoice countDraw; split <;> exact ⟨_, rfl⟩

theorem drawCloseOrder_spec : ∃ e, s.drawCloseOrder.2 = s.setEnv e := by
  unfold drawCloseOrder countDraw; split <;> exact ⟨_, rfl⟩

theorem drawBytes_spec (n : Nat) : ∃ e, (s.drawBytes n).2 = s.setEnv e := ⟨_, rfl⟩

theorem drawBytes_length (n : Nat) : (s.drawBytes n).1.length = n := by
  simp [drawBytes]

theorem drawTurn_known {t : Turn} {rest : List Turn} (h : s.env.turns = t :: rest) :
    s.drawTurn = (t, s.setEnv { s.env with turns := rest }) := by
  simp [drawTurn, h]

theorem drawBurst_known {n : Nat} {rest : List Nat} (h : s.env.bursts = n :: rest) :
    s.drawBurst = (n, s.setEnv { s.env with bursts := rest }) := by
  simp [drawBurst, h]

theorem drawSend_known {o : SendOutcome} {rest : List SendOutcome} (h : s.env.sends = o :: rest) :
    s.drawSend = (o, s.setEnv { s.env with sends := rest }) := by
  simp [drawSend, h]

theorem drawRecv_known {o : RecvOutcome} {rest : List RecvOutcome} (h : s.env.recvs = o :: rest) :
    s.drawRecv = (o, s.setEnv { s.env with recvs := rest }) := by
  simp [drawRecv, h]

/-! ### The Channel's primitives -/

/-- A write appends a prefix of its bytes to TX, all of them where it answers `ok`, and changes
nothing else but the environment's choices (rules R48, R100). -/
theorem chSend_spec (bytes : List Byte) :
    ∃ e p, (s.chSend bytes).2 = (s.setEnv e).setTx (s.tx ++ p) ∧ p <+: bytes ∧
      ((s.chSend bytes).1 = true → p = bytes) := by
  obtain ⟨e, he⟩ := s.drawSend_spec
  unfold chSend
  rcases hd : s.drawSend with ⟨o, s'⟩
  rw [hd] at he
  cases he
  cases o with
  | ok => exact ⟨e, bytes, rfl, List.prefix_rfl, fun _ => rfl⟩
  | fail k => exact ⟨e, bytes.take k, rfl, List.take_prefix _ _, fun h => absurd h (by simp)⟩

theorem chSend_ok {bytes : List Byte} {rest : List SendOutcome} (h : s.env.sends = .ok :: rest) :
    s.chSend bytes = (true, (s.setEnv { s.env with sends := rest }).setTx (s.tx ++ bytes)) := by
  simp [chSend, s.drawSend_known h]

theorem chSend_fail {bytes : List Byte} {k : Nat} {rest : List SendOutcome}
    (h : s.env.sends = .fail k :: rest) :
    s.chSend bytes =
      (false, (s.setEnv { s.env with sends := rest }).setTx (s.tx ++ bytes.take k)) := by
  simp [chSend, s.drawSend_known h]

/-- A receive takes exactly the bytes asked for, or some of them and fails, or nothing and has no
step (rules R49, R102). -/
theorem chRecvExact_spec (n : Nat) :
    ∃ e, (s.chRecvExact n = (.ok (s.rx.take n), (s.setEnv e).setRx (s.rx.drop n)) ∧
        n ≤ s.rx.length) ∨
      (∃ k ≤ n, s.chRecvExact n = (.fail, (s.setEnv e).setRx (s.rx.drop k))) ∨
      (s.chRecvExact n = (.block, s.setEnv e) ∧ s.rx.length < n) := by
  obtain ⟨e, he⟩ := s.drawRecv_spec
  refine ⟨e, ?_⟩
  unfold chRecvExact
  rcases hd : s.drawRecv with ⟨o, s'⟩
  obtain rfl : s' = s.setEnv e := by rw [hd] at he; exact he
  cases o with
  | deliver =>
    by_cases h : n ≤ s.rx.length
    · exact .inl ⟨if_pos h, h⟩
    · exact .inr (.inr ⟨if_neg h, by omega⟩)
  | fail k => exact .inr (.inl ⟨min k n, Nat.min_le_right _ _, rfl⟩)

theorem chRecvExact_deliver {n : Nat} {rest : List RecvOutcome}
    (h : s.env.recvs = .deliver :: rest) (hn : n ≤ s.rx.length) :
    s.chRecvExact n =
      (.ok (s.rx.take n), (s.setEnv { s.env with recvs := rest }).setRx (s.rx.drop n)) := by
  simp [chRecvExact, s.drawRecv_known h, hn]

theorem chRecvExact_wait {n : Nat} {rest : List RecvOutcome}
    (h : s.env.recvs = .deliver :: rest) (hn : s.rx.length < n) :
    s.chRecvExact n = (.block, s.setEnv { s.env with recvs := rest }) := by
  simp [chRecvExact, s.drawRecv_known h, Nat.not_le.2 hn]

end State

/-! ### Pin locks -/

/-- An attempt on a held pin fails or waits, and changes only the environment's choices. -/
theorem contend_spec (s : State) : ∃ e,
    contend s = .failed .errPinContention (s.setEnv e) ∨ contend s = .blocked (s.setEnv e) := by
  unfold contend
  cases s.cfg.pinContention with
  | block => exact ⟨s.env, .inr rfl⟩
  | fail => exact ⟨s.env, .inl rfl⟩
  | either =>
    obtain ⟨e, he⟩ := s.drawPinChoice_spec
    rcases hd : s.drawPinChoice with ⟨o, s'⟩
    rw [hd] at he
    cases he
    cases o with
    | block => exact ⟨e, .inr rfl⟩
    | fail => exact ⟨e, .inl rfl⟩

/-- An acquisition: granted only where the lock was free; unknown only where the index has no entry;
else nothing changes but the environment's choices (rule R52). -/
theorem acquirePin_spec (s : State) (i : Nat) (who : PinOwner) :
    (acquirePin s i who = .granted (s.setPin i (.held who)) ∧ s.pinlock[i]? = some .free) ∨
    (acquirePin s i who = .failed .errPinUnknown s ∧ s.pinlock[i]? = none) ∨
    (∃ e, acquirePin s i who = .failed .errPinContention (s.setEnv e) ∧
      (s.pinlock[i]? = some .poisoned ∨ ∃ o, s.pinlock[i]? = some (.held o))) ∨
    (∃ e o, acquirePin s i who = .blocked (s.setEnv e) ∧ s.pinlock[i]? = some (.held o)) := by
  unfold acquirePin
  split
  next h => exact .inr (.inl ⟨rfl, h⟩)
  next h => exact .inl ⟨rfl, h⟩
  next h => exact .inr (.inr (.inl ⟨s.env, rfl, .inl h⟩))
  next o h =>
    obtain ⟨e, he | he⟩ := contend_spec s
    · exact .inr (.inr (.inl ⟨e, he, .inr ⟨o, h⟩⟩))
    · exact .inr (.inr (.inr ⟨e, o, he, h⟩))

/-- The mark of a blocked attempt after a release is the one before it, and not that pin. -/
theorem State.unmark_eq_some {i j : Nat} {on : Option Nat} :
    State.unmark i on = some j ↔ on = some j ∧ j ≠ i := by
  unfold State.unmark
  split
  next h => subst h; simp; omega
  next h => exact ⟨fun e => ⟨e, fun hij => h (hij ▸ e)⟩, fun e => e.1⟩

@[simp] theorem State.stillBlocked_none (s : State) : s.stillBlocked none = false := rfl

@[simp] theorem State.unmark_none (i : Nat) : State.unmark i none = none := rfl

theorem State.unmark_comm (i j : Nat) (on : Option Nat) :
    State.unmark i (State.unmark j on) = State.unmark j (State.unmark i on) := by
  simp only [State.unmark]
  split <;> split <;> simp_all

/-- Two releases let the same callers proceed in either order. -/
theorem State.wake_comm (s : State) (i j : Nat) : (s.wake i).wake j = (s.wake j).wake i := by
  simp [State.wake, State.setWaiting, State.setParked, State.unmark_comm]

/-- An attempt that is made, and is not marked as blocked on a held pin (rule R52): granted, failed, or
marked as blocked on the pin, which is held; one that is marked so is not made. -/
theorem State.acquireStep_spec (s : State) (i : Nat) (granted : State → State)
    (failed : Status → State → State) :
    (s.stillBlocked s.parked = true ∧ s.acquireStep i granted failed = .waits s) ∨
    (s.stillBlocked s.parked = false ∧
      ((s.pinlock[i]? = some .free ∧ s.acquireStep i granted failed =
          .moved (granted ((s.setPin i (.held .engine)).setParked none))) ∨
        (∃ st e, st ≠ .ok ∧ st ≠ .errIo ∧ s.acquireStep i granted failed =
          .moved (failed st ((s.setEnv e).setParked none))) ∨
        (∃ e o, s.pinlock[i]? = some (.held o) ∧ s.acquireStep i granted failed =
          .waits ((s.setEnv e).setParked (some i))))) := by
  unfold acquireStep
  cases hb : s.stillBlocked s.parked with
  | true => exact .inl ⟨rfl, if_pos rfl⟩
  | false =>
    refine .inr ⟨rfl, ?_⟩
    obtain ⟨h, hf⟩ | ⟨h, -⟩ | ⟨e, h, -⟩ | ⟨e, o, h, ho⟩ := acquirePin_spec s i .engine
    · exact .inl ⟨hf, by simp [h]⟩
    · exact .inr (.inl ⟨.errPinUnknown, s.env, by simp, by simp, by simp [h]⟩)
    · exact .inr (.inl ⟨.errPinContention, e, by simp, by simp, by simp [h]⟩)
    · exact .inr (.inr ⟨e, o, ho, by simp [h]⟩)

/-- What `PINLOCK[j]` reads after a write of `PINLOCK[i]`. -/
theorem State.setPin_read (s : State) (i j : Nat) (l : PinLock) :
    (s.setPin i l).pinlock[j]? =
      if i = j ∧ i < s.pinlock.length then some l else s.pinlock[j]? := by
  simp only [State.setPin, State.setPinlock_pinlock, List.getElem?_set]
  split <;> split <;> simp_all

/-! ### Running the sequencer and the closer -/

namespace State

/-- What every step of the sequencer keeps, a run of any length keeps. -/
theorem seqRun_induct {P : State → Prop}
    (h : ∀ s, P s → P s.seqStep.state) (n : Nat) (s : State) (hs : P s) : P (seqRun n s) := by
  induction n generalizing s with
  | zero => exact hs
  | succ n ih =>
    unfold seqRun
    have hstep := h s hs
    cases hp : s.seqStep with
    | moved s' => rw [hp] at hstep; exact ih s' hstep
    | waits s' => rw [hp] at hstep; exact hstep

theorem seqRun_moved {s s' : State} (n : Nat) (h : s.seqStep = .moved s') :
    seqRun (n + 1) s = seqRun n s' := by
  simp [seqRun, h]

theorem seqRun_waits {s s' : State} (n : Nat) (h : s.seqStep = .waits s') :
    seqRun (n + 1) s = s' := by
  simp [seqRun, h]

theorem seqRun_idle (n : Nat) {s : State} (h : s.phase = .idle) : seqRun n s = s := by
  cases n with
  | zero => rfl
  | succ n => exact seqRun_waits n (by simp [seqStep, h])

/-- The sequencer's turn keeps what a change of the environment's choices and every step of the
sequencer keep. -/
theorem runSequencer_induct {P : State → Prop} (henv : ∀ s e, P s → P (s.setEnv e))
    (h : ∀ s, P s → P s.seqStep.state) (s : State) (hs : P s) : P s.runSequencer := by
  unfold runSequencer
  split
  · exact hs
  · obtain ⟨e, he⟩ := s.drawBurst_spec
    rw [he]
    exact seqRun_induct h _ _ (henv _ _ hs)

theorem closeRun_induct {P : State → Prop}
    (h : ∀ s, P s → P s.closeStep) (n : Nat) (s : State) (hs : P s) : P (closeRun n s) := by
  induction n generalizing s with
  | zero => exact hs
  | succ n ih => exact ih _ (h s hs)

theorem runCloser_induct {P : State → Prop} (henv : ∀ s e, P s → P (s.setEnv e))
    (h : ∀ s, P s → P s.closeStep) (s : State) (hs : P s) : P s.runCloser := by
  unfold runCloser
  split
  · exact hs
  · obtain ⟨e, he⟩ := s.drawBurst_spec
    rw [he]
    exact closeRun_induct h _ _ (henv _ _ hs)

/-! ### The steps at the phases of one kind -/

/-- The step at a phase that writes `bytes`: it moves on with all of them on TX, or it is aborted
with a prefix of them there (rules R48, R156). -/
theorem afterWrite_spec (s : State) (onFail : State → State) (bytes : List Byte) :
    ∃ e, afterWrite onFail (s.chSend bytes) =
        .moved (((s.setEnv e).setTx (s.tx ++ bytes)).setPhase (s.phase.next s.cfg)) ∨
      ∃ p, p <+: bytes ∧
        afterWrite onFail (s.chSend bytes) = .moved (onFail ((s.setEnv e).setTx (s.tx ++ p))) := by
  obtain ⟨e, p, h2, hp, h1⟩ := s.chSend_spec bytes
  refine ⟨e, ?_⟩
  rcases hc : s.chSend bytes with ⟨b, s'⟩
  rw [hc] at h2 h1
  cases b with
  | true =>
    simp only at h1 h2
    left
    rw [h2, h1 trivial]
    rfl
  | false =>
    simp only at h2
    right
    exact ⟨p, hp, by rw [h2]; rfl⟩

/-- The step at a phase that takes the Channel lock (rule R55). -/
theorem lockStep_spec (s : State) :
    (s.chlock = .free ∧
      s.lockStep = .moved ((s.setChlock (.held .sequencer)).setPhase (s.phase.next s.cfg))) ∨
    ((∃ o, s.chlock = .held o) ∧ s.lockStep = .waits s) := by
  unfold lockStep
  cases s.chlock with
  | free => exact .inl ⟨rfl, rfl⟩
  | held o => exact .inr ⟨⟨o, rfl⟩, rfl⟩

/-- The step at a phase that receives the reply tag (rules R109, R160). -/
theorem tagStep_spec (s : State) : ∃ e,
    (∃ b more, s.rx = b :: more ∧ b = s.cfg.tagData ∧
      s.tagStep = .moved (((s.setEnv e).setRx more).setPhase (s.phase.next s.cfg))) ∨
    (∃ b more, s.rx = b :: more ∧ b ≠ s.cfg.tagData ∧
      s.tagStep = .moved (((s.setEnv e).setRx more).raise (.errDesync b))) ∨
    (∃ k ≤ 1, s.tagStep = .moved (((s.setEnv e).setRx (s.rx.drop k)).raise .errIo)) ∨
    (s.rx = [] ∧ s.tagStep = .waits (s.setEnv e)) := by
  unfold tagStep
  obtain ⟨e, ⟨he, hn⟩ | ⟨k, hk, he⟩ | ⟨he, hn⟩⟩ := s.chRecvExact_spec 1
  · refine ⟨e, ?_⟩
    rw [he]
    cases hx : s.rx with
    | nil => simp [hx] at hn
    | cons b more =>
      by_cases hb : b = s.cfg.tagData
      · exact .inl ⟨b, more, rfl, hb, by simp [checkTag, hb]⟩
      · exact .inr (.inl ⟨b, more, rfl, hb, by simp [checkTag, hb]⟩)
  · exact ⟨e, .inr (.inr (.inl ⟨k, hk, by rw [he]⟩))⟩
  · exact ⟨e, .inr (.inr (.inr ⟨List.length_eq_zero_iff.1 (by omega), by rw [he]⟩))⟩

/-- The step at a phase that receives the payload (rules R109, R190). -/
theorem payloadStep_spec (s : State) : ∃ e,
    (s.rlen.toNat ≤ s.rx.length ∧ s.payloadStep = .moved
      ((((s.setEnv e).setRx (s.rx.drop s.rlen.toNat)).setRbuf
        (overlay (s.rx.take s.rlen.toNat) s.rbuf)).setPhase (s.phase.next s.cfg))) ∨
    (∃ k ≤ s.rlen.toNat, ∃ junk : List Byte, junk.length = s.rlen.toNat ∧ s.payloadStep = .moved
      ((((s.setEnv e).setRx (s.rx.drop k)).setRbuf (overlay junk s.rbuf)).raise .errIo)) ∨
    (s.rx.length < s.rlen.toNat ∧ s.payloadStep = .waits (s.setEnv e)) := by
  unfold payloadStep
  obtain ⟨e, ⟨he, hn⟩ | ⟨k, hk, he⟩ | ⟨he, hn⟩⟩ := s.chRecvExact_spec s.rlen.toNat
  · exact ⟨e, .inl ⟨hn, by rw [he]; rfl⟩⟩
  · exact ⟨_, .inr (.inl ⟨k, hk, _, drawBytes_length _ _, by rw [he]; rfl⟩)⟩
  · exact ⟨e, .inr (.inr ⟨hn, by rw [he]⟩)⟩

/-- One step of the sequencer by the kind of its phase (rule R16's table): every phase that writes
writes its own bytes. -/
theorem seqStep_spec (s : State) :
    (s.phase = .idle ∧ s.seqStep = .waits s) ∨
    (s.phase = .oAcqScl ∧ s.seqStep = s.acqSclStep) ∨
    (s.phase = .oAcqSda ∧ s.seqStep = s.acqSdaStep) ∨
    ((s.phase = .oLock ∨ s.phase = .sLock ∨ s.phase = .rLock ∨ s.phase = .tLock) ∧
      s.seqStep = s.lockStep) ∨
    (s.phase = .oEnable ∧ s.seqStep = afterWrite abortIo (s.chSend s.phaseBytes)) ∨
    (s.phase.locked = true ∧ s.phase ≠ .unlock ∧ s.phase ≠ .oEnable ∧
      s.seqStep = afterWrite raiseIo (s.chSend s.phaseBytes)) ∨
    ((s.phase = .rTag ∨ s.phase = .tTag) ∧ s.seqStep = s.tagStep) ∨
    ((s.phase = .rPayload ∨ s.phase = .tPayload) ∧ s.seqStep = s.payloadStep) ∨
    (s.phase = .unlock ∧ s.seqStep = .moved s.releaseChannel.endJob) := by
  unfold seqStep
  cases hp : s.phase
  case idle => exact .inl ⟨rfl, rfl⟩
  case oAcqScl => exact .inr (.inl ⟨rfl, rfl⟩)
  case oAcqSda => exact .inr (.inr (.inl ⟨rfl, rfl⟩))
  case oLock | sLock | rLock | tLock => exact .inr (.inr (.inr (.inl ⟨by simp, rfl⟩)))
  case oEnable => exact .inr (.inr (.inr (.inr (.inl ⟨rfl, by simp [phaseBytes, hp]; rfl⟩))))
  case rTag | tTag => exact .inr (.inr (.inr (.inr (.inr (.inr (.inl ⟨by simp, rfl⟩))))))
  case rPayload | tPayload =>
    exact .inr (.inr (.inr (.inr (.inr (.inr (.inr (.inl ⟨by simp, rfl⟩)))))))
  case unlock => exact .inr (.inr (.inr (.inr (.inr (.inr (.inr (.inr ⟨rfl, rfl⟩)))))))
  all_goals
    exact .inr (.inr (.inr (.inr (.inr (.inl
      ⟨rfl, by simp, by simp, by simp [phaseBytes, hp]; rfl⟩)))))

/-! ### The end of a job -/

/-- The end of an OPEN changes what it acquired, or not, and reports (rule R126). -/
theorem endOpen_spec (s : State) :
    (s.outcome = .ok ∧ s.endOpen = (s.setExists true).finish .ok (.status .ok)) ∨
    (s.outcome ≠ .ok ∧ s.endOpen =
      ((((s.releasePin pinSda).releasePin pinScl).setHasSda false).setHasScl false).finish
        s.outcome (.status s.outcome)) := by
  unfold endOpen
  by_cases h : s.outcome = .ok
  · exact .inl ⟨h, if_pos h⟩
  · exact .inr ⟨h, if_neg h⟩

/-- The end of a job: the end of an OPEN, or the report and nothing else; an operation's `STATUS` is
its outcome (rules R18, R187). -/
theorem endJob_spec (s : State) :
    (s.job = .operation ∧ s.opsel = .openEngine ∧ s.endJob = s.endOpen) ∨
    (s.job = .operation ∧ s.opsel ≠ .openEngine ∧ ∃ r, s.endJob = s.finish s.outcome r) ∨
    (s.job = .bareReply ∧ s.endJob = s.finish s.replyStatus s.replyRet) := by
  unfold endJob
  cases hj : s.job with
  | bareReply => exact .inr (.inr ⟨rfl, rfl⟩)
  | operation =>
    unfold endOperation
    cases ho : s.opsel <;> first
      | exact .inl ⟨rfl, rfl, rfl⟩
      | exact .inr (.inl ⟨rfl, by simp, ⟨_, rfl⟩⟩)

/-- Whatever the job, its end leaves the sequencer idle and the Channel as it is. -/
theorem endJob_frame (s : State) : s.endJob.phase = .idle ∧ s.endJob.tx = s.tx ∧
    s.endJob.rx = s.rx ∧ s.endJob.chlock = s.chlock ∧ s.endJob.cfg = s.cfg := by
  obtain ⟨-, -, h⟩ | ⟨-, -, r, h⟩ | ⟨-, h⟩ := s.endJob_spec
  · rw [h]
    obtain ⟨-, h⟩ | ⟨-, h⟩ := s.endOpen_spec <;> rw [h] <;>
      simp [finish, releasePin, setPin]
  · rw [h]; simp [finish]
  · rw [h]; simp [finish]

/-- An operation's `STATUS` is its outcome (rule R18). -/
theorem endJob_status (s : State) (hj : s.job = .operation) : s.endJob.status = s.outcome := by
  obtain ⟨-, -, h⟩ | ⟨-, -, r, h⟩ | ⟨h, -⟩ := s.endJob_spec
  · rw [h]
    obtain ⟨ho, h⟩ | ⟨-, h⟩ := s.endOpen_spec <;> rw [h] <;> simp [finish, *]
  · rw [h]; simp [finish]
  · rw [hj] at h; cases h

end State

/-! ### Calls -/

/-- A bare command frame waits while the Channel lock is held, else leaves a prefix of its bytes on
TX, all of them where it reports `ok` (rules R55, R101). -/
theorem bareFrame_spec (call : Instr) (opcode : Byte) (payload : List Byte) (s : State) :
    ((∃ o, s.chlock = .held o) ∧ bareFrame call opcode payload s = .next (s.defer call)) ∨
    (s.chlock = .free ∧ ∃ e p sent, p <+: opcode :: payload ∧ (sent = true → p = opcode :: payload) ∧
      bareFrame call opcode payload s =
        .next (((s.setEnv e).setTx (s.tx ++ p)).answer s.caller (.frame sent))) := by
  unfold bareFrame
  cases hc : s.chlock with
  | held o => exact .inl ⟨⟨o, rfl⟩, rfl⟩
  | free =>
    obtain ⟨e, p, h2, hp, h1⟩ := (s.setChlock (.held .sequencer)).chSend_spec (opcode :: payload)
    refine .inr ⟨rfl, e, p, _, hp, h1, ?_⟩
    simp only [State.chSendFrame]
    rw [h2]
    simp [State.releaseChannel, State.setChlock, State.setEnv, State.setTx, State.answer, hc]

/-- What accepting an operation comes to (rules R150, R151). -/
theorem acceptOperation_spec (bad : Option Refusal) (call : Instr) (latched : State) (first : Phase)
    (s : State) :
    (∃ r, bad = some r ∧ acceptOperation bad call latched first s = .refused r) ∨
    (bad = none ∧ s.engExists = false ∧
      acceptOperation bad call latched first s = .refused .noEngine) ∨
    (bad = none ∧ s.engExists = true ∧ s.phase ≠ .idle ∧
      acceptOperation bad call latched first s = .next (s.defer call)) ∨
    (bad = none ∧ s.engExists = true ∧ s.phase = .idle ∧
      acceptOperation bad call latched first s = .next (latched.setPhase first).runSequencer) := by
  unfold acceptOperation
  cases bad with
  | some r => exact .inl ⟨r, rfl, rfl⟩
  | none =>
    cases he : s.engExists with
    | false => exact .inr (.inl ⟨rfl, rfl, rfl⟩)
    | true =>
      by_cases hp : s.phase = .idle
      · exact .inr (.inr (.inr ⟨rfl, rfl, hp, by simp [hp]⟩))
      · exact .inr (.inr (.inl ⟨rfl, rfl, hp, by simp [hp]⟩))

/-- Operands are in contract exactly where there is nothing to refuse (rules R77, R78). -/
theorem contractRefusal_none {addr : Nat} {lengths : List Nat} :
    contractRefusal addr lengths = none ↔ addr < 128 ∧ ∀ n ∈ lengths, n ≤ maxLen := by
  unfold contractRefusal
  by_cases h : addr < 128 <;> simp [addrInContract, lenInContract, h]

/-! ### The agents' turns -/

/-- Where a holder may fail (log entry 19): a pin user outside this model, or a thread inside no call. -/
theorem State.mayFail_iff {s : State} {i : Nat} : s.mayFail i = true ↔
    s.pinlock[i]? = some (.held .other) ∨
      ∃ t, s.pinlock[i]? = some (.held (.host t)) ∧ t ∉ s.inCall := by
  unfold State.mayFail
  split <;> simp_all

/-- The first call of a thread is taken out of the queue, and the other calls stay in their order. -/
theorem takeCall_append {t : Nat} {before behind : List Call} {c : Call}
    (hb : ∀ d ∈ before, d.thread ≠ t) (hc : c.thread = t) :
    takeCall t (before ++ c :: behind) = some (c, before ++ behind) := by
  induction before with
  | nil => simp [takeCall, hc]
  | cons d before ih =>
    have hd := hb d (by simp)
    simp [takeCall, hd, ih fun x hx => hb x (by simp [hx])]

/-- A thread that waits is inside its call, and a thread that issues a call is inside none: what a step
gives `exec` to run, and for whom; or the step of another agent. -/
theorem step_cases {s t : State} (h : step s = .next t) : ∃ e,
    let u := s.setEnv e
    (∃ th c rest i more, th ∉ s.inCall ∧ takeCall th s.calls = some (c, rest) ∧
      decode s.cfg c.space c.bytes = .ok (i, more) ∧
      exec i ((u.setCalls rest).setCaller th) = .next t) ∨
    (∃ k w, s.waiting[k]? = some w ∧ s.stillBlocked w.blockedOn = false ∧
      exec w.instr ((u.setWaiting (s.waiting.eraseIdx k)).setCaller w.thread) = .next t) ∨
    t = u ∨ t = u.runSequencer ∨ t = u.runCloser ∨ ∃ m, t = applyEnv m u := by
  obtain ⟨e, he⟩ := s.drawTurn_spec
  refine ⟨e, ?_⟩
  unfold step at h
  rw [he] at h
  cases hT : s.drawTurn.1 with
  | call th =>
    rw [hT] at h
    simp only [serveTurn, serveCall] at h
    split at h
    next => cases h; exact .inr (.inr (.inl rfl))
    next hin =>
      split at h
      next => cases h; exact .inr (.inr (.inl rfl))
      next c rest hc =>
        split at h
        next => cases h
        next i more hd =>
          exact .inl ⟨th, c, rest, i, more, fun hm => hin (List.contains_iff_mem.2 hm), hc, hd, h⟩
  | retry k =>
    rw [hT] at h
    simp only [serveTurn, serveWaiter] at h
    split at h
    next => cases h; exact .inr (.inr (.inl rfl))
    next w hw =>
      split at h
      next => cases h; exact .inr (.inr (.inl rfl))
      next hb => exact .inr (.inl ⟨k, w, hw, Bool.eq_false_iff.2 hb, h⟩)
  | sequencer =>
    rw [hT] at h
    cases h
    exact .inr (.inr (.inr (.inl rfl)))
  | closer =>
    rw [hT] at h
    cases h
    exact .inr (.inr (.inr (.inr (.inl rfl))))
  | env m =>
    rw [hT] at h
    cases h
    exact .inr (.inr (.inr (.inr (.inr ⟨m, rfl⟩))))

end Sys2Proof.Machine
end

