-- ==== Sys2Proof/Laws/PerInstr.lean ====
section
/-! SUPPORT. A law stated per instruction: how many bytes its encoding has, whatever the parameters
(rules R70 to R72, R84; for requests log entry 3). -/

namespace Sys2Proof.Laws.EncodeLength

/-- The length of an instruction's encoding. -/
def size : Instr → Nat
  | .enableI2c _ => 2
  | .start _ _ => 2
  | .tx _ => 2
  | .rx _ => 2
  | .stop => 1
  | .data _ => 2
  | .openEngine _ => 5
  | .send _ w => 3 + w.length
  | .read _ _ => 3
  | .transfer _ w _ => 4 + w.length
  | .close => 1
  | .divisor _ => 5
  | .pin _ => 5
  | .pinRelease _ => 5

/-- The encoding has that length, and in contract it is no longer than 259 bytes, the room that
`tableBytes` gives an instruction. -/
def Statement (i : Instr) : Prop :=
  (∀ c, (encode c i).length = size i) ∧ (i.wellFormed = true → size i ≤ 259)

theorem enableI2c (d : Byte) : Statement (.enableI2c d) := ⟨fun _ => rfl, fun _ => by simp [size]⟩
theorem start (a : BusAddr) (d : Dir) : Statement (.start a d) := ⟨fun _ => rfl, fun _ => by simp [size]⟩
theorem tx (n : Byte) : Statement (.tx n) := ⟨fun _ => rfl, fun _ => by simp [size]⟩
theorem rx (n : Byte) : Statement (.rx n) := ⟨fun _ => rfl, fun _ => by simp [size]⟩
theorem stop : Statement .stop := ⟨fun _ => rfl, fun _ => by simp [size]⟩
theorem data (n : Byte) : Statement (.data n) := ⟨fun _ => rfl, fun _ => by simp [size]⟩
theorem openEngine (f : Freq) : Statement (.openEngine f) := ⟨fun _ => rfl, fun _ => by simp [size]⟩

theorem send (a : Nat) (w : List Byte) : Statement (.send a w) := by
  refine ⟨fun c => ?_, fun h => ?_⟩
  · simp [encode, size]; omega
  · simp [Instr.wellFormed, lenInContract, maxLen] at h; simp [size]; omega

theorem read (a n : Nat) : Statement (.read a n) := ⟨fun _ => rfl, fun _ => by simp [size]⟩

theorem transfer (a : Nat) (w : List Byte) (n : Nat) : Statement (.transfer a w n) := by
  refine ⟨fun c => ?_, fun h => ?_⟩
  · simp [encode, size]; omega
  · simp [Instr.wellFormed, lenInContract, maxLen] at h; simp [size]; omega

theorem close : Statement .close := ⟨fun _ => rfl, fun _ => by simp [size]⟩
theorem divisor (f : Freq) : Statement (.divisor f) := ⟨fun _ => rfl, fun _ => by simp [size]⟩
theorem pin (i : Nat) : Statement (.pin i) := ⟨fun _ => rfl, fun _ => by simp [size]⟩
theorem pinRelease (i : Nat) : Statement (.pinRelease i) := ⟨fun _ => rfl, fun _ => by simp [size]⟩

end Sys2Proof.Laws.EncodeLength
end

