-- ==== Sys2Proof/Laws/Wire.lean ====
section
/-! SUPPORT. What the job in progress puts on TX depends on its latched operands and on its phase
only: one lemma per update that leaves these alone. -/

namespace Sys2Proof.Machine.State

variable (s : State)

@[simp] theorem fullRun_setEnv (e : Env) : (s.setEnv e).fullRun = s.fullRun := rfl
@[simp] theorem writtenRun_setEnv (e : Env) :
    (s.setEnv e).writtenRun = s.writtenRun := rfl
@[simp] theorem fullRun_setTx (b : List Byte) : (s.setTx b).fullRun = s.fullRun := rfl
@[simp] theorem writtenRun_setTx (b : List Byte) :
    (s.setTx b).writtenRun = s.writtenRun := rfl
@[simp] theorem fullRun_setRx (b : List Byte) : (s.setRx b).fullRun = s.fullRun := rfl
@[simp] theorem writtenRun_setRx (b : List Byte) :
    (s.setRx b).writtenRun = s.writtenRun := rfl
@[simp] theorem fullRun_setChlock (l : ChLock) : (s.setChlock l).fullRun = s.fullRun := rfl
@[simp] theorem writtenRun_setChlock (l : ChLock) :
    (s.setChlock l).writtenRun = s.writtenRun := rfl
@[simp] theorem fullRun_setRbuf (b : List Byte) : (s.setRbuf b).fullRun = s.fullRun := rfl
@[simp] theorem writtenRun_setRbuf (b : List Byte) :
    (s.setRbuf b).writtenRun = s.writtenRun := rfl
@[simp] theorem fullRun_setStatus (st : Status) : (s.setStatus st).fullRun = s.fullRun := rfl
@[simp] theorem writtenRun_setStatus (st : Status) :
    (s.setStatus st).writtenRun = s.writtenRun := rfl
@[simp] theorem fullRun_setOutcome (st : Status) : (s.setOutcome st).fullRun = s.fullRun := rfl
@[simp] theorem writtenRun_setOutcome (st : Status) :
    (s.setOutcome st).writtenRun = s.writtenRun := rfl
@[simp] theorem fullRun_answer (t : Nat) (r : Ret) : (s.answer t r).fullRun = s.fullRun := rfl
@[simp] theorem writtenRun_answer (t : Nat) (r : Ret) :
    (s.answer t r).writtenRun = s.writtenRun := rfl
@[simp] theorem fullRun_wake (i : Nat) : (s.wake i).fullRun = s.fullRun := rfl
@[simp] theorem writtenRun_wake (i : Nat) : (s.wake i).writtenRun = s.writtenRun := rfl
@[simp] theorem fullRun_setPhase (p : Phase) : (s.setPhase p).fullRun = s.fullRun := rfl

end Sys2Proof.Machine.State
end

