-- ==== Sys2Proof/Tests/Slice0.lean ====
section
/-! SUPPORT. Tests: ill-formed terms that WellFormed refuses, words written out from the encodings of
30_encoding.md, single steps with the results of 95_test_vectors.md, and for each obligation with
hypotheses a state and operands that meet them. -/

namespace Sys2Proof.Tests

open Sys2Proof Sys2Proof.Machine

/-! ### The checks of WellFormed -/

theorem test_wf_send_address : (Instr.send 128 []).wellFormed = false := by decide
theorem test_wf_send_length : (Instr.send 0 (List.replicate 256 0)).wellFormed = false := by
  decide +kernel
theorem test_wf_read_address : (Instr.read 128 0).wellFormed = false := by decide
theorem test_wf_read_length : (Instr.read 0 256).wellFormed = false := by decide
theorem test_wf_transfer_address : (Instr.transfer 128 [] 0).wellFormed = false := by decide
theorem test_wf_transfer_write : (Instr.transfer 0 (List.replicate 256 0) 0).wellFormed = false := by
  decide +kernel
theorem test_wf_transfer_read : (Instr.transfer 0 [] 256).wellFormed = false := by decide
theorem test_wf_pin : (Instr.pin (2 ^ 32)).wellFormed = false := by decide
theorem test_wf_pin_release : (Instr.pinRelease (2 ^ 32)).wellFormed = false := by decide
theorem test_wf_limits : (Instr.transfer 127 (List.replicate 255 0) 255).wellFormed = true := by
  decide +kernel

/-! ### Decoding, one word per constructor (30_encoding.md rules R71 to R77, R85; the layout of the
requests is log entry 3) -/

/-- V4.2: `0C 04`. -/
theorem test_decode_enable : decode Config.gk .command [0x0C, 0x04] = .ok (.enableI2c 4, []) := by
  decide
/-- V4.7: `13 3B`, bits 0011101 1. -/
theorem test_decode_start :
    decode Config.gk .command [0x13, 0b00111011] = .ok (.start 0x1D .read, []) := by decide
/-- V4.4: `13 00`. -/
theorem test_decode_start_write :
    decode Config.gk .command [0x13, 0x00] = .ok (.start 0 .write, []) := by decide
/-- V4.12: `10 03`. -/
theorem test_decode_tx : decode Config.gk .command [0x10, 0x03] = .ok (.tx 3, []) := by decide
/-- V4.15: `11 06`. -/
theorem test_decode_rx : decode Config.gk .command [0x11, 0x06] = .ok (.rx 6, []) := by decide
/-- V4.17: `14`, and nothing of what follows. -/
theorem test_decode_stop : decode Config.gk .command [0x14, 0x13] = .ok (.stop, [0x13]) := by decide
theorem test_decode_data : decode Config.gk .reply [0x84, 0x02] = .ok (.data 2, []) := by decide
/-- 100 000 = 0x000186A0. -/
theorem test_decode_open :
    decode Config.gk .request [0x00, 0xA0, 0x86, 0x01, 0x00] = .ok (.openEngine 100000, []) := by
  decide
theorem test_decode_send :
    decode Config.gk .request [0x01, 0x1D, 0x02, 0x2A, 0x01, 0xFF] =
      .ok (.send 0x1D [0x2A, 0x01], [0xFF]) := by decide
theorem test_decode_read :
    decode Config.gk .request [0x02, 0x1D, 0x03] = .ok (.read 0x1D 3, []) := by decide
theorem test_decode_transfer :
    decode Config.gk .request [0x03, 0x1D, 0x02, 0x01, 0x0F] = .ok (.transfer 0x1D [0x0F] 2, []) := by
  decide
theorem test_decode_close : decode Config.gk .request [0x04] = .ok (.close, []) := by decide
theorem test_decode_divisor :
    decode Config.gk .request [0x05, 0x00, 0x9F, 0x24, 0x00] = .ok (.divisor 2400000, []) := by
  decide
theorem test_decode_pin :
    decode Config.gk .request [0x06, 0x08, 0x01, 0x00, 0x00] = .ok (.pin 264, []) := by decide
theorem test_decode_pin_release :
    decode Config.gk .request [0x07, 0x03, 0x00, 0x00, 0x00] = .ok (.pinRelease 3, []) := by decide

theorem test_decode_unknown_opcode :
    decode Config.gk .command [0x80, 0x00] = .error (.unknownOpcode 0x80) := by decide
theorem test_decode_unknown_tag :
    decode Config.gk .reply [0x80, 0x00] = .error (.unknownTag 0x80) := by decide
theorem test_decode_truncated : decode Config.gk .command [0x13] = .error .truncated := by decide
theorem test_decode_short_buffer :
    decode Config.gk .request [0x01, 0x1D, 0x02, 0x2A] = .error .truncated := by decide
theorem test_decode_address :
    decode Config.gk .request [0x02, 0x80, 0x00] = .error (.addressOutOfContract 0x80) := by decide
theorem test_decode_selector :
    decode Config.gk .request [0x0C] = .error (.selectorBits 0x0C) := by decide
theorem test_table_rows :
    ([0x0C, 0x13, 0x10, 0x11, 0x14, 0x84, 0, 1, 2, 3, 4, 5, 6, 7].map (decodeTableWord 8)) =
      [some (.enableI2c 0), some (.start 0 .write), some (.tx 0), some (.rx 0), some .stop,
        some (.data 0), some (.openEngine 0), some (.send 0 []), some (.read 0 0),
        some (.transfer 0 [] 0), some .close, some (.divisor 0), some (.pin 0),
        some (.pinRelease 0)] := by decide +kernel

/-! ### Small states -/

/-- An environment in which the next Channel calls succeed and no operation is interrupted. -/
def calm : Env :=
  ⟨[], [10], List.replicate 6 .ok, List.replicate 2 .deliver, [], [.sdaFirst], 0⟩

/-- A constructed port with `rx` in RX. -/
def port (rx : List Byte) : State := { State.reset with rx := rx, env := calm }

/-- The port after `i2c(100000)` (rule R30, the start state of the vectors' section 6). -/
def opened (rx : List Byte) : State :=
  { port rx with
    engExists := true, hasScl := true, hasSda := true, freq := 100000, tx := [0x0C, 0xEA],
    pinlock := [.held .engine, .held .engine] ++ List.replicate 6 .free }

/-- The port with another user's hold on the data pin. -/
def sdaTaken (c : PinChoice) : State :=
  { port [] with
    pinlock := [.free, .held .other] ++ List.replicate 6 .free, env := { calm with pinChoices := [c] } }

/-- The state after a step; the reset state where the step is refused. -/
def after (o : Out) : State :=
  match o with
  | .next t => t
  | _ => State.reset

/-- A read that waits for its reply: `read(0x1D, 3)` of V6.17. -/
def reading (rx : List Byte) : State :=
  { opened rx with
    phase := .rTag, chlock := .held .sequencer, opsel := .read, addr := 0x1D, rlen := 3,
    tx := [0x0C, 0xEA, 0x13, 0x3B, 0x11, 0x03, 0x14] }

/-! ### Single steps (95_test_vectors.md) -/

/-- V4.2. -/
theorem test_enable : (after (exec (.enableI2c 4) (port []))).tx = [0x0C, 0x04] := by decide
/-- V4.7. -/
theorem test_start : (after (exec (.start 0x1D .read) (port []))).tx = [0x13, 0x3B] := by decide
/-- V4.19: a failed write leaves one byte. -/
theorem test_start_fails :
    let t := after (exec (.start 0x1D .write) { port [] with env := { calm with sends := [.fail 1] } })
    t.tx = [0x13] ∧ t.ret = .frame false ∧ t.chlock = .free := by decide
/-- V4.13. -/
theorem test_tx : (after (exec (.tx 255) (port []))).tx = [0x10, 0xFF] := by decide
/-- V4.15. -/
theorem test_rx : (after (exec (.rx 6) (port []))).tx = [0x11, 0x06] := by decide
/-- V4.17. -/
theorem test_stop : (after (exec .stop (port []))).tx = [0x14] := by decide
/-- V4.29. -/
theorem test_data :
    let t := after (exec (.data 2) (port [0x84, 0xAA, 0x55]))
    t.rbuf.take 3 = [0xAA, 0x55, 0x00] ∧ t.rx = [] ∧ t.ret = .received [0xAA, 0x55] := by decide
/-- V4.30. -/
theorem test_data_desync :
    let t := after (exec (.data 2) (port [0x80, 0xAA, 0x55]))
    t.rbuf.take 2 = [0, 0] ∧ t.rx = [0xAA, 0x55] ∧ t.status = .errDesync 0x80 := by decide
/-- V3.1, V3.7, V3.8, V3.9, V3.10, V3.16, V3.19. -/
theorem test_divisor :
    ([0, 92180, 92181, 93000, 100000, 1562500, 2316603].map (computeDivisor Config.gk)) =
      [255, 255, 254, 252, 234, 10, 4] := by decide +kernel
/-- V3.24, V3.25, V3.28, V3.29, V3.32. -/
theorem test_divisor_low :
    ([3773584, 3773585, 4477612, 5000000, 4294967295].map (computeDivisor Config.gk)) =
      [1, 0, 0, 0, 0] := by decide +kernel
/-- V5.1. -/
theorem test_pin :
    let t := after (exec (.pin 3) (port []))
    t.pinlock[3]? = some (.held (.host 0)) ∧ t.ret = .handle 3 := by decide
/-- V5.4: thread 1 has no step while thread 0 holds the pin, though the environment's next choice is FAIL;
after thread 0 has released it, thread 1 gets the handle. -/
theorem test_pin_blocks :
    let s := { port [] with
      caller := 1, pinlock := List.replicate 3 .free ++ .held (.host 0) :: List.replicate 4 .free,
      env := { calm with pinChoices := [.block, .fail] } }
    let t := after (exec (.pin 3) s)
    let u := after (serveWaiter 0 (after (exec (.pinRelease 3) { t with caller := 0 })))
    t.waiting = [⟨1, .pin 3, some 3⟩] ∧ (after (serveWaiter 0 t)).waiting = t.waiting ∧
      u.ret = .handle 3 ∧ u.pinlock[3]? = some (.held (.host 1)) := by decide
/-- V5.2. -/
theorem test_pin_unknown :
    let t := after (exec (.pin 8) (port []))
    t.ret = .status .errPinUnknown ∧ t.status = .errPinUnknown := by decide
/-- The example of rule R121. -/
theorem test_pin_release :
    let t := after (exec (.pinRelease 3) (after (exec (.pin 3) (port []))))
    t.pinlock = (port []).pinlock := by decide
/-- Rule R54: another thread than the holder cannot release the pin. -/
theorem test_pin_release_foreign :
    exec (.pinRelease 0) { port [] with caller := 1, pinlock := [.held (.host 0)] } =
      .refused .noHandle := rfl
/-- V5.6. -/
theorem test_open :
    let t := after (exec (.openEngine 2400000) (port []))
    t.tx = [0x0C, 0x04] ∧ t.engExists = true ∧ t.freq = 2400000 ∧ t.status = .ok := by
  decide +kernel
/-- V5.8. -/
theorem test_open_fails :
    let t := after (exec (.openEngine 100000) (sdaTaken .fail))
    t.status = .errPinContention ∧ t.pinlock = (sdaTaken .fail).pinlock ∧ t.tx = [] ∧
      t.engExists = false := by decide
/-- V5.15. -/
theorem test_close :
    let t := after (exec .close (opened [0x77]))
    t.pinlock = (port []).pinlock ∧ t.engExists = false ∧ t.tx = [0x0C, 0xEA] ∧ t.rx = [0x77] := by
  decide
/-- V6.1. -/
theorem test_send :
    (after (exec (.send 0x1D [0x2A, 0x01]) (opened []))).tx =
      [0x0C, 0xEA, 0x13, 0x3A, 0x10, 0x02, 0x2A, 0x01, 0x14] := by decide
/-- V6.8a. -/
theorem test_send_fails :
    let t := after (exec (.send 0x1D [0x2A, 0x01])
      { opened [] with env := { calm with sends := [.ok, .ok, .fail 1] } })
    t.tx = [0x0C, 0xEA, 0x13, 0x3A, 0x10, 0x02, 0x2A] ∧ t.status = .errIo ∧ t.phase = .idle ∧
      t.chlock = .free := by decide
/-- V6.10. -/
theorem test_read :
    let t := after (exec (.read 0x50 4) (opened [0x84, 0xDE, 0xAD, 0xBE, 0xEF, 0x77]))
    t.tx = [0x0C, 0xEA, 0x13, 0xA1, 0x11, 0x04, 0x14] ∧ t.rx = [0x77] ∧
      t.ret = .received [0xDE, 0xAD, 0xBE, 0xEF] := by decide
/-- V6.13. -/
theorem test_read_desync :
    let t := after (exec (.read 0x1D 3) (opened [0x81, 0x10, 0x20, 0x30]))
    t.status = .errDesync 0x81 ∧ t.rx = [0x10, 0x20, 0x30] := by decide
/-- V6.19. -/
theorem test_transfer :
    let t := after (exec (.transfer 0x1D [0x0F] 2) (opened [0x84, 0xC3, 0x5A]))
    t.tx = [0x0C, 0xEA, 0x13, 0x3B, 0x10, 0x01, 0x13, 0x3B, 0x11, 0x02, 0x14] ∧
      t.rbuf.take 2 = [0xC3, 0x5A] := by decide
/-- V6.22. -/
theorem test_transfer_data :
    let s := opened [0x84, 0xC3, 0x5A]
    let c := { Config.gk with xferFirstDir := .write, xferDataPhase := .present }
    (after (exec (.transfer 0x1D [0x0F] 2) { s with cfg := c })).tx =
      [0x0C, 0xEA, 0x13, 0x3A, 0x10, 0x01, 0x0F, 0x13, 0x3B, 0x11, 0x02, 0x14] := by decide

/-- The host's next step after `withFetchWord` is the call the word stands for. -/
theorem test_fetch :
    (after (step ((port []).withFetchWord 16 0x3A13))).tx = [0x13, 0x3A] := by decide

/-! ### The invariant holds in the states above -/

theorem opened_inv (rx : List Byte) : (opened rx).Inv where
  sizes := ⟨show Config.gk.wf = true by decide, rfl, by simp [opened, port, State.reset, State.fresh, Config.gk],
    by simp [opened, port, State.reset, State.fresh],
    by simp [opened, port, State.reset, State.fresh]⟩
  sequencing := by
    constructor <;>
      simp [opened, port, State.reset, State.fresh, Phase.locked, Phase.operation]
  ownership := by
    simp [State.Ownership, State.opening, opened, port, State.reset, State.fresh]
  pins := by
    constructor <;> simp [opened, port, State.reset, State.fresh]
  waits := by
    constructor <;> simp [opened, port, State.reset, State.fresh, State.inCall]

theorem reading_inv (rx : List Byte) : (reading rx).Inv where
  sizes := ⟨(opened_inv rx).sizes.cfg_wf, rfl, (opened_inv rx).sizes.registry,
    (opened_inv rx).sizes.wbuf_len, (opened_inv rx).sizes.rbuf_len⟩
  sequencing := by
    constructor <;>
      simp [reading, opened, port, State.reset, State.fresh, Phase.locked, Phase.operation]
  ownership := by
    simp [State.Ownership, State.opening, reading, opened, port, State.reset, State.fresh]
  pins := by
    constructor <;> simp [reading, opened, port, State.reset, State.fresh]
  waits := by
    constructor <;> simp [reading, opened, port, State.reset, State.fresh, State.inCall]

/-! ### Witnesses: what meets the hypotheses of each obligation, at the boundaries of its clauses -/

theorem witness_DivisorSaturates :
    92180#32 ≠ 0#32 ∧ 255 < divisorRaw Config.gk 92180 ∧
      4477612#32 ≠ 0#32 ∧ divisorRaw Config.gk 4477612 < 0 := by decide +kernel

theorem witness_DivisorRoundsDown :
    92181#32 ≠ 0#32 ∧ divisorRaw Config.gk 92181 ≤ 255 ∧ 4477611#32 ≠ 0#32 ∧
      0 ≤ divisorRaw Config.gk 4477611 := by decide +kernel

theorem witness_DivisorNeverRises :
    Config.gk.wf = true ∧ (0#32).toNat ≤ (4294967295#32).toNat := by decide

theorem witness_DivisorClosedForm : 1#32 ≠ 0#32 ∧ 4477612#32 ≠ 0#32 := by decide

theorem witness_DecodeOfEncode :
    Config.gk.wf = true ∧ (Instr.transfer 127 (List.replicate 255 0) 255).wellFormed = true := by
  decide +kernel

theorem witness_DecodedIsInContract :
    decode Config.gk .request [0x02, 0x7F, 0xFF] = .ok (.read 127 255, []) := by decide

theorem witness_RecordedSendReadsBack :
    Config.gk.wf = true ∧ (List.replicate 255 (0 : Byte)).length ≤ 255 := by decide +kernel

theorem witness_RecordedTransferIsMisread :
    Config.gk.wf = true ∧ Config.gk.xferDataPhase = .absent ∧
      ([1, 2, 3, 4, 5] : List Byte).length = 5 := by decide

theorem witness_CommandFramesComplete :
    (port []).chlock = .free ∧ (port []).env.sends = .ok :: List.replicate 5 .ok := by decide

theorem witness_CommandFrameFails :
    let s := { port [] with env := { calm with sends := [.fail 0] } }
    Instr.stop.space = .command ∧ s.chlock = .free ∧ s.env.sends = .fail 0 :: [] := by decide

theorem witness_FramesWaitForTheLock :
    let s := { port [] with chlock := .held .other }
    Instr.stop.space ≠ .request ∧ (Instr.data 0).space ≠ .request ∧ s.chlock = .held .other := by
  decide

theorem witness_DataReplyCompletes :
    let s := port [0x84, 0x77]
    s.phase = .idle ∧ s.chlock = .free ∧ ([] : List Byte).length = (0#8).toNat ∧
      s.rx = s.cfg.tagData :: ([] ++ [0x77]) ∧ s.env.recvs = .deliver :: .deliver :: [] ∧
      s.env.bursts = 10 :: [] ∧ 3 ≤ 10 := by decide

theorem witness_DataReplyDesync :
    let s := port [0x80]
    s.phase = .idle ∧ s.chlock = .free ∧ 0x80#8 ≠ s.cfg.tagData ∧ s.rx = 0x80 :: [] ∧
      s.env.recvs = .deliver :: [.deliver] ∧ s.env.bursts = 10 :: [] ∧ 2 ≤ 10 := by decide

theorem witness_PinCompletes :
    (port []).pinlock[0]? = some .free ∧ (port []).pinlock[7]? = some .free := by decide

theorem witness_UnknownPinReported : (opened []).Inv ∧ (opened []).cfg.nPins ≤ 8 :=
  ⟨opened_inv [], by decide⟩

theorem sdaTaken_fails : (sdaTaken .fail).PinFails pinSda .errPinContention :=
  .inr (.inr ⟨⟨.other, rfl⟩, rfl, .inr ⟨rfl, [], rfl⟩⟩)

theorem sdaTaken_blocks : (sdaTaken .block).PinBlocks pinSda :=
  ⟨⟨.other, rfl⟩, .inr ⟨rfl, [], rfl⟩⟩

theorem witness_PinContentionReportedOrWaits :
    (sdaTaken .fail).PinFails pinSda .errPinContention ∧
      ({ port [] with pinlock := [.poisoned] }).PinFails 0 .errPinContention ∧
      (sdaTaken .block).PinBlocks pinSda :=
  ⟨sdaTaken_fails, .inr (.inl ⟨rfl, rfl⟩), sdaTaken_blocks⟩

theorem witness_PinReleaseCompletes :
    let s := { port [] with caller := 2, pinlock := [.held (.host 2)] }
    s.pinlock[0]? = some (.held (.host s.caller)) := by decide

theorem witness_PinReleaseNeedsTheHandle :
    let s := opened []
    let u := { port [] with caller := 1, pinlock := [.held (.host 2)] }
    s.pinlock[0]? ≠ some (.held (.host s.caller)) ∧ s.pinlock[2]? ≠ some (.held (.host s.caller)) ∧
      s.pinlock[8]? ≠ some (.held (.host s.caller)) ∧
      u.pinlock[0]? ≠ some (.held (.host u.caller)) := by decide

theorem witness_BlockedUntilRelease :
    let s := { sdaTaken .block with
      waiting := [⟨4, .pin 1, some 1⟩], env := { calm with turns := [.retry 0] } }
    let u := { sdaTaken .block with phase := .oAcqSda, parked := some 1 }
    (s.pinlock[1]? = some (.held .other) ∧ s.env.turns = .retry 0 :: [] ∧
      s.waiting[0]? = some ⟨4, .pin 1, some 1⟩) ∧
    (u.pinlock[1]? = some (.held .other) ∧ u.parked = some 1 ∧ u.phase = .oAcqSda) ∧
    1 < s.pinlock.length ∧ s.parked ≠ some 1 := by decide

/-- Thread 2 holds pin 3 and is blocked on it (rule R120). -/
def selfBlocked : State :=
  { port [] with
    pinlock := List.replicate 3 .free ++ .held (.host 2) :: List.replicate 4 .free,
    waiting := [⟨2, .pin 3, some 3⟩], env := { calm with turns := [.env (.poison 3)] } }

theorem selfBlocked_inv : selfBlocked.Inv where
  sizes := ⟨show Config.gk.wf = true by decide, rfl, rfl,
    by simp [selfBlocked, port, State.reset, State.fresh],
    by simp [selfBlocked, port, State.reset, State.fresh]⟩
  sequencing := by
    constructor <;>
      simp [selfBlocked, port, State.reset, State.fresh, Phase.locked, Phase.operation]
  ownership := by
    simp [State.Ownership, State.opening, selfBlocked, port, State.reset, State.fresh]
  pins := by
    constructor <;> simp [selfBlocked, port, State.reset, State.fresh]
  waits := by
    constructor <;> simp [selfBlocked, port, State.reset, State.fresh, State.inCall, mayWait]

/-- Thread 2 holds pin 0 and its OPEN is blocked on it. -/
def selfParked : State :=
  { port [] with
    pinlock := .held (.host 2) :: List.replicate 7 .free, phase := .oAcqScl, opThread := 2,
    parked := some 0, env := { calm with turns := [.sequencer] } }

theorem selfParked_inv : selfParked.Inv where
  sizes := ⟨show Config.gk.wf = true by decide, rfl, rfl,
    by simp [selfParked, port, State.reset, State.fresh],
    by simp [selfParked, port, State.reset, State.fresh]⟩
  sequencing := by
    constructor <;>
      simp [selfParked, port, State.reset, State.fresh, Phase.locked, Phase.operation]
  ownership := by
    simp [State.Ownership, State.opening, selfParked, port, State.reset, State.fresh]
  pins := by
    constructor <;> simp [selfParked, port, State.reset, State.fresh]
  waits := by
    constructor <;> simp [selfParked, port, State.reset, State.fresh, State.inCall, pinScl, pinSda]

theorem witness_HeldPinsAreNeverGranted :
    (let s := { sdaTaken .block with env := { calm with turns := [.env (.otherReleases 1)] } };
      s.pinlock[1]? = some (.held .other) ∧ ∃ t, step s = .next t) ∧
    ((∃ t, step selfBlocked = .next t) ∧ selfBlocked.Inv ∧ 2 ∈ selfBlocked.inCall ∧
      ⟨2, .pin 3, some 3⟩ ∈ selfBlocked.waiting ∧
      selfBlocked.pinlock[3]? = some (.held (.host 2))) ∧
    ((∃ t, step selfParked = .next t) ∧ selfParked.Inv ∧ selfParked.parked = some 0 ∧
      selfParked.pinlock[0]? = some (.held (.host selfParked.opThread))) :=
  ⟨⟨by decide, _, rfl⟩, ⟨⟨_, rfl⟩, selfBlocked_inv, by decide, by decide, rfl⟩,
    ⟨_, rfl⟩, selfParked_inv, rfl, rfl⟩

theorem witness_OpenCompletes :
    let s := port []
    s.phase = .idle ∧ s.pinlock[pinScl]? = some .free ∧ s.pinlock[pinSda]? = some .free ∧
      s.chlock = .free ∧ s.env.sends = .ok :: List.replicate 5 .ok ∧ s.env.bursts = 10 :: [] ∧
      4 ≤ 10 := by decide

/-- The port with another user's hold on the clock pin. -/
def sclTaken (c : PinChoice) : State :=
  { port [] with
    pinlock := [.held .other, .free] ++ List.replicate 6 .free, env := { calm with pinChoices := [c] } }

theorem sclTaken_fails : (sclTaken .fail).PinFails pinScl .errPinContention :=
  .inr (.inr ⟨⟨.other, rfl⟩, rfl, .inr ⟨rfl, [], rfl⟩⟩)

theorem sclTaken_blocks : (sclTaken .block).PinBlocks pinScl :=
  ⟨⟨.other, rfl⟩, .inr ⟨rfl, [], rfl⟩⟩

theorem witness_OpenAcquisitionFails :
    ((sclTaken .fail).phase = .idle ∧ (sclTaken .fail).PinFails pinScl .errPinContention) ∧
    ((sdaTaken .fail).phase = .idle ∧ (sdaTaken .fail).pinlock[pinScl]? = some .free ∧
      (sdaTaken .fail).PinFails pinSda .errPinContention ∧
      ∃ k bs, (sdaTaken .fail).env.bursts = k :: bs ∧ 1 ≤ k) ∧
    (let u := { sclTaken .fail with phase := .oAcqScl };
      u.phase = .oAcqScl ∧ u.stillBlocked u.parked = false ∧
        u.PinFails pinScl .errPinContention) ∧
    (let u := { sdaTaken .fail with phase := .oAcqSda };
      u.phase = .oAcqSda ∧ u.stillBlocked u.parked = false ∧
        u.PinFails pinSda .errPinContention) :=
  ⟨⟨rfl, sclTaken_fails⟩, ⟨rfl, rfl, sdaTaken_fails, 10, [], rfl, by decide⟩,
    ⟨rfl, rfl, sclTaken_fails⟩, rfl, rfl, sdaTaken_fails⟩

theorem witness_OpenBlocks :
    ((sclTaken .block).phase = .idle ∧ (sclTaken .block).PinBlocks pinScl ∧
      (sclTaken .block).engExists = false) ∧
    (let u := { opened [] with env := { calm with pinChoices := [.block] } };
      u.phase = .idle ∧ u.PinBlocks pinScl ∧ u.engExists = true) ∧
    ((sdaTaken .block).phase = .idle ∧ (sdaTaken .block).pinlock[pinScl]? = some .free ∧
      (sdaTaken .block).PinBlocks pinSda ∧
      ∃ k bs, (sdaTaken .block).env.bursts = k :: bs ∧ 1 ≤ k) :=
  ⟨⟨rfl, sclTaken_blocks, rfl⟩, ⟨rfl, ⟨⟨.engine, rfl⟩, .inr ⟨rfl, [], rfl⟩⟩, rfl⟩,
    rfl, rfl, sdaTaken_blocks, 10, [], rfl, by decide⟩

theorem witness_BlockedOpenGoesOn :
    let s : State := { port [] with phase := .oAcqScl }
    let u : State := { port [] with
      phase := .oAcqSda, hasScl := true, pinlock := .held .engine :: List.replicate 7 .free }
    (s.job = .operation ∧ s.opsel = .openEngine ∧ s.outcome = .ok ∧
      s.stillBlocked s.parked = false ∧ s.pinlock[pinSda]? = some .free ∧ s.chlock = .free ∧
      s.env.sends = .ok :: List.replicate 5 .ok ∧ s.env.bursts = 10 :: [] ∧
      s.phase = .oAcqScl ∧ s.pinlock[pinScl]? = some .free ∧ 5 ≤ 10) ∧
    (u.job = .operation ∧ u.opsel = .openEngine ∧ u.outcome = .ok ∧
      u.stillBlocked u.parked = false ∧ u.pinlock[pinSda]? = some .free ∧ u.chlock = .free ∧
      u.env.sends = .ok :: List.replicate 5 .ok ∧ u.env.bursts = 10 :: [] ∧
      u.phase = .oAcqSda ∧ u.hasScl = true ∧ 4 ≤ 10) := by decide

theorem witness_OpenWriteFails :
    let s := { port [] with env := { calm with sends := [.fail 1] } }
    s.phase = .idle ∧ s.pinlock[pinScl]? = some .free ∧ s.pinlock[pinSda]? = some .free ∧
      s.chlock = .free ∧ s.env.sends = .fail 1 :: [] ∧ s.env.bursts = 10 :: [] ∧ 4 ≤ 10 := by decide

theorem witness_OpenIsSafe :
    let s := sdaTaken .fail
    s.phase = .idle ∧ exec (.openEngine 1) s = .next (after (exec (.openEngine 1) s)) ∧
      (after (exec (.openEngine 1) s)).phase = .idle ∧
      (after (exec (.openEngine 1) s)).waiting.length = s.waiting.length := ⟨rfl, rfl, by decide, by decide⟩

theorem witness_SecondOpenTakesNothing : (opened []).Inv ∧ (opened []).engExists = true :=
  ⟨opened_inv [], rfl⟩

theorem witness_OpenAtABusySequencer :
    (let s := { sclTaken .fail with phase := .rTag };
      s.phase ≠ .idle ∧ s.PinFails pinScl .errPinContention) ∧
    (let s := { sclTaken .block with phase := .rTag };
      s.phase ≠ .idle ∧ s.PinBlocks pinScl) ∧
    (let s := { port [] with phase := .rTag };
      s.phase ≠ .idle ∧ s.pinlock[pinScl]? = some .free ∧ s.phase ≠ .oAcqScl) ∧
    (let s := { port [] with phase := .oAcqScl, env := { calm with bursts := [0] } };
      s.phase ≠ .idle ∧ s.pinlock[pinScl]? = some .free ∧ s.phase = .oAcqScl ∧
        s.env.bursts = 0 :: []) :=
  ⟨⟨by decide, sclTaken_fails⟩, ⟨by decide, sclTaken_blocks⟩, by decide, by decide⟩

theorem witness_CloseCompletes :
    let s := opened []
    s.engExists = true ∧ s.phase = .idle ∧ s.closing = [] ∧ s.env.closeOrders = .sdaFirst :: [] ∧
      s.env.bursts = 10 :: [] ∧ 2 ≤ 10 := by decide

theorem witness_CloseReleasesInTwoSteps :
    let s (o : CloseOrder) := { opened [] with env := { calm with bursts := [1], closeOrders := [o] } }
    (∀ o, (s o).engExists = true ∧ (s o).phase = .idle ∧ (s o).closing = [] ∧
      (s o).env.bursts = 1 :: []) ∧
    (s .sdaFirst).env.closeOrders = .sdaFirst :: [] ∧
    (s .sclFirst).env.closeOrders = .sclFirst :: [] :=
  ⟨fun _ => ⟨rfl, rfl, rfl, rfl⟩, rfl, rfl⟩

theorem witness_CloseRefused :
    (port []).engExists = false ∧ (reading []).engExists = true ∧ (reading []).phase ≠ .idle := by
  decide

theorem opened_ready (rx : List Byte) : (opened rx).Ready := ⟨rfl, rfl, rfl⟩

theorem witness_SendCompletes :
    127 < 128 ∧ (List.replicate 255 (0 : Byte)).length ≤ 255 ∧ (opened []).Ready ∧
      (opened []).env.sends = .ok :: .ok :: .ok :: .ok :: [.ok, .ok] ∧
      (opened []).env.bursts = 10 :: [] ∧ 6 ≤ 10 :=
  ⟨by decide, by decide +kernel, opened_ready [], rfl, rfl, by decide⟩

theorem witness_ReadCompletes :
    let s := opened (0x84 :: ([] ++ [0x77]))
    127 < 128 ∧ 0 ≤ 255 ∧ s.Ready ∧ ([] : List Byte).length = 0 ∧
      s.rx = s.cfg.tagData :: ([] ++ [0x77]) ∧ s.env.sends = .ok :: .ok :: .ok :: [.ok, .ok, .ok] ∧
      s.env.recvs = .deliver :: .deliver :: [] ∧ s.env.bursts = 10 :: [] ∧ 7 ≤ 10 :=
  ⟨by decide, by decide, opened_ready _, rfl, rfl, rfl, rfl, rfl, by decide⟩

theorem witness_TransferCompletes :
    let s := opened (0x84 :: ([0xC3, 0x5A] ++ []))
    s.cfg.xferDataPhase = .absent ∧ 0 < 128 ∧ ([] : List Byte).length ≤ 255 ∧ 2 ≤ 255 ∧ s.Ready ∧
      ([0xC3, 0x5A] : List Byte).length = 2 ∧ s.rx = s.cfg.tagData :: ([0xC3, 0x5A] ++ []) ∧
      s.env.sends = .ok :: .ok :: .ok :: .ok :: .ok :: [.ok] ∧
      s.env.recvs = .deliver :: .deliver :: [] ∧ s.env.bursts = 10 :: [] ∧ 9 ≤ 10 :=
  ⟨rfl, by decide, by decide, by decide, opened_ready _, rfl, rfl, rfl, rfl, rfl, by decide⟩

theorem witness_TransferWithDataCompletes :
    let s := { opened (0x84 :: ([0xC3, 0x5A] ++ [])) with
      cfg := { Config.gk with xferDataPhase := .present } }
    s.cfg.xferDataPhase = .present ∧ 0 < 128 ∧ ([7] : List Byte).length ≤ 255 ∧ 2 ≤ 255 ∧ s.Ready ∧
      ([0xC3, 0x5A] : List Byte).length = 2 ∧ s.rx = s.cfg.tagData :: ([0xC3, 0x5A] ++ []) ∧
      s.env.sends = .ok :: .ok :: .ok :: .ok :: .ok :: .ok :: [] ∧
      s.env.recvs = .deliver :: .deliver :: [] ∧ s.env.bursts = 10 :: [] ∧ 10 ≤ 10 :=
  ⟨rfl, by decide, by decide, by decide, ⟨rfl, rfl, rfl⟩, rfl, rfl, rfl, rfl, rfl, by decide⟩

theorem witness_ReadDesync :
    let s := opened [0x81]
    127 < 128 ∧ 255 ≤ 255 ∧ s.Ready ∧ 0x81#8 ≠ s.cfg.tagData ∧ s.rx = 0x81 :: [] ∧
      s.env.sends = .ok :: .ok :: .ok :: [.ok, .ok, .ok] ∧ s.env.recvs = .deliver :: [.deliver] ∧
      s.env.bursts = 10 :: [] ∧ 6 ≤ 10 :=
  ⟨by decide, by decide, opened_ready _, by decide, rfl, rfl, rfl, rfl, by decide⟩

theorem witness_ReplyTagIsChecked :
    let s : State := { reading [] with phase := .rStop }
    let pay (rx : List Byte) : State := { reading rx with phase := .rPayload }
    (s.env.sends = .ok :: List.replicate 5 .ok ∧ s.env.recvs = .deliver :: [.deliver] ∧
      s.phase = .rStop) ∧
    ((reading []).phase = .rTag ∧ (reading []).rx = []) ∧
    ((reading [0x81]).rx = 0x81 :: [] ∧ 0x81#8 ≠ (reading [0x81]).cfg.tagData) ∧
    ((reading [0x84]).rx = 0x84 :: [] ∧ 0x84#8 = (reading [0x84]).cfg.tagData) ∧
    ((pay [1, 2]).phase = .rPayload ∧ (pay [1, 2]).rx.length < (pay [1, 2]).rlen.toNat) ∧
    (pay [1, 2, 3]).rlen.toNat ≤ (pay [1, 2, 3]).rx.length := by decide

theorem witness_ReadBlocksWithTheLock :
    let s := opened []
    0 < 128 ∧ 255 ≤ 255 ∧ s.Ready ∧ s.rx = [] ∧ s.env.sends = .ok :: .ok :: .ok :: [.ok, .ok, .ok] ∧
      s.env.recvs = .deliver :: [.deliver] ∧ s.env.bursts = 10 :: [] ∧ 5 ≤ 10 :=
  ⟨by decide, by decide, opened_ready _, rfl, rfl, rfl, rfl, by decide⟩

theorem env_inv {s : State} (h : s.Inv) (e : Env) : ({ s with env := e }).Inv :=
  ⟨⟨h.sizes.cfg_wf, h.sizes.channel_up, h.sizes.registry, h.sizes.wbuf_len, h.sizes.rbuf_len⟩,
    ⟨h.sequencing.lock_iff, h.sequencing.opsel_phase, h.sequencing.opsel_unlock,
      h.sequencing.bare_phase, h.sequencing.data_phase, h.sequencing.outcome_ok⟩, h.ownership,
    ⟨h.pins.scl_held, h.pins.sda_held, h.pins.closing_nodup, h.pins.closing_pins,
      h.pins.closing_held, h.pins.closing_not_scl, h.pins.closing_not_sda⟩,
    ⟨h.waits.parked_phase, h.waits.parked_not_free, h.waits.blocked_not_free,
      h.waits.one_call_each, h.waits.waiting_calls⟩⟩

/-- A read that has its tag and waits for the payload. -/
def paying (rx : List Byte) : State := { reading rx with phase := .rPayload }

theorem paying_inv (rx : List Byte) : (paying rx).Inv where
  sizes := ⟨(opened_inv rx).sizes.cfg_wf, rfl, (opened_inv rx).sizes.registry,
    (opened_inv rx).sizes.wbuf_len, (opened_inv rx).sizes.rbuf_len⟩
  sequencing := by
    constructor <;>
      simp [paying, reading, opened, port, State.reset, State.fresh, Phase.locked, Phase.operation]
  ownership := by
    simp [State.Ownership, State.opening, paying, reading, opened, port, State.reset, State.fresh]
  pins := by
    constructor <;> simp [paying, reading, opened, port, State.reset, State.fresh]
  waits := by
    constructor <;> simp [paying, reading, opened, port, State.reset, State.fresh, State.inCall]

theorem witness_FailedReceive :
    (let s := { reading [1, 2] with env := { calm with recvs := [.fail 2] } };
      s.Inv ∧ s.env.recvs = .fail 2 :: [] ∧ s.phase = .rTag) ∧
    (let s := { paying [1, 2] with env := { calm with recvs := [.fail 2] } };
      s.Inv ∧ s.env.recvs = .fail 2 :: [] ∧ s.phase = .rPayload) :=
  ⟨⟨env_inv (reading_inv _) _, rfl, rfl⟩, env_inv (paying_inv _) _, rfl, rfl⟩

theorem witness_FailureAbortsTheSequence :
    (let s := { reading [] with phase := .rStop, env := { calm with sends := [.fail 0] } };
      s.env.sends = .fail 0 :: [] ∧ s.phase = .rStop) ∧
    (let s := { port [] with phase := .oEnable, env := { calm with sends := [.fail 1] } };
      s.env.sends = .fail 1 :: [] ∧ s.phase = .oEnable) ∧
    (let s := { reading [1] with env := { calm with recvs := [.fail 1] } };
      s.env.recvs = .fail 1 :: [] ∧ s.phase = .rTag) ∧
    (let s := { reading [] with phase := .unlock, outcome := .errIo };
      s.phase = .unlock ∧ s.outcome ≠ .ok) := by decide

theorem witness_OperationsAddAPrefix :
    127 < 128 ∧ ([] : List Byte).length ≤ 255 ∧ 255 ≤ 255 ∧ (opened []).engExists = true ∧
      (opened []).phase = .idle := by decide

theorem witness_OperationsKeepTheEngine :
    (∃ t, exec (.send 0x1D []) (opened []) = .next t) ∧
    (reading []).phase.operation = some .read ∧
    (let s := { reading [] with phase := .unlock, outcome := .errIo };
      s.phase = .unlock ∧ s.opsel = .read) ∧
    (reading []).Inv ∧ (reading []).opsel = .read :=
  ⟨⟨_, rfl⟩, rfl, ⟨rfl, rfl⟩, reading_inv _, rfl⟩

theorem witness_OutOfContractIsRefused :
    128 ≤ 128 ∧ 127 < 128 ∧ 255 < (List.replicate 256 (0 : Byte)).length ∧ 255 < 256 := by
  decide +kernel

theorem witness_OperationsNeedAnEngine :
    127 < 128 ∧ ([] : List Byte).length ≤ 255 ∧ 255 ≤ 255 ∧ (port []).engExists = false := by decide

theorem witness_BusySequencerMakesCallersWait :
    127 < 128 ∧ ([] : List Byte).length ≤ 255 ∧ 255 ≤ 255 ∧ (reading []).phase ≠ .idle ∧
      (reading []).engExists = true := by decide

theorem witness_PhaseMovesForward :
    (∃ t, (reading [0x84]).seqStep = .moved t) ∧ (∃ t, (reading []).seqStep = .waits t) :=
  ⟨⟨_, rfl⟩, _, rfl⟩

theorem witness_TxHoldsOneContiguousRun :
    let s := { reading [0x84] with env := { calm with turns := [.sequencer] } }
    s.Inv ∧ s.phase.locked = true ∧ s.OnWire [0x0C, 0xEA] ∧ ∃ t, step s = .next t :=
  ⟨env_inv (reading_inv _) _, rfl, ⟨fun _ => by decide, fun h => absurd rfl h⟩, _, rfl⟩

/-- A read that waits for the Channel lock, which another engine holds. -/
def lockedOut : State :=
  { opened [0x77] with
    phase := .rLock, chlock := .held .other, opsel := .read, addr := 0x1D, rlen := 3,
    env := { calm with turns := [.sequencer] } }

theorem lockedOut_inv : lockedOut.Inv where
  sizes := ⟨(opened_inv []).sizes.cfg_wf, rfl, (opened_inv []).sizes.registry,
    (opened_inv []).sizes.wbuf_len, (opened_inv []).sizes.rbuf_len⟩
  sequencing := by
    constructor <;>
      simp [lockedOut, opened, port, State.reset, State.fresh, Phase.locked, Phase.operation]
  ownership := by
    simp [State.Ownership, State.opening, lockedOut, opened, port, State.reset, State.fresh]
  pins := by
    constructor <;> simp [lockedOut, opened, port, State.reset, State.fresh]
  waits := by
    constructor <;> simp [lockedOut, opened, port, State.reset, State.fresh, State.inCall]

/-- V5.17: OPEN acquires the pins and has no step at `O_LOCK` while another engine holds the lock. -/
theorem test_open_locked_out :
    let t := after (exec (.openEngine 100000) { port [] with chlock := .held .other })
    t.phase = .oLock ∧ t.tx = [] ∧ t.chlock = .held .other ∧
      t.pinlock.take 2 = [.held .engine, .held .engine] := by decide

theorem witness_OthersCannotUseTheChannel :
    (let s := { reading [] with env := { calm with turns := [.env (.otherWrites [0xB0])] } };
      s.chlock = .held .sequencer ∧ s.env.turns = .env (.otherWrites [0xB0]) :: [] ∧
        Turn.env (.otherWrites [0xB0]) ≠ .sequencer ∧ ∃ t, step s = .next t) ∧
    (lockedOut.chlock = .held .other ∧ lockedOut.phase = .rLock) ∧
    (lockedOut.Inv ∧ lockedOut.env.turns = .sequencer :: [] ∧
      (∀ m, Turn.sequencer ≠ .env m) ∧ ∃ t, step lockedOut = .next t) :=
  ⟨⟨rfl, rfl, by decide, _, rfl⟩, ⟨rfl, rfl⟩, lockedOut_inv, rfl, by simp, _, rfl⟩

theorem witness_TxOnlyGrows :
    let s := { port [] with env := { calm with turns := [.env .otherLocks] } }
    ∃ t, step s = .next t := ⟨_, rfl⟩

theorem witness_EveryStepKeepsInv :
    let s := { reading [0x84] with env := { calm with turns := [.sequencer] } }
    s.Inv ∧ ∃ t, step s = .next t := ⟨env_inv (reading_inv _) _, _, rfl⟩

theorem witness_StepRunsTheCall :
    let s := { port [] with
      calls := [⟨1, .command, [0x14]⟩, ⟨2, .command, [0x14]⟩], env := { calm with turns := [.call 2] } }
    let u := { reading [] with env := { calm with turns := [.call 0] } }
    (s.env.turns = .call 2 :: [] ∧ 2 ∉ s.inCall ∧
      s.calls = [⟨1, .command, [0x14]⟩] ++ ⟨2, .command, [0x14]⟩ :: [] ∧
      (∀ d ∈ [(⟨1, .command, [0x14]⟩ : Call)], d.thread ≠ 2) ∧ Instr.stop.wellFormed = true ∧
      decode s.cfg .command [0x14] = .ok (.stop, [])) ∧
    (u.env.turns = .call 0 :: [] ∧ 0 ∈ u.inCall) := by decide

theorem witness_WaitersAreServed :
    let s := { port [] with waiting := [⟨1, .stop, none⟩, ⟨2, .pin 8, some 0⟩] }
    let u (l : List Nat) (n : Nat) : State :=
      { port [] with closing := l, env := { calm with turns := [.closer], bursts := [n] } }
    (({ s with env := { calm with turns := [.retry 1] } }).env.turns = .retry 1 :: [] ∧
      s.waiting[1]? = some ⟨2, .pin 8, some 0⟩ ∧ s.stillBlocked (some 0) = false) ∧
    ({ s with env := { calm with turns := [.sequencer] } }).env.turns = .sequencer :: [] ∧
    ((u [0, 1] 1).env.turns = .closer :: [] ∧ (u [0, 1] 1).env.bursts = 1 :: [] ∧
      (u [0, 1] 1).closing = 0 :: 1 :: []) ∧
    ((u [1] 1).closing = [1] ∧ 1 ≤ 1) ∧ (u [1, 0] 2).closing = [1, 0] ∧ 2 ≤ 2 := by decide

theorem witness_OutsideAgentsKeepTheEngine :
    let s := { reading [] with env := { calm with turns := [.env .otherLocks] } }
    let u := { sdaTaken .block with chlock := .held .other }
    (s.env.turns = .env .otherLocks :: [] ∧ s.chlock = .held .sequencer ∧ s.chlock ≠ .free ∧
      s.chlock ≠ .held .other ∧ s.pinlock[0]? = some (.held .engine) ∧
      s.pinlock[0]? ≠ some .free ∧ s.pinlock[0]? ≠ some (.held .other) ∧
      (∀ th, s.pinlock[0]? ≠ some (.held (.host th)))) ∧
    ((port []).chlock = .free ∧ u.chlock = .held .other ∧ u.pinlock[0]? = some .free ∧
      u.pinlock[1]? = some (.held .other)) ∧
    (({ selfBlocked with waiting := [] }).pinlock[3]? = some (.held (.host 2)) ∧
      2 ∉ ({ selfBlocked with waiting := [] }).inCall) ∧
    (selfBlocked.pinlock[3]? ≠ some (.held .other) ∧
      ∀ th, selfBlocked.pinlock[3]? = some (.held (.host th)) → th ∈ selfBlocked.inCall) := by
  refine ⟨⟨rfl, rfl, by decide, by decide, rfl, by decide, by decide, ?_⟩, by decide, by decide,
    by decide, ?_⟩
  · intro th h; cases h
  · intro th h; cases h; decide

theorem witness_PortsShareNothing :
    let x : Board := ⟨{ port [] with env := { calm with turns := [.env .otherLocks] } }, port []⟩
    PortName.b ≠ PortName.a ∧ ∃ y, Board.step .a x = .next y := ⟨by decide, _, rfl⟩

end Sys2Proof.Tests
end

section
/-! An OPEN whose attempt on a pin fails (rules R52, R125, R126): what the failing attempt leaves,
then the step of the sequencer that makes it, then the call. -/

namespace Sys2Proof.Machine

/-! ### Attempts whose result is known -/

theorem State.drawPinChoice_known (s : State) {o : PinChoice} {rest : List PinChoice}
    (h : s.env.pinChoices = o :: rest) :
    s.drawPinChoice = (o, s.setEnv { s.env with pinChoices := rest }) := by
  simp [State.drawPinChoice, h]

/-- On a held pin the attempt fails where that is what `PIN_CONTENTION` or the environment chooses. -/
theorem contend_failed {s : State}
    (h : s.cfg.pinContention = .fail ∨
      (s.cfg.pinContention = .either ∧ ∃ rest, s.env.pinChoices = .fail :: rest)) :
    ∃ e, contend s = .failed .errPinContention (s.setEnv e) := by
  obtain hc | ⟨hc, rest, hd⟩ := h
  · exact ⟨s.env, by simp [contend, hc]⟩
  · exact ⟨{ s.env with pinChoices := rest },
      by simp only [contend, hc, s.drawPinChoice_known hd]⟩

theorem acquirePin_granted {s : State} {i : Nat} (h : s.pinlock[i]? = some .free) (who : PinOwner) :
    acquirePin s i who = .granted (s.setPin i (.held who)) := by
  simp [acquirePin, h]

theorem acquirePin_failed {s : State} {i : Nat} {st : Status} (h : s.PinFails i st)
    (who : PinOwner) : ∃ e, acquirePin s i who = .failed st (s.setEnv e) := by
  obtain ⟨hl, rfl⟩ | ⟨hl, rfl⟩ | ⟨⟨o, hl⟩, rfl, hc⟩ := h
  · exact ⟨s.env, by simp [acquirePin, hl]⟩
  · exact ⟨s.env, by simp [acquirePin, hl]⟩
  · simpa [acquirePin, hl] using contend_failed hc

namespace State

variable {s : State} {i j : Nat} {st : Status}

/-- Whether an attempt on a pin fails does not depend on another pin's lock. -/
theorem PinFails.setPin (h : s.PinFails j st) (hij : i ≠ j) (l : PinLock) :
    (s.setPin i l).PinFails j st := by
  have hread : (s.setPin i l).pinlock[j]? = s.pinlock[j]? := by simp [setPin_read, hij]
  unfold PinFails at h ⊢
  rw [hread]
  exact h

/-- A free pin that is taken and released again is as it was. -/
theorem pinlock_taken_released (h : s.pinlock[i]? = some .free) (l : PinLock) :
    (s.pinlock.set i l).set i .free = s.pinlock := by
  obtain ⟨hi, hfree⟩ := List.getElem?_eq_some_iff.1 h
  rw [List.set_set, ← hfree, List.set_getElem_self]

/-! ### What the end of an operation and a release change -/

theorem finish_eq (s : State) (st : Status) (r : Ret) :
    s.finish st r = { s with status := st, phase := .idle, ret := r, retTo := s.opThread } := rfl

theorem releasePin_eq (s : State) (i : Nat) :
    s.releasePin i = { s with
      pinlock := s.pinlock.set i .free, waiting := (s.wake i).waiting,
      parked := unmark i s.parked } := rfl

/-! ### The sequencer's attempts -/

theorem acquireStep_granted (hb : s.stillBlocked s.parked = false)
    (h : s.pinlock[i]? = some .free) (granted : State → State) (failed : Status → State → State) :
    s.acquireStep i granted failed =
      .moved (granted ((s.setPin i (.held .engine)).setParked none)) := by
  simp [acquireStep, hb, acquirePin_granted h]

theorem acquireStep_failed (hb : s.stillBlocked s.parked = false) (h : s.PinFails i st) :
    ∃ e, ∀ (granted : State → State) (failed : Status → State → State),
      s.acquireStep i granted failed = .moved (failed st ((s.setEnv e).setParked none)) := by
  obtain ⟨e, he⟩ := acquirePin_failed h .engine
  exact ⟨e, fun _ _ => by simp [acquireStep, hb, he]⟩

theorem acqSclStep_granted (hb : s.stillBlocked s.parked = false)
    (h : s.pinlock[pinScl]? = some .free) :
    s.acqSclStep = .moved { s with
      pinlock := s.pinlock.set pinScl (.held .engine), parked := none, hasScl := true,
      phase := s.phase.next s.cfg } :=
  acquireStep_granted hb h _ _

/-- Where the clock pin cannot be had, OPEN ends with nothing taken (rule R125). -/
theorem acqSclStep_failed (hb : s.stillBlocked s.parked = false) (h : s.PinFails pinScl st) :
    ∃ e, s.acqSclStep = .moved { s with
      phase := .idle, parked := none, status := st, ret := .status st, retTo := s.opThread,
      env := e } := by
  obtain ⟨e, he⟩ := acquireStep_failed hb h
  exact ⟨e, by rw [acqSclStep, he]; simp [finish_eq, setParked, setEnv]⟩

/-- Where the data pin cannot be had, OPEN releases the clock pin and ends (rule R125). -/
theorem acqSdaStep_failed (hb : s.stillBlocked s.parked = false) (h : s.PinFails pinSda st) :
    ∃ e, s.acqSdaStep = .moved { s with
      pinlock := s.pinlock.set pinScl .free, hasScl := false, phase := .idle, parked := none,
      waiting := (s.wake pinScl).waiting, status := st, ret := .status st, retTo := s.opThread,
      env := e } := by
  obtain ⟨e, he⟩ := acquireStep_failed hb h
  exact ⟨e, by rw [acqSdaStep, he]; simp [finish_eq, releasePin_eq, setHasScl, setParked, setEnv]⟩

/-! ### Turns that end at once -/

theorem seqStep_oAcqScl (h : s.phase = .oAcqScl) : s.seqStep = s.acqSclStep := by
  simp [seqStep, h]

theorem seqStep_oAcqSda (h : s.phase = .oAcqSda) : s.seqStep = s.acqSdaStep := by
  simp [seqStep, h]

theorem runSequencer_idle (h : s.phase = .idle) : s.runSequencer = s := if_pos h

/-- A turn of at least one step whose first step ends what the sequencer works for leaves what
that step leaves. -/
theorem runSequencer_of_ends {t : State} {k : Nat} {bs : List Nat} (hp : s.phase ≠ .idle)
    (hbursts : s.env.bursts = k :: bs) (hk : 1 ≤ k)
    (hstep : (s.setEnv { s.env with bursts := bs }).seqStep = .moved t) (ht : t.phase = .idle) :
    s.runSequencer = t := by
  obtain ⟨n, rfl⟩ := Nat.exists_eq_add_of_le' hk
  rw [runSequencer, if_neg hp, s.drawBurst_known hbursts, seqRun_moved n hstep, seqRun_idle n ht]

end State

/-! ### OPEN at an idle sequencer -/

/-- Where the clock pin is granted or refused at once, the sequencer has its turn (rule R126). -/
theorem exec_open_of_moved {s t : State} {f : Freq} (hp : s.phase = .idle)
    (h : ((s.latchOpen f).setPhase .oAcqScl).acqSclStep = .moved t) :
    exec (.openEngine f) s = .next t.runSequencer := by
  show execOpen f s = _
  rw [execOpen, if_pos hp, h, afterAcqScl]

/-- OPEN whose attempt on the clock pin fails makes no other (rule R125). -/
theorem exec_open_scl_failed {s : State} {st : Status} (f : Freq) (hp : s.phase = .idle)
    (h : s.PinFails pinScl st) :
    ∃ e, exec (.openEngine f) s = .next { s.latchOpen f with
      status := st, ret := .status st, retTo := s.caller, env := e } := by
  obtain ⟨e, he⟩ :=
    State.acqSclStep_failed (s := (s.latchOpen f).setPhase .oAcqScl) (st := st) rfl h
  refine ⟨e, ?_⟩
  rw [exec_open_of_moved hp he, State.runSequencer_idle rfl]
  simp [State.latchOpen, hp]

/-- OPEN with the clock pin taken, before its attempt on the data pin (rule R126). -/
def State.clockTaken (s : State) (f : Freq) : State :=
  { s.latchOpen f with
    pinlock := s.pinlock.set pinScl (.held .engine), hasScl := true, phase := .oAcqSda }

/-- OPEN gets a free clock pin and goes on to the data pin. -/
theorem exec_open_scl_granted {s : State} (f : Freq) (hp : s.phase = .idle)
    (h : s.pinlock[pinScl]? = some .free) :
    exec (.openEngine f) s = .next (s.clockTaken f).runSequencer :=
  exec_open_of_moved hp (State.acqSclStep_granted rfl h)

/-- OPEN whose attempt on the data pin fails frees the clock pin, which it had taken (rule R125). -/
theorem exec_open_sda_failed {s : State} {st : Status} (f : Freq) {k : Nat} {bs : List Nat}
    (hp : s.phase = .idle) (hscl : s.pinlock[pinScl]? = some .free) (h : s.PinFails pinSda st)
    (hbursts : s.env.bursts = k :: bs) (hk : 1 ≤ k) :
    ∃ e, exec (.openEngine f) s = .next { s.latchOpen f with
      hasScl := false, waiting := (s.wake pinScl).waiting, status := st, ret := .status st,
      retTo := s.caller, env := e } := by
  have hfails : ((s.clockTaken f).setEnv { s.env with bursts := bs }).PinFails pinSda st :=
    h.setPin (i := pinScl) (by decide) (.held .engine)
  obtain ⟨e, he⟩ := State.acqSdaStep_failed rfl hfails
  have hrun := State.runSequencer_of_ends (s := s.clockTaken f) (by simp [State.clockTaken])
    hbursts hk ((State.seqStep_oAcqSda rfl).trans he) rfl
  refine ⟨e, ?_⟩
  rw [exec_open_scl_granted f hp hscl, hrun]
  simp [State.clockTaken, State.latchOpen, State.setEnv, State.pinlock_taken_released hscl, hp]

/-- Settles O25: in each of the four cases the failing attempt is the sequencer's last step,
which frees the clock pin where OPEN had taken it and reports the attempt's error (rule R125). -/
theorem openAcquisitionFails : Obligations.OpenAcquisitionFails := by
  intro s st
  refine ⟨fun f hp h => exec_open_scl_failed f hp h,
    fun f hp hscl h ⟨k, bs, hbursts, hk⟩ => exec_open_sda_failed f hp hscl h hbursts hk,
    fun hp hb h => ?sclWaited, fun hp hb h => ?sdaWaited⟩
  case sclWaited =>
    rw [State.seqStep_oAcqScl hp]
    exact State.acqSclStep_failed hb h
  case sdaWaited =>
    rw [State.seqStep_oAcqSda hp]
    exact State.acqSdaStep_failed hb h

end Sys2Proof.Machine
end

section
/-! PROOFS. The clock-divisor calculator: its saturation at both ends (rule R142) and the operation
DIVISOR (rule R145). -/

namespace Sys2Proof.Machine

section
variable {c : Config} {f : Freq}

/-- The upper end of rule R142's clamp. -/
theorem computeDivisor_of_raw_above (hf : f ≠ 0#32) (h : 255 < divisorRaw c f) :
    computeDivisor c f = 255#8 := by
  rw [computeDivisor, if_neg hf, if_pos h]

/-- The lower end of rule R142's clamp: a negative value is not above 255, so the second
comparison decides. -/
theorem computeDivisor_of_raw_negative (hf : f ≠ 0#32) (h : divisorRaw c f < 0) :
    computeDivisor c f = 0#8 := by
  have habove : ¬ 255 < divisorRaw c f := not_lt.mpr (h.le.trans (by norm_num))
  rw [computeDivisor, if_neg hf, if_neg habove, if_pos h]

end

/-- Settles O1: `raw` as the statement writes it out is `divisorRaw`, on which the clamp is decided. -/
theorem divisorSaturates : Obligations.DivisorSaturates :=
  fun _ _ hf => ⟨computeDivisor_of_raw_above hf, computeDivisor_of_raw_negative hf⟩

/-- The meaning `exec` gives DIVISOR. -/
theorem exec_divisor (f : Freq) (s : State) : exec (.divisor f) s = execDivisor f s := rfl

/-- Settles O5: DIVISOR has one path, which writes the caller's result alone (rule R145). -/
theorem divisorTouchesNothing : Obligations.DivisorTouchesNothing := by
  intro s f
  rw [exec_divisor, execDivisor]

end Sys2Proof.Machine
end

section
/-! PROOFS. The steps of a sequence whose outcome is known: the reply-tag check (rule R160), and what
a failed Channel call leaves (rule R156). Each primitive first, then the step at a phase that uses it,
then the two statements. -/

namespace Sys2Proof.Machine

/-- The phases whose step writes to the Channel (rules R126, R152 to R154). -/
def Phase.Writes (p : Phase) : Prop :=
  p = .oEnable ∨ p = .sStart ∨ p = .sTxhdr ∨ p = .sData ∨ p = .sStop ∨ p = .rStart ∨
    p = .rRxhdr ∨ p = .rStop ∨ p = .tStart1 ∨ p = .tTxhdr ∨ p = .tData ∨ p = .tStart2 ∨
    p = .tRxhdr ∨ p = .tStop

namespace State

variable {s : State}

/-! ### The Channel's primitives with a known outcome -/

theorem chRecvExact_fail {n k : Nat} {rest : List RecvOutcome}
    (h : s.env.recvs = .fail k :: rest) :
    s.chRecvExact n =
      (.fail, (s.setEnv { s.env with recvs := rest }).setRx (s.rx.drop (min k n))) := by
  simp [chRecvExact, s.drawRecv_known h]

theorem afterWrite_ok {bytes : List Byte} {rest : List SendOutcome}
    (h : s.env.sends = .ok :: rest) (onFail : State → State) :
    afterWrite onFail (s.chSend bytes) =
      .moved (((s.setEnv { s.env with sends := rest }).setTx (s.tx ++ bytes)).setPhase
        (s.phase.next s.cfg)) := by
  rw [s.chSend_ok h]
  rfl

theorem afterWrite_fail {bytes : List Byte} {k : Nat} {rest : List SendOutcome}
    (h : s.env.sends = .fail k :: rest) (onFail : State → State) :
    afterWrite onFail (s.chSend bytes) =
      .moved (onFail ((s.setEnv { s.env with sends := rest }).setTx (s.tx ++ bytes.take k))) := by
  rw [s.chSend_fail h]
  rfl

/-! ### The phases that write -/

/-- A writing phase writes its own bytes; only OPEN's leaves `STATUS` to the step at `UNLOCK`. -/
theorem seqStep_writes (h : s.phase.Writes) :
    s.seqStep =
      afterWrite (if s.phase = .oEnable then abortIo else raiseIo) (s.chSend s.phaseBytes) := by
  cases hp : s.phase
  case idle | oAcqScl | oAcqSda | oLock | sLock | rLock | rTag | rPayload | tLock | tTag | tPayload |
      unlock => simp [Phase.Writes, hp] at h
  all_goals
    simp only [seqStep, phaseBytes, hp]
    rfl

theorem seqStep_stop_ok {rest : List SendOutcome} (hp : s.phase = .rStop ∨ s.phase = .tStop)
    (h : s.env.sends = .ok :: rest) :
    s.seqStep = .moved (((s.setEnv { s.env with sends := rest }).setTx
      (s.tx ++ [s.cfg.opStop])).setPhase (s.phase.next s.cfg)) := by
  have hw : s.phase.Writes := by obtain hp | hp := hp <;> simp [Phase.Writes, hp]
  have hbytes : s.phaseBytes = [s.cfg.opStop] := by
    obtain hp | hp := hp <;> simp [phaseBytes, stopFrame, hp]
  rw [seqStep_writes hw, hbytes, afterWrite_ok h]

/-! ### The phases that receive -/

theorem seqStep_tag (hp : s.phase = .rTag ∨ s.phase = .tTag) : s.seqStep = s.tagStep := by
  obtain hp | hp := hp <;> simp [seqStep, hp]

theorem seqStep_payload (hp : s.phase = .rPayload ∨ s.phase = .tPayload) :
    s.seqStep = s.payloadStep := by
  obtain hp | hp := hp <;> simp [seqStep, hp]

theorem phaseAsks_tag (hp : s.phase = .rTag ∨ s.phase = .tTag) : s.phaseAsks = 1 := by
  obtain hp | hp := hp <;> simp [phaseAsks, hp]

theorem phaseAsks_payload (hp : s.phase = .rPayload ∨ s.phase = .tPayload) :
    s.phaseAsks = s.rlen.toNat := by
  obtain hp | hp := hp <;> simp [phaseAsks, hp]

section
variable {rest : List RecvOutcome}

theorem tagStep_empty (h : s.env.recvs = .deliver :: rest) (hrx : s.rx = []) :
    s.tagStep = .waits (s.setEnv { s.env with recvs := rest }) := by
  rw [tagStep, s.chRecvExact_wait h (by simp [hrx])]

/-- With a byte in RX the tag step takes that byte and checks it. -/
theorem tagStep_byte {b : Byte} {more : List Byte} (h : s.env.recvs = .deliver :: rest)
    (hrx : s.rx = b :: more) :
    s.tagStep = .moved (((s.setEnv { s.env with recvs := rest }).setRx more).checkTag b) := by
  rw [tagStep, s.chRecvExact_deliver h (by simp [hrx])]
  simp [hrx]

theorem tagStep_fail {k : Nat} (h : s.env.recvs = .fail k :: rest) :
    s.tagStep = .moved (((s.setEnv { s.env with recvs := rest }).setRx
      (s.rx.drop (min k 1))).raise .errIo) := by
  rw [tagStep, chRecvExact_fail h]

theorem checkTag_match {b : Byte} (h : b = s.cfg.tagData) :
    s.checkTag b = s.setPhase (s.phase.next s.cfg) :=
  if_pos h

theorem checkTag_mismatch {b : Byte} (h : b ≠ s.cfg.tagData) :
    s.checkTag b = s.raise (.errDesync b) :=
  if_neg h

theorem payloadStep_short (h : s.env.recvs = .deliver :: rest)
    (hrx : s.rx.length < s.rlen.toNat) :
    s.payloadStep = .waits (s.setEnv { s.env with recvs := rest }) := by
  rw [payloadStep, s.chRecvExact_wait h hrx]

theorem payloadStep_enough (h : s.env.recvs = .deliver :: rest)
    (hrx : s.rlen.toNat ≤ s.rx.length) :
    s.payloadStep = .moved ((((s.setEnv { s.env with recvs := rest }).setRx
      (s.rx.drop s.rlen.toNat)).setRbuf
        (s.rx.take s.rlen.toNat ++ s.rbuf.drop s.rlen.toNat)).setPhase (s.phase.next s.cfg)) := by
  rw [payloadStep, s.chRecvExact_deliver h hrx]
  simp [overlay, Nat.min_eq_left hrx]

/-- A failed payload receive rewrites `RBUF` and uses up free bytes, no more (rule R190). -/
theorem spoilRbuf_eq (s : State) :
    s.spoilRbuf = (s.setEnv { s.env with drawn := s.env.drawn + s.rlen.toNat }).setRbuf
      (overlay (s.drawBytes s.rlen.toNat).1 s.rbuf) := rfl

theorem payloadStep_fail {k : Nat} (h : s.env.recvs = .fail k :: rest) :
    s.payloadStep = .moved (((s.setEnv { s.env with recvs := rest }).setRx
      (s.rx.drop (min k s.rlen.toNat))).spoilRbuf.raise .errIo) := by
  rw [payloadStep, chRecvExact_fail h]

end

/-! ### The step at `UNLOCK` after an error -/

/-- Whatever the job, after an error it ends with a report of that error; an OPEN has released its
pins before (rules R126, R187, R190). -/
theorem endJob_of_error (h : s.outcome ≠ .ok) :
    ∃ u : State, s.endJob = u.finish s.outcome (.status s.outcome) ∧ u.env = s.env ∧
      u.opThread = s.opThread := by
  have hret : s.replyRet = .status s.outcome := if_neg h
  have hstatus : s.replyStatus = s.outcome := if_neg h
  obtain ⟨hj, ho, hend⟩ | ⟨hj, ho, -⟩ | ⟨-, hend⟩ := s.endJob_spec
  · obtain ⟨hok, -⟩ | ⟨-, hopen⟩ := s.endOpen_spec
    · exact absurd hok h
    · exact ⟨_, hend.trans hopen, by simp [releasePin, setPin], by simp [releasePin, setPin]⟩
  · refine ⟨s, ?_, rfl, rfl⟩
    rw [endJob, hj]
    cases hop : s.opsel
    case openEngine => exact absurd hop ho
    all_goals simp [endOperation, hop, hret]
  · exact ⟨s, by rw [hend, hret, hstatus], rfl, rfl⟩

end State

/-! ### READ's and TRANSFER's phases around the reply -/

/-- The phases `stop`, `tag` and `pay` follow each other, up to `UNLOCK`, and are READ's or
TRANSFER's (rule R160). -/
structure ReplyPhases (c : Config) (stop tag pay : Phase) : Prop where
  stop_kind : stop = .rStop ∨ stop = .tStop
  tag_kind : tag = .rTag ∨ tag = .tTag
  pay_kind : pay = .rPayload ∨ pay = .tPayload
  stop_next : stop.next c = tag
  tag_next : tag.next c = pay
  pay_next : pay.next c = .unlock

theorem replyPhases_read (c : Config) : ReplyPhases c .rStop .rTag .rPayload :=
  ⟨.inl rfl, .inl rfl, .inl rfl, rfl, rfl, rfl⟩

theorem replyPhases_transfer (c : Config) : ReplyPhases c .tStop .tTag .tPayload :=
  ⟨.inr rfl, .inr rfl, .inr rfl, rfl, rfl, rfl⟩

/-- Settles O40: at each of the three phases the outcome of the Channel call is known, so the step is
one of the known steps above; READ and TRANSFER differ in the phases' names only. -/
theorem replyTagIsChecked : Obligations.ReplyTagIsChecked := by
  intro s b more ss rs stop tag pay hphases hsends hrecvs
  have h : ReplyPhases s.cfg stop tag pay := by
    obtain ⟨rfl, rfl, rfl⟩ | ⟨rfl, rfl, rfl⟩ := hphases
    · exact replyPhases_read _
    · exact replyPhases_transfer _
  refine ⟨fun hp => ?stop, fun hp hrx => ?tagWaits, fun hp hrx hb => ?tagDiffers,
    fun hp hrx hb => ?tagMatches, fun hp hrx => ?payWaits, fun hp hrx => ?payTaken⟩
  case stop =>
    exact ⟨_, State.seqStep_stop_ok (hp ▸ h.stop_kind) hsends, by simp [hp, h.stop_next], rfl, rfl⟩
  case tagWaits =>
    rw [State.seqStep_tag (hp ▸ h.tag_kind), State.tagStep_empty hrecvs hrx]
    exact ⟨_, rfl, hp, hrx, rfl, rfl⟩
  case tagDiffers =>
    rw [State.seqStep_tag (hp ▸ h.tag_kind), State.tagStep_byte hrecvs hrx,
      State.checkTag_mismatch (by exact hb)]
    exact ⟨_, rfl, rfl, rfl, rfl, rfl, rfl, rfl, nofun⟩
  case tagMatches =>
    rw [State.seqStep_tag (hp ▸ h.tag_kind), State.tagStep_byte hrecvs hrx,
      State.checkTag_match (by exact hb)]
    exact ⟨_, rfl, by simp [hp, h.tag_next], rfl, rfl, rfl⟩
  case payWaits =>
    rw [State.seqStep_payload (hp ▸ h.pay_kind), State.payloadStep_short hrecvs hrx]
    exact ⟨_, rfl, hp, rfl, rfl, rfl⟩
  case payTaken =>
    rw [State.seqStep_payload (hp ▸ h.pay_kind), State.payloadStep_enough hrecvs hrx]
    exact ⟨_, rfl, by simp [hp, h.pay_next], rfl, rfl, rfl, rfl⟩

/-! ### A failed Channel call -/

namespace State

variable {s : State}

/-- A write that fails leaves some of its phase's bytes, from the front, and ends the sequence (rule
R156). -/
theorem seqStep_write_fail {k : Nat} {rest : List SendOutcome}
    (h : s.env.sends = .fail k :: rest) (hp : s.phase.Writes) :
    s.seqStep = .moved { s with
      tx := s.tx ++ s.phaseBytes.take k, phase := .unlock, outcome := .errIo,
      status := if s.phase = .oEnable then s.status else .errIo,
      env := { s.env with sends := rest } } := by
  rw [seqStep_writes hp, afterWrite_fail h]
  split <;> rfl

/-- A receive that fails takes at most the bytes asked for and ends the sequence (rule R156). -/
theorem seqStep_recv_fail {k : Nat} {rest : List RecvOutcome} (h : s.env.recvs = .fail k :: rest)
    (hp : s.phase = .rTag ∨ s.phase = .rPayload ∨ s.phase = .tTag ∨ s.phase = .tPayload) :
    ∃ t, s.seqStep = .moved t ∧ t.phase = .unlock ∧ t.status = .errIo ∧ t.outcome = .errIo ∧
      t.tx = s.tx ∧ t.rx = s.rx.drop (min k s.phaseAsks) ∧ t.env.recvs = rest ∧
      t.env.sends = s.env.sends := by
  have hkind : (s.phase = .rTag ∨ s.phase = .tTag) ∨ s.phase = .rPayload ∨ s.phase = .tPayload := by
    tauto
  obtain htag | hpay := hkind
  · rw [seqStep_tag htag, tagStep_fail h, phaseAsks_tag htag]
    exact ⟨_, rfl, rfl, rfl, rfl, rfl, rfl, rfl, rfl⟩
  · rw [seqStep_payload hpay, payloadStep_fail h, phaseAsks_payload hpay, spoilRbuf_eq]
    exact ⟨_, rfl, by simp [raise, abort]⟩

/-- The step at `UNLOCK` after an error frees the Channel lock and reports the error (rule R187). -/
theorem seqStep_unlock_of_error (hp : s.phase = .unlock) (h : s.outcome ≠ .ok) :
    ∃ t, s.seqStep = .moved t ∧ t.phase = .idle ∧ t.status = s.outcome ∧ t.chlock = .free ∧
      t.tx = s.tx ∧ t.rx = s.rx ∧ t.env = s.env ∧ t.ret = .status s.outcome ∧
      t.retTo = s.opThread := by
  have hstep : s.seqStep = .moved s.releaseChannel.endJob := by simp [seqStep, hp]
  obtain ⟨hphase, htx, hrx, hlock, -⟩ := s.releaseChannel.endJob_frame
  obtain ⟨u, hend, henv, hthread⟩ := endJob_of_error (s := s.releaseChannel) h
  refine ⟨_, hstep, hphase, ?_, hlock, htx, hrx, ?_, ?_, ?_⟩ <;> rw [hend]
  exacts [rfl, henv, rfl, hthread]

end State

/-- Settles O43: a failing write, a failing receive, and the step at `UNLOCK` that follows either. -/
theorem failureAbortsTheSequence : Obligations.FailureAbortsTheSequence :=
  ⟨fun _ _ _ hsends hp => State.seqStep_write_fail hsends hp,
    fun _ _ _ hrecvs hp => State.seqStep_recv_fail hrecvs hp,
    fun _ hp herror => State.seqStep_unlock_of_error hp herror⟩

end Sys2Proof.Machine
end

section
/-! PROOFS. Encodings: the operands one by one (rules R76 to R79, R86), the frames and the requests
made of them, the decoders' answers, and a reader of a recorded TX stream (rule R84). -/

namespace Sys2Proof

/-! ### Operands -/

theorem startArg_addr (a : BusAddr) (d : Dir) : (startArg a d).extractLsb' 1 7 = a :=
  BitVec.extractLsb'_append_eq_left

theorem startArg_dir (a : BusAddr) (d : Dir) : (startArg a d).extractLsb' 0 1 = d.bit :=
  BitVec.extractLsb'_append_eq_right

theorem startArg_eq_shift (a : BusAddr) (d : Dir) :
    startArg a d = (a.setWidth 8 <<< 1) ||| d.bit.setWidth 8 := by
  show a ++ d.bit = _
  rw [BitVec.append_def, BitVec.shiftLeftZeroExtend_eq, BitVec.setWidth'_eq]

/-- Settles O8: the start argument is the address's seven bits above the direction's one. -/
theorem startArgumentLayout : Obligations.StartArgumentLayout :=
  fun a d => ⟨startArg_addr a d, startArg_dir a d, startArg_eq_shift a d⟩

/-- Reading a start argument gives back what it was made of (rule R77). -/
theorem startOfArg_startArg (a : BusAddr) (d : Dir) : startOfArg (startArg a d) = .start a d := by
  have hbit : dirOfBit ((startArg a d).getLsbD 0) = d := by
    show dirOfBit ((a ++ d.bit).getLsbD 0) = d
    rw [BitVec.getLsbD_append]
    cases d <;> rfl
  rw [startOfArg, startArg_addr, hbit]

theorem opOfOpsel_opsel (o : Op) : opOfOpsel o.opsel = o := by
  cases o <;> rfl

theorem byteOf_toNat {n : Nat} (h : n < 256) : (byteOf n).toNat = n :=
  BitVec.toNat_ofNat n 8 ▸ Nat.mod_eq_of_lt h

theorem decode32_encode32 (k : BitVec 32 → Instr) (v : BitVec 32) (rest : List Byte) :
    decode32 k (encode32 v ++ rest) = .ok (k v, rest) := by
  have hv : v.extractLsb' 24 8 ++ v.extractLsb' 16 8 ++ v.extractLsb' 8 8 ++ v.extractLsb' 0 8 = v := by
    rw [BitVec.extractLsb'_append_extractLsb'_eq_extractLsb' (by rfl),
      BitVec.extractLsb'_append_extractLsb'_eq_extractLsb' (by rfl),
      BitVec.extractLsb'_append_extractLsb'_eq_extractLsb' (by rfl), BitVec.extractLsb'_eq_self]
  simp [encode32, decode32, hv]

theorem decodeBuffer_append (k : List Byte → Instr) (w rest : List Byte) :
    decodeBuffer k w.length (w ++ rest) = .ok (k w, rest) := by
  simp [decodeBuffer]

theorem checkAddr_inContract {a : Byte} (h : a.toNat < 128) (answer : Decoded) :
    checkAddr a answer = answer :=
  if_pos (decide_eq_true h)

/-- The selector byte of an operation selects that operation (rule R85). -/
theorem decodeRequest_selector (o : Op) (rest : List Byte) :
    decodeRequest (selector o :: rest) = decodeOperands rest o := by
  have hhigh : (selector o).extractLsb' 3 5 = 0#5 := BitVec.extractLsb'_append_eq_left
  have hlow : (selector o).extractLsb' 0 3 = o.opsel := BitVec.extractLsb'_append_eq_right
  rw [decodeRequest, if_pos hhigh, hlow, opOfOpsel_opsel]

/-! ### Requests -/

theorem decode_send {a : Nat} {w : List Byte} (ha : a < 128) (hw : w.length ≤ 255)
    (rest : List Byte) :
    decodeRequest (selector .send :: byteOf a :: byteOf w.length :: (w ++ rest)) =
      .ok (.send a w, rest) := by
  have haddr : (byteOf a).toNat = a := byteOf_toNat (by omega)
  rw [decodeRequest_selector, decodeOperands, decodeSend, checkAddr_inContract (by omega), haddr,
    byteOf_toNat (by omega), decodeBuffer_append]

theorem decode_read {a n : Nat} (ha : a < 128) (hn : n ≤ 255) (rest : List Byte) :
    decodeRequest (selector .read :: byteOf a :: byteOf n :: rest) = .ok (.read a n, rest) := by
  have haddr : (byteOf a).toNat = a := byteOf_toNat (by omega)
  rw [decodeRequest_selector, decodeOperands, decodeRead, checkAddr_inContract (by omega), haddr,
    byteOf_toNat (by omega)]

theorem decode_transfer {a n : Nat} {w : List Byte} (ha : a < 128) (hw : w.length ≤ 255)
    (hn : n ≤ 255) (rest : List Byte) :
    decodeRequest (selector .transfer :: byteOf a :: byteOf n :: byteOf w.length :: (w ++ rest)) =
      .ok (.transfer a w n, rest) := by
  have haddr : (byteOf a).toNat = a := byteOf_toNat (by omega)
  rw [decodeRequest_selector, decodeOperands, decodeTransfer, checkAddr_inContract (by omega), haddr,
    byteOf_toNat (by omega), byteOf_toNat (n := w.length) (by omega), decodeBuffer_append]

/-- A request whose one operand is a 32-bit field. -/
theorem decode_field {o : Op} {k : BitVec 32 → Instr}
    (ho : ∀ bytes, decodeOperands bytes o = decode32 k bytes) (v : BitVec 32) (rest : List Byte) :
    decodeRequest (selector o :: (encode32 v ++ rest)) = .ok (k v, rest) := by
  rw [decodeRequest_selector, ho, decode32_encode32]

/-- A request whose one operand is a pin index (rule R86, log entry 3). -/
theorem decode_index {o : Op} {k : Nat → Instr}
    (ho : ∀ bytes, decodeOperands bytes o = decode32 (fun v => k v.toNat) bytes) {i : Nat}
    (h : indexFits i = true) (rest : List Byte) :
    decodeRequest (selector o :: (encode32 (BitVec.ofNat 32 i) ++ rest)) = .ok (k i, rest) := by
  rw [decode_field ho, BitVec.toNat_ofNat, Nat.mod_eq_of_lt (of_decide_eq_true h)]

/-! ### Frames -/

/-- No two opcodes are the same (rule R5): a frame's opcode is none of those the decoder tries
before it. -/
theorem Config.opcodes_distinct {c : Config} (h : c.wf = true) :
    c.opStart ≠ c.opEnableI2c ∧ (c.opTx ≠ c.opEnableI2c ∧ c.opTx ≠ c.opStart) ∧
      (c.opRx ≠ c.opEnableI2c ∧ c.opRx ≠ c.opStart ∧ c.opRx ≠ c.opTx) ∧
      c.opStop ≠ c.opEnableI2c ∧ c.opStop ≠ c.opStart ∧ c.opStop ≠ c.opTx ∧ c.opStop ≠ c.opRx := by
  have hnodup : c.opcodes.Nodup := by
    simp only [wf, Bool.and_eq_true, decide_eq_true_eq] at h
    tauto
  simp only [opcodes, List.nodup_cons, List.mem_cons, List.not_mem_nil, or_false, not_or] at hnodup
  tauto

section
variable {c : Config}

theorem decodeCommand_enable (d : Byte) (rest : List Byte) :
    decodeCommand c (c.opEnableI2c :: d :: rest) = .ok (.enableI2c d, rest) := by
  simp [decodeCommand, decodeArg]

theorem decodeCommand_start (h : c.wf = true) (a : BusAddr) (d : Dir) (rest : List Byte) :
    decodeCommand c (c.opStart :: startArg a d :: rest) = .ok (.start a d, rest) := by
  obtain ⟨he, -⟩ := Config.opcodes_distinct h
  simp [decodeCommand, decodeArg, he, startOfArg_startArg]

theorem decodeCommand_tx (h : c.wf = true) (n : Byte) (rest : List Byte) :
    decodeCommand c (c.opTx :: n :: rest) = .ok (.tx n, rest) := by
  obtain ⟨-, ⟨he, hs⟩, -⟩ := Config.opcodes_distinct h
  simp [decodeCommand, decodeArg, he, hs]

theorem decodeCommand_rx (h : c.wf = true) (n : Byte) (rest : List Byte) :
    decodeCommand c (c.opRx :: n :: rest) = .ok (.rx n, rest) := by
  obtain ⟨-, -, ⟨he, hs, ht⟩, -⟩ := Config.opcodes_distinct h
  simp [decodeCommand, decodeArg, he, hs, ht]

theorem decodeCommand_stop (h : c.wf = true) (rest : List Byte) :
    decodeCommand c (c.opStop :: rest) = .ok (.stop, rest) := by
  obtain ⟨-, -, -, he, hs, ht, hr⟩ := Config.opcodes_distinct h
  simp [decodeCommand, he, hs, ht, hr]

theorem decodeReply_data (n : Byte) (rest : List Byte) :
    decodeReply c (c.tagData :: n :: rest) = .ok (.data n, rest) := by
  simp [decodeReply, decodeArg]

end

/-- Settles O6: one case per row of the opcode table, by the frame or request it is encoded as. -/
theorem decodeOfEncode : Obligations.DecodeOfEncode := by
  intro c i rest hc hi
  cases i with
  | enableI2c d => exact decodeCommand_enable d rest
  | start a d => exact decodeCommand_start hc a d rest
  | tx n => exact decodeCommand_tx hc n rest
  | rx n => exact decodeCommand_rx hc n rest
  | stop => exact decodeCommand_stop hc rest
  | data n => exact decodeReply_data n rest
  | openEngine f => exact decode_field (o := .openEngine) (k := .openEngine) (fun _ => rfl) f rest
  | send a w =>
    simp only [Instr.wellFormed, addrInContract, lenInContract, Bool.and_eq_true,
      decide_eq_true_eq] at hi
    exact decode_send hi.1 hi.2 rest
  | read a n =>
    simp only [Instr.wellFormed, addrInContract, lenInContract, Bool.and_eq_true,
      decide_eq_true_eq] at hi
    exact decode_read hi.1 hi.2 rest
  | transfer a w n =>
    simp only [Instr.wellFormed, addrInContract, lenInContract, Bool.and_eq_true,
      decide_eq_true_eq] at hi
    obtain ⟨⟨ha, hw⟩, hn⟩ := hi
    exact decode_transfer ha hw hn rest
  | close => exact decodeRequest_selector .close rest
  | divisor f => exact decode_field (o := .divisor) (k := .divisor) (fun _ => rfl) f rest
  | pin i => exact decode_index (o := .pin) (k := .pin) (fun _ => rfl) hi rest
  | pinRelease i =>
    exact decode_index (o := .pinRelease) (k := .pinRelease) (fun _ => rfl) hi rest

/-! ### What a decoder can answer -/

section
variable {i : Instr} {bytes rest : List Byte}

theorem decodeArg_ok {k : Byte → Instr} (h : decodeArg k bytes = .ok (i, rest)) : ∃ b, i = k b := by
  cases bytes with
  | nil => cases h
  | cons b bytes => cases h; exact ⟨b, rfl⟩

theorem decode32_ok {k : BitVec 32 → Instr} (h : decode32 k bytes = .ok (i, rest)) :
    ∃ v, i = k v := by
  unfold decode32 at h
  split at h
  · cases h; exact ⟨_, rfl⟩
  · cases h

theorem decodeBuffer_ok {k : List Byte → Instr} {n : Nat}
    (h : decodeBuffer k n bytes = .ok (i, rest)) : ∃ w, w.length = n ∧ i = k w := by
  unfold decodeBuffer at h
  split at h
  next hn => cases h; exact ⟨bytes.take n, by simp [hn], rfl⟩
  next => cases h

theorem checkAddr_ok {a : Byte} {answer : Decoded} (h : checkAddr a answer = .ok (i, rest)) :
    a.toNat < 128 ∧ answer = .ok (i, rest) := by
  unfold checkAddr at h
  split at h
  next ha => exact ⟨of_decide_eq_true ha, h⟩
  next => cases h

/-- A byte of a request is a length in contract (rule R78). -/
theorem lenInContract_byte (n : Byte) : lenInContract n.toNat = true :=
  decide_eq_true (Nat.le_of_lt_succ n.isLt)

theorem decodeCommand_wellFormed {c : Config} (h : decodeCommand c bytes = .ok (i, rest)) :
    i.wellFormed = true := by
  cases bytes with
  | nil => cases h
  | cons op bytes =>
    rw [decodeCommand] at h
    split at h
    · obtain ⟨b, rfl⟩ := decodeArg_ok h; rfl
    split at h
    · obtain ⟨b, rfl⟩ := decodeArg_ok h; rfl
    split at h
    · obtain ⟨b, rfl⟩ := decodeArg_ok h; rfl
    split at h
    · obtain ⟨b, rfl⟩ := decodeArg_ok h; rfl
    split at h
    · cases h; rfl
    · cases h

theorem decodeReply_wellFormed {c : Config} (h : decodeReply c bytes = .ok (i, rest)) :
    i.wellFormed = true := by
  cases bytes with
  | nil => cases h
  | cons tag bytes =>
    rw [decodeReply] at h
    split at h
    · obtain ⟨b, rfl⟩ := decodeArg_ok h; rfl
    · cases h

theorem decodeSend_wellFormed (h : decodeSend bytes = .ok (i, rest)) : i.wellFormed = true := by
  unfold decodeSend at h
  split at h
  · obtain ⟨ha, hbuf⟩ := checkAddr_ok h
    obtain ⟨w, hw, rfl⟩ := decodeBuffer_ok hbuf
    simp [Instr.wellFormed, addrInContract, ha, hw, lenInContract_byte]
  · cases h

theorem decodeRead_wellFormed (h : decodeRead bytes = .ok (i, rest)) : i.wellFormed = true := by
  unfold decodeRead at h
  split at h
  · obtain ⟨ha, hread⟩ := checkAddr_ok h
    cases hread
    simp [Instr.wellFormed, addrInContract, ha, lenInContract_byte]
  · cases h

theorem decodeTransfer_wellFormed (h : decodeTransfer bytes = .ok (i, rest)) :
    i.wellFormed = true := by
  unfold decodeTransfer at h
  split at h
  · obtain ⟨ha, hbuf⟩ := checkAddr_ok h
    obtain ⟨w, hw, rfl⟩ := decodeBuffer_ok hbuf
    simp [Instr.wellFormed, addrInContract, ha, hw, lenInContract_byte]
  · cases h

theorem decodeOperands_wellFormed {o : Op} (h : decodeOperands bytes o = .ok (i, rest)) :
    i.wellFormed = true := by
  cases o with
  | openEngine | divisor => obtain ⟨v, rfl⟩ := decode32_ok h; rfl
  | send => exact decodeSend_wellFormed h
  | read => exact decodeRead_wellFormed h
  | transfer => exact decodeTransfer_wellFormed h
  | close => cases h; rfl
  | pin =>
    obtain ⟨v, rfl⟩ := decode32_ok (k := fun v => .pin v.toNat) h
    exact decide_eq_true v.isLt
  | pinRelease =>
    obtain ⟨v, rfl⟩ := decode32_ok (k := fun v => .pinRelease v.toNat) h
    exact decide_eq_true v.isLt

theorem decodeRequest_wellFormed (h : decodeRequest bytes = .ok (i, rest)) :
    i.wellFormed = true := by
  cases bytes with
  | nil => cases h
  | cons sel bytes =>
    rw [decodeRequest] at h
    split at h
    · exact decodeOperands_wellFormed h
    · cases h

end

/-- Settles O7: by the space. The only fields wide enough to hold an operand out of contract are the
addresses, and the decoder checks them (rule R83). -/
theorem decodedIsInContract : Obligations.DecodedIsInContract := by
  intro c sp bytes rest i h
  cases sp with
  | command => exact decodeCommand_wellFormed h
  | reply => exact decodeReply_wellFormed h
  | request => exact decodeRequest_wellFormed h

/-- Settles O9: seven words, each decoded by evaluation. -/
theorem writtenWordsDecode : Obligations.WrittenWordsDecode := by
  unfold Obligations.WrittenWordsDecode
  decide +kernel

/-! ### A reader of TX -/

section
variable {c : Config} {fuel : Nat} {bytes rest : List Byte} {i : Instr}

theorem readStream_nil (fuel : Nat) : readStream c fuel [] = .ok [] := by
  cases fuel <;> rfl

/-- The reader takes a frame that announces no data run, and goes on (rule R84). -/
theorem readStream_frame (hne : bytes ≠ []) (h : decodeCommand c bytes = .ok (i, rest))
    (hi : runLength i = 0) {items : List WireItem} (hrest : readStream c fuel rest = .ok items) :
    readStream c (fuel + 1) bytes = .ok (⟨i, []⟩ :: items) := by
  cases bytes with
  | nil => exact absurd rfl hne
  | cons b bytes => simp [readStream, h, hi, hrest]

/-- The reader takes the bytes that a TX frame announces for its data run, whatever they are. -/
theorem readStream_tx (hc : c.wf = true) (n : Byte) {run : List Byte} (hn : run.length = n.toNat)
    {items : List WireItem} (hrest : readStream c fuel rest = .ok items) :
    readStream c (fuel + 1) (c.opTx :: n :: (run ++ rest)) = .ok (⟨.tx n, run⟩ :: items) := by
  simp [readStream, decodeCommand_tx hc, runLength, ← hn, hrest]

end

/-- Settles O10: START announces nothing, TX exactly the buffer, STOP nothing. -/
theorem recordedSendReadsBack : Obligations.RecordedSendReadsBack := by
  intro c a w hc hw
  have hlen : w.length = (BitVec.ofNat 8 w.length).toNat := (byteOf_toNat (by omega)).symm
  have hstop : readStream c 1 [c.opStop] = .ok [⟨.stop, []⟩] :=
    readStream_frame (by simp) (decodeCommand_stop hc []) rfl (readStream_nil 0)
  have hstream : Machine.sendBytes c a w = c.opStart :: startArg (BitVec.ofNat 7 a) .write ::
      c.opTx :: BitVec.ofNat 8 w.length :: (w ++ [c.opStop]) := by
    simp [Machine.sendBytes, startFrame, txFrame, stopFrame]
  rw [hstream]
  exact readStream_frame (by simp) (decodeCommand_start hc _ _ _) rfl
    (readStream_tx hc _ hlen hstop)

/-- Settles O11: without a data phase the second START, the RX frame and STOP are the five bytes that
follow the TX frame, and the reader takes them for its data run. -/
theorem recordedTransferIsMisread : Obligations.RecordedTransferIsMisread := by
  intro c a n w hc hphase hw
  have hstream : Machine.transferBytes c a w n =
      c.opStart :: startArg (BitVec.ofNat 7 a) c.xferFirstDir :: c.opTx :: 5#8 ::
        ((startFrame c (BitVec.ofNat 7 a) .read ++ rxFrame c (BitVec.ofNat 8 n) ++ stopFrame c) ++
          []) := by
    simp [Machine.transferBytes, Machine.xferRun, hphase, hw, startFrame, txFrame]
  rw [hstream]
  exact readStream_frame (by simp) (decodeCommand_start hc _ _ _) rfl
    (readStream_tx hc _ (by simp [startFrame, rxFrame, stopFrame]) (readStream_nil 0))

end Sys2Proof
end

section
/-! PROOFS. What a call can do, once: `Effect i s t` lists the ends that `exec i s` can have, and
`Begun i s t` the states from which the sequencer has its turn within the call. Later proofs split a
call by these and not by the branches of its meaning. -/

namespace Sys2Proof.Machine

/-- A pin's lock is held by somebody. -/
def State.IsHeld (s : State) (i : Nat) : Prop := ∃ o, s.pinlock[i]? = some (.held o)

/-- What a call has latched and taken where the sequencer goes on with it at once (rules R14, R109,
R126, R151; log entry 7). -/
inductive Begun (s : State) : Instr → State → Prop
  | send (a : Nat) (w : List Byte) : a < 128 → w.length ≤ maxLen → s.engExists = true →
      s.phase = .idle → Begun s (.send a w) ((s.latchSend a w).setPhase .sLock)
  | read (a n : Nat) : a < 128 → n ≤ maxLen → s.engExists = true →
      s.phase = .idle → Begun s (.read a n) ((s.latchRead a n).setPhase .rLock)
  | transfer (a : Nat) (w : List Byte) (n : Nat) : a < 128 → w.length ≤ maxLen → n ≤ maxLen →
      s.engExists = true → s.phase = .idle →
      Begun s (.transfer a w n) ((s.latchTransfer a w n).setPhase .tLock)
  | reply (n : Byte) : s.phase = .idle → s.chlock = .free →
      Begun s (.data n) (((s.latchReply n).setChlock (.held .sequencer)).setPhase .rTag)
  | clockTaken (f : Freq) : s.phase = .idle → s.pinlock[pinScl]? = some .free →
      Begun s (.openEngine f) (s.clockTaken f)
  | overtaken (f : Freq) : s.phase = .oAcqScl → s.pinlock[pinScl]? = some .free →
      Begun s (.openEngine f) (overtake f s)

/-- The ends a call can have that answers a next state. -/
inductive Effect (s : State) : Instr → State → Prop
  | waits (i : Instr) (on : Option Nat) (e : Env) : mayWait i = true →
      (∀ k, on = some k → s.IsHeld k) →
      Effect s i ((s.setEnv e).setWaiting (s.waiting ++ [⟨s.caller, i, on⟩]))
  | framed (i : Instr) (e : Env) (p : List Byte) (sent : Bool) : s.chlock = .free →
      i.space = .command → Effect s i (((s.setEnv e).setTx (s.tx ++ p)).answer s.caller (.frame sent))
  | reported (i : Instr) (e : Env) (st : Status) : st ≠ .ok → st ≠ .errIo →
      Effect s i ((s.setEnv e).reply st (.status st))
  | divided (f : Freq) :
      Effect s (.divisor f) (s.answer s.caller (.divisor (computeDivisor s.cfg f)))
  | pinTaken (k : Nat) : s.pinlock[k]? = some .free →
      Effect s (.pin k) ((s.setPin k (.held (.host s.caller))).reply .ok (.handle k))
  | pinFreed (k : Nat) : s.pinlock[k]? = some (.held (.host s.caller)) →
      Effect s (.pinRelease k) ((s.releasePin k).reply .ok .nothing)
  | openFailed (f : Freq) (e : Env) (st : Status) : s.phase = .idle → st ≠ .ok → st ≠ .errIo →
      Effect s (.openEngine f) (((s.latchOpen f).setEnv e).reply st (.status st))
  | openStands (f : Freq) (e : Env) : s.phase = .idle → s.engExists = false → s.IsHeld pinScl →
      Effect s (.openEngine f)
        ((((s.latchOpen f).setPhase .oAcqScl).setEnv e).setParked (some pinScl))
  | began {i : Instr} {t : State} : Begun s i t → Effect s i t.runSequencer
  | closed : s.engExists = true → s.phase = .idle → Effect s .close s.beginClose.runCloser

section
variable {s t : State}

theorem defer_effect {i : Instr} (hi : mayWait i = true) : Effect s i (s.defer i) :=
  .waits i none s.env hi nofun

theorem bareFrame_effect {i : Instr} {opcode : Byte} {payload : List Byte} (hi : mayWait i = true)
    (hspace : i.space = .command) (h : bareFrame i opcode payload s = .next t) : Effect s i t := by
  obtain ⟨-, he⟩ | ⟨hc, e, p, sent, -, -, he⟩ := bareFrame_spec i opcode payload s
  · cases he.symm.trans h; exact defer_effect hi
  · cases he.symm.trans h; exact .framed i e p sent hc hspace

theorem execData_effect {n : Byte} (h : execData n s = .next t) : Effect s (.data n) t := by
  unfold execData at h
  split at h
  next hp =>
    split at h
    next => cases h; exact defer_effect rfl
    next hc => cases h; exact .began (.reply n hp hc)
  next => cases h; exact defer_effect rfl

/-- An accepted operation waits, or begins. -/
theorem acceptOperation_effect {bad : Option Refusal} {i : Instr} {latched : State} {first : Phase}
    (hi : mayWait i = true)
    (hbegun : bad = none → s.engExists = true → s.phase = .idle → Begun s i (latched.setPhase first))
    (h : acceptOperation bad i latched first s = .next t) : Effect s i t := by
  obtain ⟨r, -, he⟩ | ⟨-, -, he⟩ | ⟨-, -, -, he⟩ | ⟨hb, hx, hp, he⟩ :=
    acceptOperation_spec bad i latched first s
  · cases he.symm.trans h
  · cases he.symm.trans h
  · cases he.symm.trans h; exact defer_effect hi
  · cases he.symm.trans h; exact .began (hbegun hb hx hp)

theorem execSend_effect {a : Nat} {w : List Byte} (h : execSend a w s = .next t) :
    Effect s (.send a w) t := by
  refine acceptOperation_effect rfl (fun hb hx hp => ?_) h
  obtain ⟨ha, hlen⟩ := contractRefusal_none.1 hb
  exact .send a w ha (hlen _ (by simp)) hx hp

theorem execRead_effect {a n : Nat} (h : execRead a n s = .next t) : Effect s (.read a n) t := by
  refine acceptOperation_effect rfl (fun hb hx hp => ?_) h
  obtain ⟨ha, hlen⟩ := contractRefusal_none.1 hb
  exact .read a n ha (hlen _ (by simp)) hx hp

theorem execTransfer_effect {a n : Nat} {w : List Byte} (h : execTransfer a w n s = .next t) :
    Effect s (.transfer a w n) t := by
  refine acceptOperation_effect rfl (fun hb hx hp => ?_) h
  obtain ⟨ha, hlen⟩ := contractRefusal_none.1 hb
  exact .transfer a w n ha (hlen _ (by simp)) (hlen _ (by simp)) hx hp

/-- An OPEN at an idle sequencer, by its attempt on pin 0 (rules R123 to R126, log entry 7). -/
theorem openIdle_effect {f : Freq} (hp : s.phase = .idle) :
    Effect s (.openEngine f) (afterAcqScl f s ((s.latchOpen f).setPhase .oAcqScl).acqSclStep) := by
  obtain ⟨hb, -⟩ | ⟨-, ⟨hfree, he⟩ | ⟨st, e, hok, hio, he⟩ | ⟨e, o, ho, he⟩⟩ :=
    ((s.latchOpen f).setPhase .oAcqScl).acquireStep_spec pinScl
      (fun s' => (s'.setHasScl true).setPhase (s'.phase.next s'.cfg))
      (fun st s' => s'.finish st (.status st))
  · cases hb
  · have htaken : (((((s.latchOpen f).setPhase .oAcqScl).setPin pinScl (.held .engine)).setParked none
        ).setHasScl true).setPhase .oAcqSda = s.clockTaken f := by
      simp [State.clockTaken, State.latchOpen, State.setPin, State.setPinlock, State.setParked,
        State.setHasScl, State.setPhase]
    rw [State.acqSclStep, he, afterAcqScl]
    exact htaken ▸ .began (.clockTaken f hp hfree)
  · have hidle : ((s.latchOpen f).setPhase .idle) = s.latchOpen f := by
      rw [← hp]; rfl
    rw [State.acqSclStep, he, afterAcqScl, State.runSequencer_idle rfl]
    have heffect := Effect.openFailed f e st hp hok hio
    rw [← hidle] at heffect
    exact heffect
  · rw [State.acqSclStep, he, afterAcqScl]
    cases hx : s.engExists with
    | true => exact .waits _ (some pinScl) e rfl fun k hk => Option.some.inj hk ▸ ⟨o, ho⟩
    | false => exact .openStands f e hp hx ⟨o, ho⟩

/-- An OPEN at a busy sequencer, by its attempt on pin 0 (log entry 7). -/
theorem openBusy_effect (f : Freq) : Effect s (.openEngine f) (openBusy f s) := by
  unfold openBusy
  obtain ⟨h, hfree⟩ | ⟨h, -⟩ | ⟨e, h, -⟩ | ⟨e, o, h, ho⟩ := acquirePin_spec s pinScl .engine
  · rw [h]
    by_cases hp : s.phase = .oAcqScl
    · simp only [hp]; exact .began (.overtaken f hp hfree)
    · simp only [hp]; exact defer_effect rfl
  · rw [h]; exact .reported _ s.env _ nofun nofun
  · rw [h]; exact .reported _ e _ nofun nofun
  · rw [h]; exact .waits _ (some pinScl) e rfl fun k hk => Option.some.inj hk ▸ ⟨o, ho⟩

theorem execOpen_effect {f : Freq} (h : execOpen f s = .next t) : Effect s (.openEngine f) t := by
  unfold execOpen at h
  split at h
  next hp => cases h; exact openIdle_effect hp
  next => cases h; exact openBusy_effect f

theorem execClose_effect (h : execClose s = .next t) : Effect s .close t := by
  unfold execClose at h
  split at h
  next hx =>
    split at h
    next hp => cases h; exact .closed hx hp
    next => cases h
  next => cases h

theorem execPin_effect {k : Nat} (h : execPin k s = .next t) : Effect s (.pin k) t := by
  unfold execPin at h
  obtain ⟨ha, hfree⟩ | ⟨ha, -⟩ | ⟨e, ha, -⟩ | ⟨e, o, ha, ho⟩ :=
    acquirePin_spec s k (.host s.caller) <;> rw [ha] at h <;> cases h
  · exact .pinTaken k hfree
  · exact .reported _ s.env _ nofun nofun
  · exact .reported _ e _ nofun nofun
  · exact .waits _ (some k) e rfl fun j hj => Option.some.inj hj ▸ ⟨o, ho⟩

theorem execPinRelease_effect {k : Nat} (h : execPinRelease k s = .next t) :
    Effect s (.pinRelease k) t := by
  unfold execPinRelease at h
  split at h
  next hk => cases h; exact .pinFreed k hk
  next => cases h

/-- Every next state of a call is one of its effects. -/
theorem exec_effect {i : Instr} (h : exec i s = .next t) : Effect s i t := by
  cases i with
  | enableI2c _ | start _ _ | tx _ | rx _ | stop => exact bareFrame_effect rfl rfl h
  | data n => exact execData_effect h
  | openEngine f => exact execOpen_effect h
  | send a w => exact execSend_effect h
  | read a n => exact execRead_effect h
  | transfer a w n => exact execTransfer_effect h
  | close => exact execClose_effect h
  | divisor f => cases h; exact .divided f
  | pin k => exact execPin_effect h
  | pinRelease k => exact execPinRelease_effect h

end

/-- What a move of an agent outside the block does to a state (log entries 6 and 19). -/
inductive Outside (s : State) : State → Prop
  | idle : Outside s s
  | received (b : List Byte) : Outside s (s.setRx (s.rx ++ b))
  | locked : s.chlock = .free → Outside s (s.setChlock (.held .other))
  | wrote (b : List Byte) : s.chlock = .held .other → Outside s (s.setTx (s.tx ++ b))
  | unlocked : s.chlock = .held .other → Outside s (s.setChlock .free)
  | pinTaken (i : Nat) : s.pinlock[i]? = some .free → Outside s (s.setPin i (.held .other))
  | pinFreed (i : Nat) : s.pinlock[i]? = some (.held .other) → Outside s (s.releasePin i)
  | poisoned (i : Nat) : s.mayFail i = true → Outside s (s.setPin i .poisoned)

/-- A move that is enabled does what it says, and one that is not does nothing. -/
theorem applyEnv_outside (m : EnvMove) (s : State) : Outside s (applyEnv m s) := by
  have henabled : ∀ {p : Prop} [Decidable p] {t : State}, (p → Outside s t) →
      Outside s (if p then t else s) := by
    intro p _ t h
    split
    next hp => exact h hp
    next => exact .idle
  cases m with
  | coprocSends b => exact .received b
  | otherLocks => exact henabled .locked
  | otherWrites b => exact henabled (.wrote b)
  | otherUnlocks => exact henabled .unlocked
  | otherAcquires i => exact henabled (.pinTaken i)
  | otherReleases i => exact henabled (.pinFreed i)
  | poison i => exact henabled (.poisoned i)

end Sys2Proof.Machine
end

section
/-! PROOFS. The invariant: the few ways in which the block changes what the invariant speaks of, each
with the proof that it keeps the invariant; then the sequencer, the closer, the calls and the agents
outside the block, each as a combination of these. -/

namespace Sys2Proof.Machine

@[simp] theorem Progress.state_moved (s : State) : (Progress.moved s).state = s := rfl
@[simp] theorem Progress.state_waits (s : State) : (Progress.waits s).state = s := rfl

namespace State

/-! ### What the invariant does not speak of -/

/-- The state with everything blanked out of which the invariant says nothing. -/
def control (s : State) : State :=
  { s with port := .a, tx := [], rx := [], freq := 0, addr := 0, wlen := 0, rlen := 0, freqReq := 0,
           status := .ok, calls := [], caller := 0, ret := .nothing, retTo := 0, env := Env.unknown }

section
variable (s : State)

@[simp] theorem control_setEnv (e : Env) : (s.setEnv e).control = s.control := rfl
@[simp] theorem control_setTx (b : List Byte) : (s.setTx b).control = s.control := rfl
@[simp] theorem control_setRx (b : List Byte) : (s.setRx b).control = s.control := rfl
@[simp] theorem control_setFreq (f : Freq) : (s.setFreq f).control = s.control := rfl
@[simp] theorem control_setStatus (st : Status) : (s.setStatus st).control = s.control := rfl
@[simp] theorem control_setCalls (l : List Call) : (s.setCalls l).control = s.control := rfl
@[simp] theorem control_setCaller (t : Nat) : (s.setCaller t).control = s.control := rfl
@[simp] theorem control_answer (t : Nat) (r : Ret) : (s.answer t r).control = s.control := rfl
@[simp] theorem control_reply (st : Status) (r : Ret) : (s.reply st r).control = s.control := rfl
@[simp] theorem control_raise (e : Status) : (s.raise e).control = s.control.abort e := rfl
@[simp] theorem control_abort (e : Status) : (s.abort e).control = s.control.abort e := rfl
@[simp] theorem control_releasePin (i : Nat) :
    (s.releasePin i).control = s.control.releasePin i := rfl
@[simp] theorem control_setChlock (l : ChLock) :
    (s.setChlock l).control = s.control.setChlock l := rfl
@[simp] theorem control_setPinlock (l : List PinLock) :
    (s.setPinlock l).control = s.control.setPinlock l := rfl
@[simp] theorem control_setExists (b : Bool) :
    (s.setExists b).control = s.control.setExists b := rfl
@[simp] theorem control_setHasScl (b : Bool) :
    (s.setHasScl b).control = s.control.setHasScl b := rfl
@[simp] theorem control_setHasSda (b : Bool) :
    (s.setHasSda b).control = s.control.setHasSda b := rfl
@[simp] theorem control_setRbuf (b : List Byte) : (s.setRbuf b).control = s.control.setRbuf b := rfl
@[simp] theorem control_setPhase (p : Phase) : (s.setPhase p).control = s.control.setPhase p := rfl
@[simp] theorem control_setOutcome (st : Status) :
    (s.setOutcome st).control = s.control.setOutcome st := rfl
@[simp] theorem control_setParked (p : Option Nat) :
    (s.setParked p).control = s.control.setParked p := rfl
@[simp] theorem control_setClosing (l : List Nat) :
    (s.setClosing l).control = s.control.setClosing l := rfl
@[simp] theorem control_setCloseThread (t : Nat) :
    (s.setCloseThread t).control = s.control.setCloseThread t := rfl
@[simp] theorem control_setWaiting (l : List Waiter) :
    (s.setWaiting l).control = s.control.setWaiting l := rfl

end

/-- Two states that differ only in what the invariant does not speak of meet it together. -/
theorem Inv.of_control {s t : State} (h : s.Inv) (hst : t.control = s.control) : t.Inv := by
  have hcontrol : ∀ u : State, u.control.Inv ↔ u.Inv := fun u =>
    ⟨fun ⟨hsz, hsq, how, hpi, hwa⟩ => ⟨⟨hsz.1, hsz.2, hsz.3, hsz.4, hsz.5⟩,
      ⟨hsq.1, hsq.2, hsq.3, hsq.4, hsq.5, hsq.6⟩, how,
      ⟨hpi.1, hpi.2, hpi.3, hpi.4, hpi.5, hpi.6, hpi.7⟩, ⟨hwa.1, hwa.2, hwa.3, hwa.4, hwa.5⟩⟩,
    fun ⟨hsz, hsq, how, hpi, hwa⟩ => ⟨⟨hsz.1, hsz.2, hsz.3, hsz.4, hsz.5⟩,
      ⟨hsq.1, hsq.2, hsq.3, hsq.4, hsq.5, hsq.6⟩, how,
      ⟨hpi.1, hpi.2, hpi.3, hpi.4, hpi.5, hpi.6, hpi.7⟩, ⟨hwa.1, hwa.2, hwa.3, hwa.4, hwa.5⟩⟩⟩
  exact (hcontrol t).1 (hst ▸ (hcontrol s).2 h)

section
variable {s : State}

theorem Inv.setEnv (h : s.Inv) (e : Env) : (s.setEnv e).Inv := h.of_control (by simp)

theorem Inv.reply (h : s.Inv) (st : Status) (r : Ret) : (s.reply st r).Inv := h.of_control (by simp)

/-- `RBUF` may be written, cell by cell (rule R15). -/
theorem Inv.setRbuf (h : s.Inv) {b : List Byte} (hb : b.length = s.rbuf.length) :
    (s.setRbuf b).Inv := by
  obtain ⟨hsz, hsq, how, hpi, hwa⟩ := h
  exact ⟨⟨hsz.1, hsz.2, hsz.3, hsz.4, hb.trans hsz.5⟩, ⟨hsq.1, hsq.2, hsq.3, hsq.4, hsq.5, hsq.6⟩, how,
    ⟨hpi.1, hpi.2, hpi.3, hpi.4, hpi.5, hpi.6, hpi.7⟩, ⟨hwa.1, hwa.2, hwa.3, hwa.4, hwa.5⟩⟩

theorem overlay_length {b buffer : List Byte} (h : b.length ≤ buffer.length) :
    (overlay b buffer).length = buffer.length := by
  simp only [overlay, List.length_append, List.length_drop]
  omega

/-! ### Pin locks -/

/-- The pins that are the engine's: those it has, and those a CLOSE has still to release. -/
def Owns (s : State) (i : Nat) : Prop :=
  (i = pinScl ∧ s.hasScl = true) ∨ (i = pinSda ∧ s.hasSda = true) ∨ i ∈ s.closing

theorem Inv.owned_held (h : s.Inv) {i : Nat} (hi : s.Owns i) : s.pinlock[i]? = engineHeld := by
  obtain ⟨rfl, hi⟩ | ⟨rfl, hi⟩ | hi := hi
  · exact h.pins.scl_held hi
  · exact h.pins.sda_held hi
  · exact h.pins.closing_held i hi

theorem Inv.not_owns (h : s.Inv) {i : Nat} (hi : s.pinlock[i]? ≠ engineHeld) : ¬ s.Owns i :=
  fun ho => hi (h.owned_held ho)

theorem setPin_other {i j : Nat} (hij : i ≠ j) (l : PinLock) :
    (s.setPin i l).pinlock[j]? = s.pinlock[j]? := by
  rw [setPin_read, if_neg (fun hand => hij hand.1)]

/-- A write of one lock leaves the others, so the engine's, if it is not one of them. -/
theorem PinsHeld.setPin (h : s.PinsHeld) {i : Nat} (hi : ¬ s.Owns i) (l : PinLock) :
    (s.setPin i l).PinsHeld := by
  have hother : ∀ j, s.Owns j → (s.setPin i l).pinlock[j]? = s.pinlock[j]? := fun j hj =>
    setPin_other (by rintro rfl; exact hi hj) l
  exact ⟨fun hs => (hother _ (.inl ⟨rfl, hs⟩)).trans (h.scl_held hs),
    fun hs => (hother _ (.inr (.inl ⟨rfl, hs⟩))).trans (h.sda_held hs), h.closing_nodup,
    h.closing_pins, fun j hj => (hother _ (.inr (.inr hj))).trans (h.closing_held j hj),
    h.closing_not_scl, h.closing_not_sda⟩

theorem setPin_not_free {i j : Nat} {l : PinLock} (hl : l ≠ .free)
    (hj : s.pinlock[j]? ≠ some .free) : (s.setPin i l).pinlock[j]? ≠ some .free := by
  rw [setPin_read]
  split
  · simpa using hl
  · exact hj

theorem Sizes.setPin (h : s.Sizes) (i : Nat) (l : PinLock) : (s.setPin i l).Sizes :=
  ⟨h.1, h.2, by simpa [State.setPin] using h.3, h.4, h.5⟩

/-- A lock that is not the engine's may be taken, or become POISONED (rules R52, R54). -/
theorem Inv.setPin (h : s.Inv) {i : Nat} (hi : ¬ s.Owns i) {l : PinLock} (hl : l ≠ .free) :
    (s.setPin i l).Inv where
  sizes := h.sizes.setPin i l
  sequencing := ⟨h.sequencing.1, h.sequencing.2, h.sequencing.3, h.sequencing.4, h.sequencing.5,
    h.sequencing.6⟩
  ownership := h.ownership
  pins := h.pins.setPin hi l
  waits := ⟨h.waits.1, fun j hj => setPin_not_free hl (h.waits.2 j hj),
    fun w hw j hj => setPin_not_free hl (h.waits.3 w hw j hj), h.waits.4, h.waits.5⟩

theorem inCall_congr {t : State} (hphase : t.phase = s.phase) (hop : t.opThread = s.opThread)
    (hclosing : t.closing = s.closing) (hclose : t.closeThread = s.closeThread)
    (hwaiting : t.waiting.map Waiter.thread = s.waiting.map Waiter.thread) :
    t.inCall = s.inCall := by
  rw [inCall, inCall, hphase, hop, hclosing, hclose, hwaiting]

/-- A thread the sequencer works for is inside its call at every phase but `IDLE`. -/
theorem inCall_setPhase {t : State} {p : Phase} (hs : t.phase ≠ .idle) (hp : p ≠ .idle) :
    (t.setPhase p).inCall = t.inCall := by
  rw [inCall, inCall, if_neg hs, setPhase_phase, if_neg hp]
  rfl

theorem inCall_releasePin (i : Nat) : (s.releasePin i).inCall = s.inCall :=
  inCall_congr rfl rfl rfl rfl (by simp [State.releasePin, wake, State.setPin, Function.comp_def])

theorem owns_releasePin {i j : Nat} : (s.releasePin i).Owns j ↔ s.Owns j := Iff.rfl

/-- After a release those that wait are the same threads with the same calls, and those blocked are
blocked on other pins (rules R52, R54). -/
theorem Waits.releasePin (h : s.Waits) (i : Nat) : (s.releasePin i).Waits := by
  have hother : ∀ {on : Option Nat} {j}, unmark i on = some j →
      (s.releasePin i).pinlock[j]? = s.pinlock[j]? := fun hj =>
    setPin_other (unmark_eq_some.1 hj).2.symm _
  refine ⟨fun j hj => h.1 j (unmark_eq_some.1 hj).1, fun j hj => ?parked, fun w hw j hj => ?blocked,
    ?once, fun w hw => ?calls⟩
  case parked =>
    rw [hother hj]
    exact h.2 j (unmark_eq_some.1 hj).1
  case blocked =>
    obtain ⟨w', hw', rfl⟩ := List.mem_map.1 hw
    rw [hother hj]
    exact h.3 w' hw' j (unmark_eq_some.1 hj).1
  case once =>
    rw [inCall_releasePin]
    exact h.4
  case calls =>
    obtain ⟨w', hw', rfl⟩ := List.mem_map.1 hw
    exact h.5 w' hw'

/-- A lock that is not the engine's may be released (rule R54). -/
theorem Inv.releasePin (h : s.Inv) {i : Nat} (hi : ¬ s.Owns i) : (s.releasePin i).Inv where
  sizes := ⟨(h.sizes.setPin i .free).1, (h.sizes.setPin i .free).2, (h.sizes.setPin i .free).3,
    (h.sizes.setPin i .free).4, (h.sizes.setPin i .free).5⟩
  sequencing := ⟨h.sequencing.1, h.sequencing.2, h.sequencing.3, h.sequencing.4, h.sequencing.5,
    h.sequencing.6⟩
  ownership := h.ownership
  pins := by
    obtain ⟨h1, h2, h3, h4, h5, h6, h7⟩ := h.pins.setPin hi .free
    exact ⟨h1, h2, h3, h4, h5, h6, h7⟩
  waits := h.waits.releasePin i


end

end State

/-! ### The sequencer's moves -/

/-- The phases after OPEN's acquisitions and before the end of a sequence. -/
def Phase.Working (p : Phase) : Prop :=
  p ≠ .idle ∧ p ≠ .oAcqScl ∧ p ≠ .oAcqSda ∧ p ≠ .unlock

section
variable {p : Phase} {c : Config}

theorem Phase.operation_of_next {o : Op} (h : (p.next c).operation = some o) :
    p.operation = some o := by
  cases p
  case tTxhdr => cases hd : c.xferDataPhase <;> simpa [Phase.next, hd, Phase.operation] using h
  case idle | oAcqScl | oAcqSda | oLock | sLock | sStart | sTxhdr | sData | rLock | rStart | rRxhdr |
      rStop | rTag | tLock | tStart1 | tData | tStart2 | tRxhdr | tStop | tTag => exact h
  all_goals cases h

theorem Phase.Working.next_locked (h : p.Working) : (p.next c).locked = true := by
  cases p
  case idle | oAcqScl | oAcqSda | unlock => simp [Phase.Working] at h
  case tTxhdr => cases hd : c.xferDataPhase <;> simp [Phase.next, hd, Phase.locked]
  all_goals rfl

theorem Phase.Working.operation (h : p.Working) :
    p.operation = some .openEngine ∨ p.operation = some .send ∨ p.operation = some .read ∨
      p.operation = some .transfer := by
  cases p
  case idle | oAcqScl | oAcqSda | unlock => simp [Phase.Working] at h
  all_goals simp [Phase.operation]

theorem Phase.next_eq_tData (h : p.next c = .tData) : c.xferDataPhase = .present := by
  cases p
  case tTxhdr =>
    cases hd : c.xferDataPhase
    case absent => simp [Phase.next, hd] at h
    case present => rfl
  all_goals cases h

theorem Phase.locked_ne (h : p.locked = true) : p ≠ .idle ∧ p ≠ .oAcqScl ∧ p ≠ .oAcqSda := by
  refine ⟨?_, ?_, ?_⟩ <;> rintro rfl <;> cases h

end

namespace State

section
variable {s : State}

theorem Inv.not_parked (h : s.Inv) (hscl : s.phase ≠ .oAcqScl) (hsda : s.phase ≠ .oAcqSda) :
    s.parked = none := by
  cases hp : s.parked with
  | none => rfl
  | some i =>
    obtain ⟨hphase, -⟩ | ⟨hphase, -⟩ := h.waits.parked_phase i hp
    · exact absurd hphase hscl
    · exact absurd hphase hsda

/-- In a phase of OPEN an OPEN is under way: the bare DATA reply uses none of them. -/
theorem Inv.opening_of_phase (h : s.Inv) (hp : s.phase.operation = some .openEngine) :
    s.opening := by
  have hjob : s.job = .operation := by
    cases hj : s.job with
    | operation => rfl
    | bareReply =>
      obtain hb | hb | hb | hb := h.sequencing.bare_phase hj <;> rw [hb] at hp <;> cases hp
  exact ⟨fun hi => by simp [hi, Phase.operation] at hp, hjob, h.sequencing.opsel_phase _ hp hjob⟩

/-- How `PHASE`, `OPSEL`, the job and the outcome go together: `Sequencing` without the Channel lock. -/
structure Coherent (s : State) : Prop where
  opsel_phase : ∀ o, s.phase.operation = some o → s.job = .operation → s.opsel = o
  opsel_unlock : s.phase = .unlock → s.job = .operation →
    s.opsel = .openEngine ∨ s.opsel = .send ∨ s.opsel = .read ∨ s.opsel = .transfer
  bare_phase : s.job = .bareReply → s.phase = .idle ∨ s.phase = .rTag ∨ s.phase = .rPayload ∨
    s.phase = .unlock
  data_phase : s.phase = .tData → s.cfg.xferDataPhase = .present
  outcome_ok : s.phase ≠ .idle → s.phase ≠ .unlock → s.outcome = .ok

theorem Sequencing.coherent (h : s.Sequencing) : s.Coherent :=
  ⟨h.opsel_phase, h.opsel_unlock, h.bare_phase, h.data_phase, h.outcome_ok⟩

/-- A sequence goes on to its next phase with nothing failed, or to `UNLOCK` (rules R17, R156). -/
theorem Coherent.advance (h : s.Coherent) (hs : s.phase.Working) {p : Phase} {o : Status}
    (hp : p = s.phase.next s.cfg ∧ o = .ok ∨ p = .unlock) :
    ((s.setOutcome o).setPhase p).Coherent := by
  refine ⟨?opsel, ?opselUnlock, ?bare, ?data, ?outcome⟩
  case opsel =>
    intro op hop hjob
    obtain ⟨rfl, -⟩ | rfl := hp
    · exact h.opsel_phase op (Phase.operation_of_next hop) hjob
    · cases hop
  case opselUnlock =>
    intro _ hjob
    obtain ho | ho | ho | ho := hs.operation <;> simp [h.opsel_phase _ ho hjob]
  case bare =>
    intro hjob
    obtain ⟨hsidle, -, -, hsunlock⟩ := hs
    obtain ⟨rfl, -⟩ | rfl := hp
    · obtain hb | hb | hb | hb := h.bare_phase hjob
      · exact absurd hb hsidle
      · simp [hb, Phase.next]
      · simp [hb, Phase.next]
      · exact absurd hb hsunlock
    · exact .inr (.inr (.inr rfl))
  case data =>
    rintro rfl
    obtain ⟨hnext, -⟩ | hp := hp
    · exact Phase.next_eq_tData hnext.symm
    · cases hp
  case outcome =>
    intro _ hunlock
    obtain ⟨-, rfl⟩ | rfl := hp
    · rfl
    · exact absurd rfl hunlock

theorem Coherent.next (h : s.Coherent) (hs : s.phase.Working) :
    (s.setPhase (s.phase.next s.cfg)).Coherent := by
  have hout : s.outcome = .ok := h.outcome_ok hs.1 hs.2.2.2
  have hnext := h.advance hs (.inl ⟨rfl, rfl⟩)
  rwa [← hout] at hnext

/-- A sequence that goes on to its next phase, or to `UNLOCK`, with the Channel lock held from now on
or as before (rules R17, R55, R156). -/
theorem Inv.advance (h : s.Inv) (hs : s.phase.Working) {p : Phase} {o : Status}
    (hp : p = s.phase.next s.cfg ∧ o = .ok ∨ p = .unlock) :
    (((s.setChlock (.held .sequencer)).setOutcome o).setPhase p).Inv := by
  have hco := h.sequencing.coherent.advance hs hp
  obtain ⟨hsz, hsq, how, hpi, hwa⟩ := h
  have hlocked : p.locked = true := by
    obtain ⟨rfl, -⟩ | rfl := hp
    · exact hs.next_locked
    · rfl
  obtain ⟨hidle, hscl, hsda⟩ := Phase.locked_ne hlocked
  obtain ⟨hsidle, hsscl, hssda, hsunlock⟩ := hs
  refine ⟨⟨hsz.1, hsz.2, hsz.3, hsz.4, hsz.5⟩, 
    ⟨⟨fun _ => hlocked, fun _ => rfl⟩, hco.1, hco.2, hco.3, hco.4, hco.5⟩,
    ?owns, ⟨hpi.1, hpi.2, hpi.3, hpi.4, hpi.5, hpi.6, hpi.7⟩,
    ⟨?parked, hwa.2, hwa.3, ?once, hwa.5⟩⟩
  case owns =>
    simpa [Ownership, opening, hidle, hscl, hsda, hsidle, hsscl, hssda] using how
  case parked =>
    intro i hi
    obtain ⟨hphase, -⟩ | ⟨hphase, -⟩ := hwa.parked_phase i hi
    · exact absurd hphase hsscl
    · exact absurd hphase hssda
  case once =>
    rw [inCall_setPhase (by exact hsidle) hidle]
    exact hwa.4

/-- In the critical section the Channel lock is the sequencer's, and nothing has failed. -/
theorem Inv.locked_eq (h : s.Inv) (hl : s.phase.locked = true) (hu : s.phase ≠ .unlock) :
    s = (s.setChlock (.held .sequencer)).setOutcome .ok := by
  have hlock : s.chlock = .held .sequencer := h.sequencing.lock_iff.2 hl
  have hout : s.outcome = .ok := h.sequencing.outcome_ok (Phase.locked_ne hl).1 hu
  rw [← hlock, ← hout]
  rfl

theorem working_of_locked (hl : s.phase.locked = true) (hu : s.phase ≠ .unlock) :
    s.phase.Working :=
  ⟨(Phase.locked_ne hl).1, (Phase.locked_ne hl).2.1, (Phase.locked_ne hl).2.2, hu⟩

theorem Inv.next (h : s.Inv) (hl : s.phase.locked = true) (hu : s.phase ≠ .unlock) :
    (s.setPhase (s.phase.next s.cfg)).Inv := by
  have hstep := h.advance (working_of_locked hl hu) (.inl ⟨rfl, rfl⟩)
  rwa [← h.locked_eq hl hu] at hstep

theorem Inv.abort (h : s.Inv) (hl : s.phase.locked = true) (hu : s.phase ≠ .unlock) (e : Status) :
    (s.abort e).Inv := by
  have hstep := h.advance (p := .unlock) (o := e) (working_of_locked hl hu) (.inr rfl)
  rw [← h.sequencing.lock_iff.2 hl] at hstep
  exact hstep

/-- The sequencer comes to rest, with an engine that has both pins or with none: the pins it has not
are not the engine's any more, though their locks may still be (rules R126, R128). -/
theorem Inv.rest (h : s.Inv) {l : ChLock} (hl : l ≠ .held .sequencer) {e : Bool}
    (hscl : e = true → s.hasScl = true) (hsda : e = true → s.hasSda = true) :
    ({ s with chlock := l, phase := .idle, parked := none, engExists := e, hasScl := e,
              hasSda := e } : State).Inv := by
  obtain ⟨hsz, hsq, how, hpi, hwa⟩ := h
  refine ⟨⟨hsz.1, hsz.2, hsz.3, hsz.4, hsz.5⟩,
    ⟨⟨fun hlock => absurd hlock hl, nofun⟩, nofun, nofun, fun _ => .inl rfl, nofun,
      fun hidle => absurd rfl hidle⟩,
    by simp [Ownership, opening],
    ⟨fun he => hpi.1 (hscl he), fun he => hpi.2 (hsda he), hpi.3, hpi.4, hpi.5, fun hmem => ?closingScl,
      fun hmem => ?closingSda⟩,
    ⟨nofun, nofun, hwa.3, hwa.4.sublist ?once, hwa.5⟩⟩
  case closingScl => exact Bool.eq_false_iff.2 fun he => by simp [hpi.6 hmem] at hscl; simp [hscl] at he
  case closingSda => exact Bool.eq_false_iff.2 fun he => by simp [hpi.7 hmem] at hsda; simp [hsda] at he
  case once => simp [inCall]

/-! ### OPEN's acquisitions and the end of a job -/

/-- OPEN with pin 0, on its way to pin 1. -/
theorem Inv.sclTaken (h : s.Inv) (hp : s.phase = .oAcqScl)
    (hpin : s.pinlock[pinScl]? = engineHeld) (hown : ¬ s.Owns pinScl) :
    (((s.setParked none).setHasScl true).setPhase .oAcqSda).Inv := by
  have hopen : s.opening := h.opening_of_phase (by rw [hp]; rfl)
  obtain ⟨hsz, hsq, how, hpi, hwa⟩ := h
  obtain ⟨hidle, hjob, hopsel⟩ := hopen
  have hunlocked : s.chlock ≠ .held .sequencer := by simp [hsq.lock_iff, hp, Phase.locked]
  rw [Ownership, if_pos ⟨hidle, hjob, hopsel⟩] at how
  obtain ⟨hexists, -, hsda⟩ := how
  refine ⟨⟨hsz.1, hsz.2, hsz.3, hsz.4, hsz.5⟩,
    ⟨⟨fun hlock => absurd hlock hunlocked, nofun⟩, fun o ho _ => hopsel.trans (Option.some.inj ho),
      nofun, fun hj => absurd (hjob.symm.trans hj) nofun, nofun,
      fun _ _ => hsq.outcome_ok hidle (by simp [hp])⟩,
    ?owns,
    ⟨fun _ => hpin, hpi.2, hpi.3, hpi.4, hpi.5, fun hmem => absurd (.inr (.inr hmem)) hown, hpi.7⟩,
    ⟨nofun, nofun, hwa.3, ?once, hwa.5⟩⟩
  case owns => simp [Ownership, opening, hjob, hopsel, hexists, hsda, hp]
  case once =>
    rw [inCall_setPhase (p := .oAcqSda) (by exact hidle) nofun]
    exact hwa.4

/-- OPEN with both pins, on its way to the Channel lock. -/
theorem Inv.sdaTaken (h : s.Inv) (hp : s.phase = .oAcqSda)
    (hpin : s.pinlock[pinSda]? = engineHeld) (hown : ¬ s.Owns pinSda) :
    (((s.setParked none).setHasSda true).setPhase .oLock).Inv := by
  have hopen : s.opening := h.opening_of_phase (by rw [hp]; rfl)
  obtain ⟨hsz, hsq, how, hpi, hwa⟩ := h
  obtain ⟨hidle, hjob, hopsel⟩ := hopen
  have hunlocked : s.chlock ≠ .held .sequencer := by simp [hsq.lock_iff, hp, Phase.locked]
  rw [Ownership, if_pos ⟨hidle, hjob, hopsel⟩] at how
  obtain ⟨hexists, hscl, -⟩ := how
  refine ⟨⟨hsz.1, hsz.2, hsz.3, hsz.4, hsz.5⟩,
    ⟨⟨fun hlock => absurd hlock hunlocked, nofun⟩, fun o ho _ => hopsel.trans (Option.some.inj ho),
      nofun, fun hj => absurd (hjob.symm.trans hj) nofun, nofun,
      fun _ _ => hsq.outcome_ok hidle (by simp [hp])⟩,
    ?owns,
    ⟨hpi.1, fun _ => hpin, hpi.3, hpi.4, hpi.5, hpi.6, fun hmem => absurd (.inr (.inr hmem)) hown⟩,
    ⟨nofun, nofun, hwa.3, ?once, hwa.5⟩⟩
  case owns => simp [Ownership, opening, hjob, hopsel, hexists, hscl, hp]
  case once =>
    rw [inCall_setPhase (p := .oLock) (by exact hidle) nofun]
    exact hwa.4

/-- OPEN whose attempt has blocked (rule R52). -/
theorem Inv.park (h : s.Inv) {i : Nat} (hi : s.IsHeld i)
    (hp : (s.phase = .oAcqScl ∧ i = pinScl) ∨ (s.phase = .oAcqSda ∧ i = pinSda)) :
    (s.setParked (some i)).Inv := by
  obtain ⟨hsz, hsq, how, hpi, hwa⟩ := h
  obtain ⟨o, ho⟩ := hi
  exact ⟨⟨hsz.1, hsz.2, hsz.3, hsz.4, hsz.5⟩, ⟨hsq.1, hsq.2, hsq.3, hsq.4, hsq.5, hsq.6⟩, how,
    ⟨hpi.1, hpi.2, hpi.3, hpi.4, hpi.5, hpi.6, hpi.7⟩,
    ⟨fun j hj => Option.some.inj hj ▸ hp, fun j hj => by
      rw [← Option.some.inj hj, setParked_pinlock, ho]; simp, hwa.3, hwa.4, hwa.5⟩⟩

/-- OPEN gives up, and has no pin any more; nor has the engine it was to build (rules R125, R126). -/
theorem Inv.giveUp (h : s.Inv) {l : ChLock} (hl : l ≠ .held .sequencer) :
    ({ s with chlock := l, phase := .idle, parked := none, engExists := false, hasScl := false,
              hasSda := false } : State).Inv :=
  h.rest hl nofun nofun

theorem Inv.free_not_owned (h : s.Inv) {i : Nat} (hi : s.pinlock[i]? = some .free) : ¬ s.Owns i :=
  h.not_owns (by simp [hi])

theorem Inv.chlock_ne (h : s.Inv) (hp : s.phase.locked = false) : s.chlock ≠ .held .sequencer := by
  simp [h.sequencing.lock_iff, hp]

theorem setPin_same {i : Nat} (hi : s.pinlock[i]? = some .free) (l : PinLock) :
    (s.setPin i l).pinlock[i]? = some l := by
  obtain ⟨hlt, -⟩ := List.getElem?_eq_some_iff.1 hi
  rw [setPin_read, if_pos ⟨rfl, hlt⟩]

theorem acqSclStep_keeps_inv (h : s.Inv) (hp : s.phase = .oAcqScl) : s.acqSclStep.state.Inv := by
  have hopen : s.opening := h.opening_of_phase (by rw [hp]; rfl)
  have how := h.ownership
  rw [Ownership, if_pos hopen] at how
  obtain ⟨hexists, hscl, hsda⟩ := how
  obtain ⟨-, he⟩ | ⟨-, ⟨hfree, he⟩ | ⟨st, e, -, -, he⟩ | ⟨e, o, ho, he⟩⟩ :=
    s.acquireStep_spec pinScl (fun s' => (s'.setHasScl true).setPhase (s'.phase.next s'.cfg))
      (fun st s' => s'.finish st (.status st))
  all_goals rw [acqSclStep, he]
  · exact h
  · have hpin := h.setPin (l := .held .engine) (h.free_not_owned hfree) nofun
    refine (hpin.sclTaken hp (setPin_same hfree _) (h.free_not_owned hfree)).of_control ?_
    simp [Progress.state, hp, Phase.next, control, setPhase, setHasScl, setParked,
      State.setPin, setPinlock]
  · refine (h.giveUp (h.chlock_ne (by rw [hp]; rfl))).of_control ?_
    simp [Progress.state, control, finish_eq, setParked, State.setEnv, hexists, hscl, hsda, hp]
  · exact ((h.setEnv e).park ⟨o, ho⟩ (.inl ⟨hp, rfl⟩))

theorem acqSdaStep_keeps_inv (h : s.Inv) (hp : s.phase = .oAcqSda) : s.acqSdaStep.state.Inv := by
  have hopen : s.opening := h.opening_of_phase (by rw [hp]; rfl)
  have how := h.ownership
  rw [Ownership, if_pos hopen] at how
  obtain ⟨hexists, hscl, hsda⟩ := how
  obtain ⟨-, he⟩ | ⟨-, ⟨hfree, he⟩ | ⟨st, e, -, -, he⟩ | ⟨e, o, ho, he⟩⟩ :=
    s.acquireStep_spec pinSda
      (fun s' => ((s'.setHasSda true).setFreq s'.freqReq).setPhase (s'.phase.next s'.cfg))
      (fun st s' => ((s'.releasePin pinScl).setHasScl false).finish st (.status st))
  all_goals rw [acqSdaStep, he]
  · exact h
  · have hpin := h.setPin (l := .held .engine) (h.free_not_owned hfree) nofun
    refine (hpin.sdaTaken hp (setPin_same hfree _) (h.free_not_owned hfree)).of_control ?_
    simp [Progress.state, hp, Phase.next, control, setPhase, setHasSda, setFreq, setParked, State.setPin,
      setPinlock]
  · have hgone := h.giveUp (h.chlock_ne (by rw [hp]; rfl))
    have hown : pinScl ∉ s.closing := fun hmem => by
      simpa [hscl, hp] using h.pins.closing_not_scl hmem
    refine (hgone.releasePin (i := pinScl) (by simpa [Owns] using hown)).of_control ?_
    simp [Progress.state, control, finish_eq, releasePin_eq, wake, setHasScl, setParked, setWaiting,
      State.setEnv, hexists, hsda, hp]
  · exact ((h.setEnv e).park ⟨o, ho⟩ (.inr ⟨hp, rfl⟩))

/-- The step at `UNLOCK` (rules R126, R187). -/
theorem unlock_keeps_inv (h : s.Inv) (hp : s.phase = .unlock) : s.releaseChannel.endJob.Inv := by
  have hparked : s.parked = none := h.not_parked (by simp [hp]) (by simp [hp])
  have how := h.ownership
  have hends : ∀ {st : Status} {r : Ret}, ¬ s.opening → (s.releaseChannel.finish st r).Inv := by
    intro st r hopen
    rw [Ownership, if_neg hopen] at how
    obtain ⟨hscl, hsda, -⟩ := how
    refine (h.rest (l := .free) nofun (e := s.engExists) hscl.trans hsda.trans).of_control ?_
    simp [control, finish_eq, releaseChannel, setChlock, hparked, hscl, hsda]
  obtain ⟨hjob, hop, he⟩ | ⟨-, hop, r, he⟩ | ⟨hjob, he⟩ := s.releaseChannel.endJob_spec
  · have hopen : s.opening := ⟨by simp [hp], hjob, hop⟩
    rw [Ownership, if_pos hopen] at how
    obtain ⟨hexists, hscl, hsda⟩ := how
    rw [he]
    obtain ⟨-, he⟩ | ⟨-, he⟩ := s.releaseChannel.endOpen_spec
    · rw [he]
      refine (h.rest (l := .free) nofun (e := true) (fun _ => by simp [hscl, hp])
        (fun _ => by simp [hsda, hp])).of_control ?_
      simp [control, finish_eq, releaseChannel, setChlock, setExists, hparked, hscl, hsda, hp]
    · rw [he]
      have hgone := h.giveUp (l := .free) nofun
      have hnotscl : pinScl ∉ s.closing := fun hmem => by
        simpa [hscl, hp] using h.pins.closing_not_scl hmem
      have hnotsda : pinSda ∉ s.closing := fun hmem => by
        simpa [hsda, hp] using h.pins.closing_not_sda hmem
      have hsda' := hgone.releasePin (i := pinSda) (by simpa [Owns] using hnotsda)
      refine (hsda'.releasePin (i := pinScl) ?_).of_control ?_
      · rw [owns_releasePin]; simpa [Owns] using hnotscl
      simp [control, finish_eq, releasePin_eq, wake, releaseChannel, setChlock, setHasScl, setHasSda,
        setParked, setWaiting, hexists, hparked]
  · rw [he]
    exact hends fun ⟨_, _, hopen⟩ => hop hopen
  · rw [he]
    exact hends fun ⟨_, hoperation, _⟩ => absurd (hoperation.symm.trans hjob) nofun

/-- Every step of the sequencer keeps the invariant: by the kind of its phase. -/
theorem seqStep_keeps_inv (h : s.Inv) : s.seqStep.state.Inv := by
  have hrecvLocked : s.phase = .rTag ∨ s.phase = .tTag ∨ s.phase = .rPayload ∨ s.phase = .tPayload →
      s.phase.locked = true ∧ s.phase ≠ .unlock := by
    rintro (hp | hp | hp | hp) <;> simp [hp, Phase.locked]
  obtain ⟨-, he⟩ | ⟨hp, he⟩ | ⟨hp, he⟩ | ⟨hp, he⟩ | ⟨hp, he⟩ | ⟨hl, hu, -, he⟩ | ⟨hp, he⟩ |
    ⟨hp, he⟩ | ⟨hp, he⟩ := s.seqStep_spec
  all_goals rw [he]
  · exact h
  · exact acqSclStep_keeps_inv h hp
  · exact acqSdaStep_keeps_inv h hp
  · obtain ⟨-, he⟩ | ⟨-, he⟩ := s.lockStep_spec
    · rw [he]
      have hs : s.phase.Working := by rcases hp with hp | hp | hp | hp <;> simp [Phase.Working, hp]
      have hout : s.outcome = .ok := h.sequencing.outcome_ok hs.1 hs.2.2.2
      have hstep := h.advance hs (.inl ⟨rfl, rfl⟩)
      rw [← hout] at hstep
      exact hstep
    · rw [he]; exact h
  · have hl : s.phase.locked = true := by rw [hp]; rfl
    have hu : s.phase ≠ .unlock := by simp [hp]
    obtain ⟨e, he | ⟨p, -, he⟩⟩ := s.afterWrite_spec abortIo s.phaseBytes
    · rw [he]; exact (h.next hl hu).of_control (by simp)
    · rw [he]; exact (h.abort hl hu .errIo).of_control (by simp [abortIo])
  · obtain ⟨e, he | ⟨p, -, he⟩⟩ := s.afterWrite_spec raiseIo s.phaseBytes
    · rw [he]; exact (h.next hl hu).of_control (by simp)
    · rw [he]; exact (h.abort hl hu .errIo).of_control (by simp [raiseIo])
  · obtain ⟨hl, hu⟩ := hrecvLocked (by tauto)
    obtain ⟨e, ⟨b, more, -, -, he⟩ | ⟨b, more, -, -, he⟩ | ⟨k, -, he⟩ | ⟨-, he⟩⟩ := s.tagStep_spec
    · rw [he]; exact (h.next hl hu).of_control (by simp)
    · rw [he]; exact (h.abort hl hu (.errDesync b)).of_control (by simp)
    · rw [he]; exact (h.abort hl hu .errIo).of_control (by simp)
    · rw [he]; exact h.setEnv e
  · obtain ⟨hl, hu⟩ := hrecvLocked (by tauto)
    have hroom : s.rlen.toNat ≤ s.rbuf.length := by
      rw [h.sizes.rbuf_len]; exact Nat.le_of_lt_succ s.rlen.isLt
    obtain ⟨e, ⟨hn, he⟩ | ⟨k, -, junk, hjunk, he⟩ | ⟨-, he⟩⟩ := s.payloadStep_spec
    · rw [he]
      have hbuf := h.setRbuf (overlay_length (b := s.rx.take s.rlen.toNat)
        (by rw [List.length_take]; omega))
      exact (hbuf.next hl hu).of_control (by simp)
    · rw [he]
      have hbuf := h.setRbuf (overlay_length (b := junk) (by omega))
      exact (hbuf.abort hl hu .errIo).of_control (by simp)
    · rw [he]; exact h.setEnv e
  · exact unlock_keeps_inv h hp

theorem Inv.runSequencer (h : s.Inv) : s.runSequencer.Inv :=
  runSequencer_induct (fun _ e hs => hs.setEnv e) (fun _ hs => seqStep_keeps_inv hs) s h

/-! ### CLOSE -/

/-- The engine's two pins become pins that a CLOSE has still to release (rule R128). -/
theorem Inv.setClosing (h : s.Inv) (hscl : s.hasScl = false) (hsda : s.hasSda = false)
    (hpins : ∀ i, i = pinScl ∨ i = pinSda → s.pinlock[i]? = engineHeld) (hnone : s.closing = [])
    (hcaller : s.caller ∉ s.inCall) (o : CloseOrder) :
    ((s.setClosing (closeList o)).setCloseThread s.caller).Inv := by
  obtain ⟨hsz, hsq, how, hpi, hwa⟩ := h
  have hlist : ∀ i ∈ closeList o, i = pinScl ∨ i = pinSda := by cases o <;> simp [closeList]
  refine ⟨⟨hsz.1, hsz.2, hsz.3, hsz.4, hsz.5⟩, ⟨hsq.1, hsq.2, hsq.3, hsq.4, hsq.5, hsq.6⟩, how,
    ⟨hpi.1, hpi.2, by cases o <;> simp [closeList], hlist, fun i hi => hpins i (hlist i hi),
      fun _ => hscl, fun _ => hsda⟩,
    ⟨hwa.1, hwa.2, hwa.3, ?once, hwa.5⟩⟩
  have hperm : ((s.setClosing (closeList o)).setCloseThread s.caller).inCall.Perm
      (s.caller :: s.inCall) := by
    have hsome : closeList o ≠ [] := by cases o <;> simp [closeList]
    simp only [inCall, setCloseThread_closing, setClosing_closing, hsome, hnone, if_false]
    exact List.perm_middle
  exact hperm.nodup_iff.2 (List.nodup_cons.2 ⟨hcaller, hwa.4⟩)

/-- One pin fewer is still to be released. -/
theorem Inv.closing_tail (h : s.Inv) {i : Nat} {rest : List Nat} (hc : s.closing = i :: rest) :
    (s.setClosing rest).Inv := by
  obtain ⟨hsz, hsq, how, hpi, hwa⟩ := h
  have hmem : ∀ j ∈ rest, j ∈ s.closing := fun j hj => hc ▸ List.mem_cons_of_mem i hj
  refine ⟨⟨hsz.1, hsz.2, hsz.3, hsz.4, hsz.5⟩, ⟨hsq.1, hsq.2, hsq.3, hsq.4, hsq.5, hsq.6⟩, how,
    ⟨hpi.1, hpi.2, (List.nodup_cons.1 (hc ▸ hpi.3)).2, fun j hj => hpi.4 j (hmem j hj),
      fun j hj => hpi.5 j (hmem j hj), fun hj => hpi.6 (hmem _ hj), fun hj => hpi.7 (hmem _ hj)⟩,
    ⟨hwa.1, hwa.2, hwa.3, hwa.4.sublist ?once, hwa.5⟩⟩
  simp only [inCall, setClosing_closing, hc]
  refine (List.Sublist.refl _).append (.append ?_ (.refl _))
  cases rest <;> simp

theorem Inv.closed_pin_not_owned (h : s.Inv) {i : Nat} {rest : List Nat}
    (hc : s.closing = i :: rest) : ¬ (s.setClosing rest).Owns i := by
  have hmem : i ∈ s.closing := hc ▸ List.mem_cons_self
  rintro (⟨rfl, hscl⟩ | ⟨rfl, hsda⟩ | hrest)
  · exact absurd ((h.pins.closing_not_scl hmem).symm.trans hscl) nofun
  · exact absurd ((h.pins.closing_not_sda hmem).symm.trans hsda) nofun
  · exact (List.nodup_cons.1 (hc ▸ h.pins.closing_nodup)).1 hrest

theorem closeStep_spec (s : State) :
    (s.closing = [] ∧ s.closeStep = s) ∨
    (∃ i, s.closing = [i] ∧ s.closeStep =
      (((s.releasePin i).setClosing []).setStatus .ok).answer s.closeThread .nothing) ∨
    ∃ i j rest, s.closing = i :: j :: rest ∧
      s.closeStep = (s.releasePin i).setClosing (j :: rest) := by
  unfold closeStep
  split
  next h => exact .inl ⟨h, rfl⟩
  next i h => exact .inr (.inl ⟨i, h, rfl⟩)
  next i rest hrest h =>
    cases rest with
    | nil => exact absurd rfl hrest
    | cons j rest => exact .inr (.inr ⟨i, j, rest, h, rfl⟩)

theorem releasePin_setClosing (i : Nat) (l : List Nat) :
    (s.setClosing l).releasePin i = (s.releasePin i).setClosing l := rfl

theorem closeStep_keeps_inv (h : s.Inv) : s.closeStep.Inv := by
  obtain ⟨-, he⟩ | ⟨i, hc, he⟩ | ⟨i, j, rest, hc, he⟩ := s.closeStep_spec
  · rw [he]; exact h
  · rw [he]; exact ((h.closing_tail hc).releasePin (h.closed_pin_not_owned hc)).of_control
      (by simp [releasePin_setClosing])
  · rw [he]; exact ((h.closing_tail hc).releasePin (h.closed_pin_not_owned hc)).of_control
      (by simp [releasePin_setClosing])

theorem Inv.runCloser (h : s.Inv) : s.runCloser.Inv :=
  runCloser_induct (fun _ e hs => hs.setEnv e) (fun _ hs => closeStep_keeps_inv hs) s h

/-- Where an engine exists and the sequencer is idle, both pins are the engine's, and nothing is left of
an earlier CLOSE. -/
theorem Inv.engine_pins (h : s.Inv) (hx : s.engExists = true) (hp : s.phase = .idle) :
    s.hasScl = true ∧ s.hasSda = true ∧ s.closing = [] := by
  have how := h.ownership
  rw [Ownership, if_neg (fun hopen => hopen.1 hp)] at how
  obtain ⟨hscl, hsda, -⟩ := how
  rw [hx] at hscl hsda
  refine ⟨hscl, hsda, List.eq_nil_iff_forall_not_mem.2 fun i hi => ?_⟩
  obtain rfl | rfl := h.pins.closing_pins i hi
  · exact absurd ((h.pins.closing_not_scl hi).symm.trans hscl) nofun
  · exact absurd ((h.pins.closing_not_sda hi).symm.trans hsda) nofun

theorem beginClose_spec (s : State) : ∃ e o,
    s.beginClose = (((((s.setEnv e).setHasSda false).setHasScl false).setExists false).setClosing
      (s.closing ++ closeList o)).setCloseThread s.caller := by
  obtain ⟨e, he⟩ := s.drawCloseOrder_spec
  rcases hd : s.drawCloseOrder with ⟨o, s'⟩
  rw [hd] at he
  obtain rfl : s' = s.setEnv e := he
  exact ⟨e, o, by rw [beginClose, hd]; rfl⟩

theorem Inv.beginClose (h : s.Inv) (hx : s.engExists = true) (hp : s.phase = .idle)
    (hcaller : s.caller ∉ s.inCall) : s.beginClose.Inv := by
  obtain ⟨hscl, hsda, hnone⟩ := h.engine_pins hx hp
  obtain ⟨e, o, he⟩ := s.beginClose_spec
  have hparked : s.parked = none := h.not_parked (by simp [hp]) (by simp [hp])
  have hgone := h.giveUp (h.chlock_ne (by rw [hp]; rfl))
  have hpins : ∀ i, i = pinScl ∨ i = pinSda → s.pinlock[i]? = engineHeld := by
    rintro i (rfl | rfl)
    · exact h.pins.scl_held hscl
    · exact h.pins.sda_held hsda
  refine (hgone.setClosing rfl rfl hpins hnone ?_ o).of_control ?_
  · simpa only [inCall, hp] using hcaller
  · rw [he]
    simp [control, State.setClosing, setCloseThread, setExists, setHasScl, setHasSda, State.setEnv, hp,
      hparked, hnone]

/-! ### What a call latches -/

/-- The latches of which the invariant speaks, as a call writes them (rule R14). -/
def latched (s : State) (op : Op) (w : List Byte) (j : Job) : State :=
  { s with opsel := op, wbuf := w, outcome := .ok, job := j, opThread := s.caller, parked := none }

theorem inCall_latched (hp : s.phase = .idle) (op : Op) (w : List Byte) (j : Job) :
    (s.latched op w j).inCall = s.inCall := by
  simp only [inCall, latched, hp, if_true]

/-- At rest the latches may be written: nothing is made of them (rules R14, R151). -/
theorem Inv.latch (h : s.Inv) (hp : s.phase = .idle) {w : List Byte}
    (hw : w.length = s.wbuf.length) (op : Op) (j : Job) : (s.latched op w j).Inv := by
  obtain ⟨hsz, hsq, how, hpi, hwa⟩ := h
  rw [Ownership, if_neg (fun hopen => hopen.1 hp)] at how
  obtain ⟨hscl, hsda, -⟩ := how
  refine ⟨⟨hsz.1, hsz.2, hsz.3, hw.trans hsz.4, hsz.5⟩,
    ⟨hsq.1, ?opsel, ?unlock, fun _ => .inl hp, hsq.5, fun hidle => absurd hp hidle⟩,
    by simp [Ownership, opening, latched, hp, hscl, hsda],
    ⟨hpi.1, hpi.2, hpi.3, hpi.4, hpi.5, hpi.6, hpi.7⟩, ⟨nofun, nofun, hwa.3, ?once, hwa.5⟩⟩
  case opsel => simp [latched, hp, Phase.operation]
  case unlock => simp [latched, hp]
  case once => exact inCall_latched hp op w j ▸ hwa.4

/-- The sequencer begins to work for a thread that is inside no call. -/
theorem Waits.begin (h : s.Waits) (hp : s.phase = .idle) {p : Phase} (hidle : p ≠ .idle)
    (hthread : s.opThread ∉ s.inCall) : (s.setPhase p).Waits := by
  have hparked : ∀ i, s.parked ≠ some i := fun i hi => by simpa [hp] using h.parked_phase i hi
  refine ⟨fun i hi => absurd hi (hparked i), h.2, h.3, ?_, h.5⟩
  have hcalls : (s.setPhase p).inCall = s.opThread :: s.inCall := by
    simp only [inCall, setPhase_phase, hidle, hp, if_true, if_false]
    rfl
  rw [hcalls]
  exact List.nodup_cons.2 ⟨hthread, h.4⟩

/-- An operation of the engine begins at its first phase (rules R150, R151). -/
theorem Inv.beginOperation (h : s.Inv) (hp : s.phase = .idle) (hx : s.engExists = true)
    (hout : s.outcome = .ok) (hjob : s.job = .operation) (hthread : s.opThread ∉ s.inCall)
    {p : Phase} (hphase : s.opsel = .send ∧ p = .sLock ∨ s.opsel = .read ∧ p = .rLock ∨
      s.opsel = .transfer ∧ p = .tLock) : (s.setPhase p).Inv := by
  have hunlocked := h.chlock_ne (by rw [hp]; rfl)
  have hop : p.operation = some s.opsel ∧ p.locked = false ∧ p ≠ .idle ∧ p ≠ .unlock ∧
      p ≠ .tData ∧ s.opsel ≠ .openEngine := by
    obtain ⟨ho, rfl⟩ | ⟨ho, rfl⟩ | ⟨ho, rfl⟩ := hphase <;> simp [Phase.operation, Phase.locked, ho]
  obtain ⟨hoperation, hlocked, hidle, hunlock, hdata, hopen⟩ := hop
  obtain ⟨hsz, hsq, how, hpi, hwa⟩ := h
  rw [Ownership, if_neg (fun hopening => hopening.1 hp)] at how
  obtain ⟨hscl, hsda, -⟩ := how
  exact ⟨⟨hsz.1, hsz.2, hsz.3, hsz.4, hsz.5⟩,
    ⟨⟨fun hlock => absurd hlock hunlocked, fun hl => absurd (hlocked.symm.trans hl) nofun⟩,
      fun o ho _ => Option.some.inj (hoperation.symm.trans ho), fun hu => absurd hu hunlock,
      fun hj => absurd (hjob.symm.trans hj) nofun, fun hd => absurd hd hdata, fun _ _ => hout⟩,
    by simp [Ownership, opening, hopen, hscl, hsda, hx],
    ⟨hpi.1, hpi.2, hpi.3, hpi.4, hpi.5, hpi.6, hpi.7⟩, hwa.begin hp hidle hthread⟩

/-- A bare DATA reply begins, with the Channel lock (log entry 4). -/
theorem Inv.beginReply (h : s.Inv) (hp : s.phase = .idle) (hout : s.outcome = .ok)
    (hjob : s.job = .bareReply) (hthread : s.opThread ∉ s.inCall) :
    ((s.setChlock (.held .sequencer)).setPhase .rTag).Inv := by
  obtain ⟨hsz, hsq, how, hpi, hwa⟩ := h
  rw [Ownership, if_neg (fun hopening => hopening.1 hp)] at how
  obtain ⟨hscl, hsda, -⟩ := how
  have hwaits := hwa.begin hp (p := .rTag) nofun hthread
  exact ⟨⟨hsz.1, hsz.2, hsz.3, hsz.4, hsz.5⟩,
    ⟨⟨fun _ => rfl, fun _ => rfl⟩, fun _ _ hj => absurd (hj.symm.trans hjob) nofun, nofun,
      fun _ => .inr (.inl rfl), nofun, fun _ _ => hout⟩,
    by simp [Ownership, opening, hjob, hscl, hsda],
    ⟨hpi.1, hpi.2, hpi.3, hpi.4, hpi.5, hpi.6, hpi.7⟩,
    ⟨hwaits.1, hwaits.2, hwaits.3, hwaits.4, hwaits.5⟩⟩

/-- An OPEN begins where no engine exists (rules R124, R126). -/
theorem Inv.beginOpen (h : s.Inv) (hp : s.phase = .idle) (hx : s.engExists = false)
    (hout : s.outcome = .ok) (hjob : s.job = .operation) (hop : s.opsel = .openEngine)
    (hthread : s.opThread ∉ s.inCall) : (s.setPhase .oAcqScl).Inv := by
  have hunlocked := h.chlock_ne (by rw [hp]; rfl)
  obtain ⟨hsz, hsq, how, hpi, hwa⟩ := h
  rw [Ownership, if_neg (fun hopening => hopening.1 hp)] at how
  obtain ⟨hscl, hsda, -⟩ := how
  exact ⟨⟨hsz.1, hsz.2, hsz.3, hsz.4, hsz.5⟩,
    ⟨⟨fun hlock => absurd hlock hunlocked, nofun⟩, fun o ho _ => hop.trans (Option.some.inj ho),
      nofun, fun hj => absurd (hjob.symm.trans hj) nofun, nofun, fun _ _ => hout⟩,
    by simp [Ownership, opening, hjob, hop, hscl, hsda, hx],
    ⟨hpi.1, hpi.2, hpi.3, hpi.4, hpi.5, hpi.6, hpi.7⟩, hwa.begin hp nofun hthread⟩

/-! ### Those that wait -/

/-- A thread that was inside no call waits from now on, with a call that may wait. -/
theorem Inv.addWaiter (h : s.Inv) {w : Waiter} (hthread : w.thread ∉ s.inCall)
    (hcall : mayWait w.instr = true) (hon : ∀ i, w.blockedOn = some i → s.IsHeld i) :
    (s.setWaiting (s.waiting ++ [w])).Inv := by
  obtain ⟨hsz, hsq, how, hpi, hwa⟩ := h
  refine ⟨⟨hsz.1, hsz.2, hsz.3, hsz.4, hsz.5⟩, ⟨hsq.1, hsq.2, hsq.3, hsq.4, hsq.5, hsq.6⟩, how,
    ⟨hpi.1, hpi.2, hpi.3, hpi.4, hpi.5, hpi.6, hpi.7⟩,
    ⟨hwa.1, hwa.2, fun v hv i hi => ?blocked, ?once, fun v hv => ?calls⟩⟩
  case blocked =>
    obtain hv | hv := List.mem_append.1 hv
    · exact hwa.3 v hv i hi
    · obtain ⟨o, ho⟩ := hon i (List.mem_singleton.1 hv ▸ hi)
      simp [ho]
  case once =>
    have hcalls : (s.setWaiting (s.waiting ++ [w])).inCall = s.inCall ++ [w.thread] := by
      simp only [inCall, setWaiting_waiting, List.map_append, List.append_assoc]
      rfl
    rw [hcalls]
    exact List.nodup_append.2 ⟨hwa.4, by simp, fun a ha b hb hab =>
      hthread (List.mem_singleton.1 hb ▸ hab ▸ ha)⟩
  case calls =>
    obtain hv | hv := List.mem_append.1 hv
    · exact hwa.5 v hv
    · exact List.mem_singleton.1 hv ▸ hcall

/-- A waiting thread leaves the line to try its call again, and is then inside no call. -/
theorem Inv.takeWaiter (h : s.Inv) {k : Nat} {w : Waiter} (hk : s.waiting[k]? = some w) :
    (s.setWaiting (s.waiting.eraseIdx k)).Inv ∧
      w.thread ∉ (s.setWaiting (s.waiting.eraseIdx k)).inCall := by
  obtain ⟨hlt, hget⟩ := List.getElem?_eq_some_iff.1 hk
  obtain ⟨hsz, hsq, how, hpi, hwa⟩ := h
  have hmem : ∀ v ∈ s.waiting.eraseIdx k, v ∈ s.waiting := fun v hv => List.mem_of_mem_eraseIdx hv
  have hperm : s.inCall.Perm (w.thread :: (s.setWaiting (s.waiting.eraseIdx k)).inCall) := by
    have hwaiting : (s.waiting.map Waiter.thread).Perm
        (w.thread :: (s.waiting.eraseIdx k).map Waiter.thread) := by
      have hcons := (List.getElem_cons_eraseIdx_perm hlt).symm.map Waiter.thread
      rwa [hget] at hcons
    simp only [inCall, setWaiting_waiting, ← List.append_assoc]
    exact (hwaiting.append_left _).trans List.perm_middle
  obtain ⟨hout, hnodup⟩ := List.nodup_cons.1 (hperm.nodup_iff.1 hwa.4)
  exact ⟨⟨⟨hsz.1, hsz.2, hsz.3, hsz.4, hsz.5⟩, ⟨hsq.1, hsq.2, hsq.3, hsq.4, hsq.5, hsq.6⟩, how,
    ⟨hpi.1, hpi.2, hpi.3, hpi.4, hpi.5, hpi.6, hpi.7⟩,
    ⟨hwa.1, hwa.2, fun v hv => hwa.3 v (hmem v hv), hnodup, fun v hv => hwa.5 v (hmem v hv)⟩⟩, hout⟩

/-- The sequencer works for another thread from now on, and the one it worked for waits. -/
theorem Inv.swapThread (h : s.Inv) (hp : s.phase ≠ .idle) {t : Nat} (ht : t ∉ s.inCall) {i : Instr}
    (hi : mayWait i = true) :
    ({ s with waiting := s.waiting ++ [⟨s.opThread, i, none⟩], opThread := t } : State).Inv := by
  obtain ⟨hsz, hsq, how, hpi, hwa⟩ := h
  refine ⟨⟨hsz.1, hsz.2, hsz.3, hsz.4, hsz.5⟩, ⟨hsq.1, hsq.2, hsq.3, hsq.4, hsq.5, hsq.6⟩, how,
    ⟨hpi.1, hpi.2, hpi.3, hpi.4, hpi.5, hpi.6, hpi.7⟩,
    ⟨hwa.1, hwa.2, fun v hv j hj => ?blocked, ?once, fun v hv => ?calls⟩⟩
  case blocked =>
    obtain hv | hv := List.mem_append.1 hv
    · exact hwa.3 v hv j hj
    · rw [List.mem_singleton.1 hv] at hj; cases hj
  case once =>
    have hnodup := List.nodup_cons.2 ⟨ht, hwa.4⟩
    simp only [inCall, hp, if_false, List.map_append, List.map_cons, List.map_nil,
      ← List.append_assoc] at hnodup ⊢
    refine (List.Perm.nodup_iff ?_).1 hnodup
    exact (List.perm_append_comm (l₁ := [s.opThread])).cons t |>.trans (by simp)
  case calls =>
    obtain hv | hv := List.mem_append.1 hv
    · exact hwa.5 v hv
    · rw [List.mem_singleton.1 hv]; exact hi

/-! ### Calls -/

/-- A call that begins leaves the sequencer with a state that meets the invariant. -/
theorem Inv.begun (h : s.Inv) (hcaller : s.caller ∉ s.inCall) {i : Instr} {t : State}
    (hb : Begun s i t) : t.Inv := by
  have hlatched : ∀ {w : List Byte} (op : Op) (j : Job), s.phase = .idle →
      w.length = s.wbuf.length → (s.latched op w j).Inv ∧ s.caller ∉ (s.latched op w j).inCall :=
    fun op j hp hw => ⟨h.latch hp hw op j, inCall_latched hp op _ j ▸ hcaller⟩
  have hparked : s.phase = .idle → s.parked = none := fun hp =>
    h.not_parked (by simp [hp]) (by simp [hp])
  cases hb with
  | send a w ha hw hx hp =>
    obtain ⟨hl, hc⟩ := hlatched (w := overlay w s.wbuf) .send .operation hp
      (overlay_length (by rw [h.sizes.wbuf_len]; exact hw))
    refine (hl.beginOperation hp hx rfl rfl hc (.inl ⟨rfl, rfl⟩)).of_control ?_
    simp [control, setPhase, latched, latchSend, hparked hp]
  | read a n ha hn hx hp =>
    obtain ⟨hl, hc⟩ := hlatched .read .operation hp rfl
    refine (hl.beginOperation hp hx rfl rfl hc (.inr (.inl ⟨rfl, rfl⟩))).of_control ?_
    simp [control, setPhase, latched, latchRead, hparked hp]
  | transfer a w n ha hw hn hx hp =>
    obtain ⟨hl, hc⟩ := hlatched (w := overlay w s.wbuf) .transfer .operation hp
      (overlay_length (by rw [h.sizes.wbuf_len]; exact hw))
    refine (hl.beginOperation hp hx rfl rfl hc (.inr (.inr ⟨rfl, rfl⟩))).of_control ?_
    simp [control, setPhase, latched, latchTransfer, hparked hp]
  | reply n hp hfree =>
    obtain ⟨hl, hc⟩ := hlatched s.opsel .bareReply hp rfl
    refine (hl.beginReply hp rfl rfl hc).of_control ?_
    simp [control, setPhase, State.setChlock, latched, latchReply, hparked hp]
  | clockTaken f hp hfree =>
    have hx : s.engExists = false := by
      refine Bool.eq_false_iff.2 fun hx => ?_
      obtain ⟨hscl, -, -⟩ := h.engine_pins hx hp
      simpa [hfree] using h.pins.scl_held hscl
    obtain ⟨hl, hc⟩ := hlatched .openEngine .operation hp rfl
    have hopen := hl.beginOpen hp hx rfl rfl rfl hc
    have hfree' := hopen.free_not_owned hfree
    refine ((hopen.setPin (l := .held .engine) hfree' nofun).sclTaken rfl
      (setPin_same (s := s) hfree _) hfree').of_control ?_
    simp [control, clockTaken, latched, latchOpen, State.setPin, setPinlock, setParked, setHasScl,
      setPhase]
  | overtaken f hp hfree =>
    have hout : s.outcome = .ok := h.sequencing.outcome_ok (by simp [hp]) (by simp [hp])
    obtain ⟨-, hjob, hopsel⟩ := h.opening_of_phase (by rw [hp]; rfl)
    have hfree' := h.free_not_owned hfree
    have htaken := (h.setPin (l := .held .engine) hfree' nofun).sclTaken hp
      (setPin_same (s := s) hfree _) hfree'
    have hnotin : s.caller ∉
        (((((s.setPin pinScl (.held .engine)).setParked none).setHasScl true).setPhase
          .oAcqSda)).inCall := by
      rw [inCall_setPhase (p := .oAcqSda) (by simp [State.setPin, hp]) nofun]
      exact hcaller
    refine (htaken.swapThread nofun hnotin (i := .openEngine s.freqReq) rfl).of_control ?_
    simp [control, overtake, latchOpen, State.setPin, setPinlock, setParked, setHasScl, setPhase,
      setWaiting, hout, hjob, hopsel]

/-- What a call of a thread that was inside none does keeps the invariant. -/
theorem Inv.effect (h : s.Inv) (hcaller : s.caller ∉ s.inCall) {i : Instr} {t : State}
    (he : Effect s i t) : t.Inv := by
  cases he with
  | waits _ on e hi hon =>
    exact (h.addWaiter (w := ⟨s.caller, i, on⟩) hcaller hi hon).of_control (by simp)
  | framed | reported | divided => exact h.of_control (by simp)
  | pinTaken k hfree =>
    exact (h.setPin (l := .held (.host s.caller)) (h.free_not_owned hfree) nofun).reply _ _
  | pinFreed k hheld => exact (h.releasePin (h.not_owns (by simp [hheld]))).reply _ _
  | openFailed f e st hp =>
    exact (h.latch hp rfl .openEngine .operation).of_control
      (by simp [control, latchOpen, latched, State.reply, State.setEnv, setStatus, State.answer])
  | openStands f e hp hx hheld =>
    have hlatch := h.latch hp rfl .openEngine .operation
    have hopen := hlatch.beginOpen hp hx rfl rfl rfl (inCall_latched hp _ _ _ ▸ hcaller)
    refine (hopen.park hheld (.inl ⟨rfl, rfl⟩)).of_control ?_
    simp [control, latchOpen, latched, setPhase, setParked, State.setEnv]
  | began hb => exact (h.begun hcaller hb).runSequencer
  | closed hx hp => exact (h.beginClose hx hp hcaller).runCloser

/-! ### The agents outside the block -/

/-- The Channel lock of others is nothing to the invariant. -/
theorem Inv.setChlock (h : s.Inv) (hs : s.chlock ≠ .held .sequencer) {l : ChLock}
    (hl : l ≠ .held .sequencer) : (s.setChlock l).Inv := by
  obtain ⟨hsz, hsq, how, hpi, hwa⟩ := h
  exact ⟨⟨hsz.1, hsz.2, hsz.3, hsz.4, hsz.5⟩,
    ⟨⟨fun hlock => absurd hlock hl, fun hp => absurd (hsq.lock_iff.2 hp) hs⟩, hsq.2, hsq.3, hsq.4,
      hsq.5, hsq.6⟩, how, ⟨hpi.1, hpi.2, hpi.3, hpi.4, hpi.5, hpi.6, hpi.7⟩,
    ⟨hwa.1, hwa.2, hwa.3, hwa.4, hwa.5⟩⟩

theorem Inv.outside (h : s.Inv) {t : State} (ho : Outside s t) : t.Inv := by
  cases ho with
  | idle => exact h
  | received | wrote => exact h.of_control (by simp)
  | locked hfree => exact h.setChlock (by simp [hfree]) nofun
  | unlocked hother => exact h.setChlock (by simp [hother]) nofun
  | pinTaken i hfree => exact h.setPin (h.free_not_owned hfree) nofun
  | pinFreed i hother => exact h.releasePin (h.not_owns (by simp [hother]))
  | poisoned i hfail =>
    refine h.setPin (h.not_owns ?_) nofun
    obtain hother | ⟨t, hhost, -⟩ := mayFail_iff.1 hfail <;> simp [*]

end

end State

/-- Settles O53: by what the step runs; a thread that issues a call is inside none, and one that tries
its call again has left the line. -/
theorem everyStepKeepsInv : Obligations.EveryStepKeepsInv := by
  intro s t h hstep
  obtain ⟨e, ⟨th, c, rest, i, more, hin, -, -, hexec⟩ | ⟨k, w, hk, -, hexec⟩ | rfl | rfl | rfl |
    ⟨m, rfl⟩⟩ := step_cases hstep
  · have hready : ((((s.setEnv e).setCalls rest).setCaller th)).Inv := h.of_control (by simp)
    exact hready.effect hin (exec_effect hexec)
  · obtain ⟨htaken, hout⟩ := h.takeWaiter hk
    have hready : ((((s.setEnv e).setWaiting (s.waiting.eraseIdx k)).setCaller w.thread)).Inv :=
      htaken.of_control (by simp)
    exact hready.effect hout (exec_effect hexec)
  · exact h.setEnv e
  · exact (h.setEnv e).runSequencer
  · exact (h.setEnv e).runCloser
  · exact (h.setEnv e).outside (applyEnv_outside m _)

end Sys2Proof.Machine
end

section
/-! PROOFS. TX and the operation that holds the Channel lock (rules R57, R58, R156, R158): each phase
adds its own bytes to what the phases before it have written, so what is on TX is the beginning of the
operation's sequence; and the other agents leave all of this alone. -/

namespace Sys2Proof.Machine

namespace State

section
variable {s t : State} {base full : List Byte} {j : Job}

/-! ### One phase's bytes -/

/-- What is on TX at the next phase is what is there now and this phase's bytes, and no byte of these
is beyond the sequence: by the phase, whose operation is the one in `OPSEL`. -/
theorem writtenRun_next (h : s.Coherent) (hl : s.phase.locked = true) (hu : s.phase ≠ .unlock) :
    (s.setPhase (s.phase.next s.cfg)).writtenRun = s.writtenRun ++ s.phaseBytes ∧
      s.writtenRun ++ s.phaseBytes <+: s.fullRun := by
  have hop : ∀ o, s.phase.operation = some o → s.job = .operation → s.opsel = o := h.opsel_phase
  have hbare := h.bare_phase
  have hdata := h.data_phase
  have hjob : s.job = .operation ∨ s.job = .bareReply := by cases s.job <;> simp
  cases hp : s.phase
  case idle | oAcqScl | oAcqSda | oLock | sLock | rLock | tLock => simp [hp, Phase.locked] at hl
  case unlock => exact absurd hp hu
  all_goals
    obtain hj | hj := hjob
    · cases hd : s.cfg.xferDataPhase <;>
        simp_all [writtenRun, phaseBytes, fullRun, Phase.next, Phase.operation, xferRun, dataRun, div]
    · simp_all [writtenRun, phaseBytes, fullRun, Phase.next]

theorem prefix_add {p : List Byte} (h : s.Coherent) (hl : s.phase.locked = true)
    (hu : s.phase ≠ .unlock) (hp : p <+: s.phaseBytes) : s.writtenRun ++ p <+: s.fullRun :=
  ((List.prefix_append_right_inj _).2 hp).trans (writtenRun_next h hl hu).2

/-! ### The sequencer's steps in the critical section -/

/-- In the critical section, with the job's own bytes on TX since TX held `base`. -/
structure Critical (base full : List Byte) (j : Job) (s : State) : Prop where
  coherent : s.Coherent
  locked : s.phase.locked = true
  on_wire : s.OnWire base
  full_eq : s.fullRun = full
  job_eq : s.job = j

/-- The job has ended, with the first of its bytes on TX, all of them where an operation ended with
`OK`. -/
def Ended (base full : List Byte) (j : Job) (s : State) : Prop :=
  s.phase = .idle ∧ ∃ p, p <+: full ∧ s.tx = base ++ p ∧ (j = .operation → s.status = .ok → p = full)

/-- Everything blanked out on which the job's bytes and TX do not depend. -/
def wire (s : State) : State :=
  { s with port := .a, chUp := true, rx := [], chlock := .free, pinlock := [], engExists := false,
           hasScl := false, hasSda := false, freqReq := 0, rbuf := [], status := .ok, opThread := 0,
           parked := none, closing := [], closeThread := 0, calls := [], waiting := [], caller := 0,
           ret := .nothing, retTo := 0, env := Env.unknown }

theorem Critical.of_wire (h : s.Critical base full j) (hst : t.wire = s.wire) :
    t.Critical base full j := by
  have hcoherent : t.wire.Coherent := by
    rw [hst]
    obtain ⟨h1, h2, h3, h4, h5⟩ := h.coherent
    exact ⟨h1, h2, h3, h4, h5⟩
  have hphase : t.wire.phase.locked = true := hst ▸ h.locked
  have hwire : t.wire.OnWire base := hst ▸ h.on_wire
  have hfull : t.wire.fullRun = full := hst ▸ h.full_eq
  have hjob : t.wire.job = j := hst ▸ h.job_eq
  exact ⟨⟨hcoherent.1, hcoherent.2, hcoherent.3, hcoherent.4, hcoherent.5⟩, hphase, hwire, hfull, hjob⟩

/-- A step that has written this phase's bytes, and goes on. -/
theorem Critical.next (h : s.Critical base full j) (hu : s.phase ≠ .unlock) :
    ((s.setTx (s.tx ++ s.phaseBytes)).setPhase (s.phase.next s.cfg)).Critical base full j := by
  have hs := working_of_locked h.locked hu
  have hout : s.outcome = .ok := h.coherent.outcome_ok hs.1 hu
  have hco := h.coherent.next hs
  refine ⟨⟨hco.1, hco.2, hco.3, hco.4, hco.5⟩, hs.next_locked, ⟨fun _ => ?_, fun hne => absurd hout hne⟩,
    h.full_eq, h.job_eq⟩
  show s.tx ++ s.phaseBytes = base ++ (s.setPhase (s.phase.next s.cfg)).writtenRun
  rw [(writtenRun_next h.coherent h.locked hu).1, h.on_wire.1 hout, List.append_assoc]

/-- A step that has written some of this phase's bytes, and aborts the sequence. -/
theorem Critical.abort (h : s.Critical base full j) (hu : s.phase ≠ .unlock) {p : List Byte}
    (hp : p <+: s.phaseBytes) {e : Status} (he : e ≠ .ok) :
    ((s.setTx (s.tx ++ p)).abort e).Critical base full j := by
  have hs := working_of_locked h.locked hu
  have hout : s.outcome = .ok := h.coherent.outcome_ok hs.1 hu
  have hco := h.coherent.advance (p := .unlock) (o := e) hs (.inr rfl)
  refine ⟨⟨hco.1, hco.2, hco.3, hco.4, hco.5⟩, rfl, ⟨fun hok => absurd hok he, fun _ => ?_⟩, h.full_eq,
    h.job_eq⟩
  refine ⟨s.writtenRun ++ p, prefix_add h.coherent h.locked hu hp, ?_⟩
  show s.tx ++ p = _
  rw [h.on_wire.1 hout, List.append_assoc]

/-- The step at `UNLOCK` ends the job with what it has written on TX. -/
theorem Critical.ends (h : s.Critical base full j) (hp : s.phase = .unlock) :
    s.releaseChannel.endJob.Ended base full j := by
  obtain ⟨hidle, htx, -⟩ := s.releaseChannel.endJob_frame
  have hwritten : s.writtenRun = full := by simpa [writtenRun, hp] using h.full_eq
  refine ⟨hidle, ?_⟩
  by_cases hout : s.outcome = .ok
  · exact ⟨full, List.prefix_rfl, htx.trans (hwritten ▸ h.on_wire.1 hout), fun _ _ => rfl⟩
  · obtain ⟨p, hprefix, heq⟩ := h.on_wire.2 hout
    refine ⟨p, h.full_eq ▸ hprefix, htx.trans heq, fun hj hok => ?_⟩
    rw [s.releaseChannel.endJob_status (h.job_eq.trans hj)] at hok
    exact absurd hok hout

/-- The phases that receive write nothing. -/
theorem phaseBytes_recv (hp : s.phase = .rTag ∨ s.phase = .tTag ∨ s.phase = .rPayload ∨
    s.phase = .tPayload) : s.phaseBytes = [] := by
  obtain hp | hp | hp | hp := hp <;> simp [phaseBytes, hp]

/-- A step of the sequencer in the critical section stays in it or ends the job: by the kind of its
phase. -/
theorem Critical.seqStep (h : s.Critical base full j) :
    s.seqStep.state.Critical base full j ∨ s.seqStep.state.Ended base full j := by
  obtain ⟨hidle, hscl, hsda⟩ := Phase.locked_ne h.locked
  have hrecv : s.phase = .rTag ∨ s.phase = .tTag ∨ s.phase = .rPayload ∨
      s.phase = .tPayload → (s.setPhase (s.phase.next s.cfg)).Critical base full j ∧
        ∀ e : Status, e ≠ .ok → (s.abort e).Critical base full j := by
    intro hp
    have hu : s.phase ≠ .unlock := by obtain hp | hp | hp | hp := hp <;> simp [hp]
    have hnext := h.next hu
    have habort := fun (e : Status) => h.abort hu (p := []) (e := e) List.nil_prefix
    simp only [phaseBytes_recv hp, List.append_nil] at hnext habort
    exact ⟨hnext, habort⟩
  obtain ⟨hp, -⟩ | ⟨hp, -⟩ | ⟨hp, -⟩ | ⟨hp, -⟩ | ⟨hp, he⟩ | ⟨-, hu, -, he⟩ | ⟨hp, he⟩ |
    ⟨hp, he⟩ | ⟨hp, he⟩ := s.seqStep_spec
  · exact absurd hp hidle
  · exact absurd hp hscl
  · exact absurd hp hsda
  · have hl := h.locked
    obtain hp | hp | hp | hp := hp <;> simp [hp, Phase.locked] at hl
  · have hu : s.phase ≠ .unlock := by simp [hp]
    obtain ⟨e, hw | ⟨p, hprefix, hw⟩⟩ := s.afterWrite_spec abortIo s.phaseBytes <;> rw [he, hw]
    · exact .inl ((h.next hu).of_wire (by simp [wire]))
    · exact .inl ((h.abort hu hprefix (e := .errIo) nofun).of_wire
        (by simp [wire, abortIo, State.abort]))
  · obtain ⟨e, hw | ⟨p, hprefix, hw⟩⟩ := s.afterWrite_spec raiseIo s.phaseBytes <;> rw [he, hw]
    · exact .inl ((h.next hu).of_wire (by simp [wire]))
    · exact .inl ((h.abort hu hprefix (e := .errIo) nofun).of_wire
        (by simp [wire, raiseIo, raise, State.abort]))
  · obtain ⟨hnext, habort⟩ := hrecv (by tauto)
    obtain ⟨e, ⟨b, more, -, -, hr⟩ | ⟨b, more, -, -, hr⟩ | ⟨k, -, hr⟩ | ⟨-, hr⟩⟩ := s.tagStep_spec <;>
      rw [he, hr]
    · exact .inl (hnext.of_wire (by simp [wire]))
    · exact .inl ((habort (.errDesync b) nofun).of_wire (by simp [wire, raise, State.abort]))
    · exact .inl ((habort .errIo nofun).of_wire (by simp [wire, raise, State.abort]))
    · exact .inl (h.of_wire (by simp [wire]))
  · obtain ⟨hnext, habort⟩ := hrecv (by tauto)
    obtain ⟨e, ⟨-, hr⟩ | ⟨k, -, junk, -, hr⟩ | ⟨-, hr⟩⟩ := s.payloadStep_spec <;> rw [he, hr]
    · exact .inl (hnext.of_wire (by simp [wire]))
    · exact .inl ((habort .errIo nofun).of_wire (by simp [wire, raise, State.abort]))
    · exact .inl (h.of_wire (by simp [wire]))
  · rw [he]
    exact .inr (h.ends hp)

theorem seqStep_idle (hp : s.phase = .idle) : s.seqStep = .waits s := by
  simp [State.seqStep, hp]

/-- So does a turn of the sequencer, of any length. -/
theorem Critical.runSequencer (h : s.Critical base full j) :
    s.runSequencer.Critical base full j ∨ s.runSequencer.Ended base full j := by
  refine runSequencer_induct (P := fun u => u.Critical base full j ∨ u.Ended base full j)
    (fun u e hu => ?_) (fun u hu => ?_) s (.inl h)
  · obtain hu | hu := hu
    · exact .inl (hu.of_wire (by simp [wire]))
    · exact .inr hu
  · obtain hu | hu := hu
    · exact hu.seqStep
    · rw [seqStep_idle hu.1]; exact .inr hu

/-! ### The other agents -/

theorem closeStep_wire (s : State) : s.closeStep.wire = s.wire := by
  obtain ⟨-, he⟩ | ⟨i, -, he⟩ | ⟨i, j, rest, -, he⟩ := s.closeStep_spec <;> rw [he]
  · simp [wire, releasePin, setPin]
  · simp [wire, releasePin, setPin]

theorem runCloser_wire (s : State) : s.runCloser.wire = s.wire :=
  runCloser_induct (P := fun u => u.wire = s.wire) (fun _ _ hu => hu)
    (fun u hu => u.closeStep_wire.trans hu) s rfl

/-- A call made while the sequencer is in its critical section leaves TX and the operation alone: it
may wait, report an error, or take or free a pin. -/
theorem effect_wire (hl : s.phase.locked = true) (hlock : s.chlock = .held .sequencer) {i : Instr}
    (h : Effect s i t) : t.wire = s.wire := by
  obtain ⟨hidle, hscl, -⟩ := Phase.locked_ne hl
  cases h with
  | waits | reported | divided | pinTaken | pinFreed => rfl
  | framed _ _ _ _ hfree => exact absurd (hfree.symm.trans hlock) nofun
  | openFailed _ _ _ hp | openStands _ _ hp | closed _ hp => exact absurd hp hidle
  | began hb =>
    cases hb with
    | send _ _ _ _ _ hp | read _ _ _ _ _ hp | transfer _ _ _ _ _ _ _ hp | reply _ hp
    | clockTaken _ hp => exact absurd hp hidle
    | overtaken _ hp => exact absurd hp hscl

theorem Critical.effect (h : s.Critical base full j) (hlock : s.chlock = .held .sequencer)
    {i : Instr} (he : Effect s i t) : t.Critical base full j :=
  h.of_wire (effect_wire h.locked hlock he)

theorem outside_wire (hlock : s.chlock = .held .sequencer) (h : Outside s t) : t.wire = s.wire := by
  cases h with
  | idle | received | pinTaken | pinFreed | poisoned => rfl
  | locked hfree => exact absurd (hfree.symm.trans hlock) nofun
  | wrote _ hother | unlocked hother => exact absurd (hother.symm.trans hlock) nofun

end

end State

/-- Settles O50: the sequencer's own turn adds the operation's bytes or ends it, and every other
agent's step leaves what TX and the operation depend on as it is. -/
theorem txHoldsOneContiguousRun : Obligations.TxHoldsOneContiguousRun := by
  intro s t base hinv hl hwire hstep
  have hlock : s.chlock = .held .sequencer := hinv.sequencing.lock_iff.2 hl
  have hcrit : s.Critical base s.fullRun s.job :=
    ⟨hinv.sequencing.coherent, hl, hwire, rfl, rfl⟩
  have hresult : t.Critical base s.fullRun s.job ∨ t.Ended base s.fullRun s.job := by
    obtain ⟨e, ⟨th, c, rest, i, more, -, -, -, hexec⟩ | ⟨k, w, -, -, hexec⟩ | rfl | rfl | rfl |
      ⟨m, rfl⟩⟩ := step_cases hstep
    all_goals have henv : (s.setEnv e).Critical base s.fullRun s.job :=
      hcrit.of_wire (by simp [State.wire])
    · have hready : (((s.setEnv e).setCalls rest).setCaller th).Critical base s.fullRun s.job :=
        hcrit.of_wire (by simp [State.wire])
      exact .inl (hready.effect hlock (exec_effect hexec))
    · have hready : (((s.setEnv e).setWaiting (s.waiting.eraseIdx k)).setCaller w.thread).Critical
          base s.fullRun s.job := hcrit.of_wire (by simp [State.wire])
      exact .inl (hready.effect hlock (exec_effect hexec))
    · exact .inl henv
    · exact henv.runSequencer
    · exact .inl (henv.of_wire (State.runCloser_wire _))
    · exact .inl (henv.of_wire (State.outside_wire hlock (applyEnv_outside m _)))
  obtain h | h := hresult
  · exact .inl ⟨h.locked, h.on_wire, h.full_eq⟩
  · exact .inr h

end Sys2Proof.Machine
end

section
/-! PROOFS. What a step of the sequencer can do, once: `Stepped s p` lists the ends that `s.seqStep` can
have. From it: the order of the phases (rule R17), what every step leaves alone, and that TX only grows
(rule R25). -/

namespace Sys2Proof.Machine

/-- The phases whose step takes the Channel lock (rule R55). -/
def Phase.Locking (p : Phase) : Prop := p = .oLock ∨ p = .sLock ∨ p = .rLock ∨ p = .tLock

/-- The phases whose step receives (rule R109). -/
def Phase.Receiving (p : Phase) : Prop := p = .rTag ∨ p = .tTag ∨ p = .rPayload ∨ p = .tPayload

/-- The ends a step of the sequencer can have (rule R16's table). -/
inductive Stepped (s : State) : Progress → Prop
  | stands (e : Env) : Stepped s (.waits (s.setEnv e))
  | parked (i : Nat) (e : Env) :
      (s.phase = .oAcqScl ∧ i = pinScl) ∨ (s.phase = .oAcqSda ∧ i = pinSda) → s.IsHeld i →
      s.stillBlocked s.parked = false → Stepped s (.waits ((s.setEnv e).setParked (some i)))
  | sclTaken : s.phase = .oAcqScl → s.pinlock[pinScl]? = some .free →
      Stepped s (.moved ((((s.setPin pinScl (.held .engine)).setParked none).setHasScl true).setPhase
        .oAcqSda))
  | sclFailed (st : Status) (e : Env) : s.phase = .oAcqScl → st ≠ .ok → st ≠ .errIo →
      s.stillBlocked s.parked = false →
      Stepped s (.moved (((s.setEnv e).setParked none).finish st (.status st)))
  | sdaTaken : s.phase = .oAcqSda → s.pinlock[pinSda]? = some .free →
      Stepped s (.moved (((((s.setPin pinSda (.held .engine)).setParked none).setHasSda true).setFreq
        s.freqReq).setPhase .oLock))
  | sdaFailed (st : Status) (e : Env) : s.phase = .oAcqSda → st ≠ .ok → st ≠ .errIo →
      s.stillBlocked s.parked = false →
      Stepped s (.moved (((((s.setEnv e).setParked none).releasePin pinScl).setHasScl false).finish st
        (.status st)))
  | locked : s.phase.Locking → s.chlock = .free →
      Stepped s (.moved ((s.setChlock (.held .sequencer)).setPhase (s.phase.next s.cfg)))
  | wrote (e : Env) : s.phase.locked = true → s.phase ≠ .unlock →
      Stepped s (.moved (((s.setEnv e).setTx (s.tx ++ s.phaseBytes)).setPhase (s.phase.next s.cfg)))
  | enableFailed (e : Env) (p : List Byte) : s.phase = .oEnable → p <+: s.phaseBytes →
      Stepped s (.moved (((s.setEnv e).setTx (s.tx ++ p)).abort .errIo))
  | writeFailed (e : Env) (p : List Byte) : s.phase.locked = true → s.phase ≠ .unlock →
      s.phase ≠ .oEnable → p <+: s.phaseBytes →
      Stepped s (.moved (((s.setEnv e).setTx (s.tx ++ p)).raise .errIo))
  | received (e : Env) (r b : List Byte) : s.phase.Receiving → r <:+ s.rx →
      Stepped s (.moved ((((s.setEnv e).setRx r).setRbuf b).setPhase (s.phase.next s.cfg)))
  | receiveFailed (e : Env) (r b : List Byte) (st : Status) : s.phase.Receiving → r <:+ s.rx →
      st ≠ .ok → Stepped s (.moved ((((s.setEnv e).setRx r).setRbuf b).raise st))
  | opened : s.phase = .unlock → s.job = .operation → s.opsel = .openEngine → s.outcome = .ok →
      Stepped s (.moved ((s.releaseChannel.setExists true).finish .ok (.status .ok)))
  | openAborted : s.phase = .unlock → s.job = .operation → s.opsel = .openEngine →
      s.outcome ≠ .ok →
      Stepped s (.moved (((((s.releaseChannel.releasePin pinSda).releasePin pinScl).setHasSda
        false).setHasScl false).finish s.outcome (.status s.outcome)))
  | reported (st : Status) (r : Ret) : s.phase = .unlock →
      (s.job = .operation → s.opsel ≠ .openEngine) →
      Stepped s (.moved (s.releaseChannel.finish st r))

namespace State

variable {s t : State}

theorem acqSclStep_stepped (hp : s.phase = .oAcqScl) : Stepped s s.acqSclStep := by
  obtain ⟨-, he⟩ | ⟨hb, ⟨hfree, he⟩ | ⟨st, e, hok, hio, he⟩ | ⟨e, o, ho, he⟩⟩ :=
    s.acquireStep_spec pinScl (fun s' => (s'.setHasScl true).setPhase (s'.phase.next s'.cfg))
      (fun st s' => s'.finish st (.status st))
  all_goals rw [acqSclStep, he]
  · exact .stands s.env
  · have hnext : s.phase.next s.cfg = .oAcqSda := by rw [hp]; rfl
    have hstep := Stepped.sclTaken hp hfree
    rw [← hnext] at hstep
    exact hstep
  · exact .sclFailed st e hp hok hio hb
  · exact .parked pinScl e (.inl ⟨hp, rfl⟩) ⟨o, ho⟩ hb

theorem acqSdaStep_stepped (hp : s.phase = .oAcqSda) : Stepped s s.acqSdaStep := by
  obtain ⟨-, he⟩ | ⟨hb, ⟨hfree, he⟩ | ⟨st, e, hok, hio, he⟩ | ⟨e, o, ho, he⟩⟩ :=
    s.acquireStep_spec pinSda
      (fun s' => ((s'.setHasSda true).setFreq s'.freqReq).setPhase (s'.phase.next s'.cfg))
      (fun st s' => ((s'.releasePin pinScl).setHasScl false).finish st (.status st))
  all_goals rw [acqSdaStep, he]
  · exact .stands s.env
  · have hnext : s.phase.next s.cfg = .oLock := by rw [hp]; rfl
    have hstep := Stepped.sdaTaken hp hfree
    rw [← hnext] at hstep
    exact hstep
  · exact .sdaFailed st e hp hok hio hb
  · exact .parked pinSda e (.inr ⟨hp, rfl⟩) ⟨o, ho⟩ hb

theorem tagStep_stepped (hp : s.phase.Receiving) : Stepped s s.tagStep := by
  obtain ⟨e, ⟨b, more, hrx, -, he⟩ | ⟨b, more, hrx, -, he⟩ | ⟨k, -, he⟩ | ⟨-, he⟩⟩ := s.tagStep_spec
  all_goals rw [he]
  · exact .received e more s.rbuf hp (hrx ▸ List.suffix_cons b more)
  · exact .receiveFailed e more s.rbuf _ hp (hrx ▸ List.suffix_cons b more) nofun
  · exact .receiveFailed e _ s.rbuf _ hp (List.drop_suffix k _) nofun
  · exact .stands e

theorem payloadStep_stepped (hp : s.phase.Receiving) : Stepped s s.payloadStep := by
  obtain ⟨e, ⟨-, he⟩ | ⟨k, -, junk, -, he⟩ | ⟨-, he⟩⟩ := s.payloadStep_spec
  all_goals rw [he]
  · exact .received e _ _ hp (List.drop_suffix _ _)
  · exact .receiveFailed e _ _ _ hp (List.drop_suffix k _) nofun
  · exact .stands e

theorem unlock_stepped (hp : s.phase = .unlock) : Stepped s (.moved s.releaseChannel.endJob) := by
  obtain ⟨hjob, hop, he⟩ | ⟨-, hop, r, he⟩ | ⟨hjob, he⟩ := s.releaseChannel.endJob_spec
  · rw [he]
    obtain ⟨hok, he⟩ | ⟨hne, he⟩ := s.releaseChannel.endOpen_spec <;> rw [he]
    · exact .opened hp hjob hop hok
    · exact .openAborted hp hjob hop hne
  · rw [he]
    exact .reported _ r hp fun _ => hop
  · rw [he]
    exact .reported _ _ hp fun hj => absurd (hj.symm.trans hjob) nofun

/-- Every step of the sequencer ends in one of these ways. -/
theorem seqStep_stepped (s : State) : Stepped s s.seqStep := by
  obtain ⟨-, he⟩ | ⟨hp, he⟩ | ⟨hp, he⟩ | ⟨hp, he⟩ | ⟨hp, he⟩ | ⟨hl, hu, hen, he⟩ | ⟨hp, he⟩ |
    ⟨hp, he⟩ | ⟨hp, he⟩ := s.seqStep_spec
  all_goals rw [he]
  · exact .stands s.env
  · exact acqSclStep_stepped hp
  · exact acqSdaStep_stepped hp
  · obtain ⟨hfree, he⟩ | ⟨-, he⟩ := s.lockStep_spec <;> rw [he]
    · exact .locked hp hfree
    · exact .stands s.env
  · obtain ⟨e, he | ⟨p, hprefix, he⟩⟩ := s.afterWrite_spec abortIo s.phaseBytes <;> rw [he]
    · exact .wrote e (by rw [hp]; rfl) (by simp [hp])
    · exact .enableFailed e p hp hprefix
  · obtain ⟨e, he | ⟨p, hprefix, he⟩⟩ := s.afterWrite_spec raiseIo s.phaseBytes <;> rw [he]
    · exact .wrote e hl hu
    · exact .writeFailed e p hl hu hen hprefix
  · exact tagStep_stepped (by unfold Phase.Receiving; tauto)
  · exact payloadStep_stepped (by unfold Phase.Receiving; tauto)
  · exact unlock_stepped hp

end State

/-! ### The order of the phases -/

/-- At every phase with a sequence before it and after it, the next phase is later (rule R17). -/
theorem Phase.rank_lt_next {p : Phase} (hi : p ≠ .idle) (hu : p ≠ .unlock) (c : Config) :
    p.rank < (p.next c).rank := by
  cases p
  case idle => exact absurd rfl hi
  case unlock => exact absurd rfl hu
  case tTxhdr => cases hd : c.xferDataPhase <;> simp [Phase.next, hd, Phase.rank]
  all_goals simp [Phase.next, Phase.rank]

theorem Phase.rank_lt_unlock {p : Phase} (hu : p ≠ .unlock) : p.rank < Phase.unlock.rank := by
  cases p
  case unlock => exact absurd rfl hu
  all_goals decide

theorem Phase.Locking.ne {p : Phase} (h : p.Locking) : p ≠ .idle ∧ p ≠ .unlock := by
  obtain rfl | rfl | rfl | rfl := h <;> simp

theorem Phase.Receiving.locked {p : Phase} (h : p.Receiving) : p.locked = true := by
  obtain rfl | rfl | rfl | rfl := h <;> rfl

theorem Phase.Receiving.ne_unlock {p : Phase} (h : p.Receiving) : p ≠ .unlock := by
  obtain rfl | rfl | rfl | rfl := h <;> simp

namespace State

variable {s t : State}

/-- Where a step of the sequencer leads (rule R17). -/
theorem seqStep_phase : ∀ {r : Progress}, Stepped s r →
    (∀ t, r = .moved t →
      (s.phase.rank < t.phase.rank ∧ (t.phase = s.phase.next s.cfg ∨ t.phase = .unlock)) ∨
      (t.phase = .idle ∧ (s.phase = .oAcqScl ∨ s.phase = .oAcqSda ∨ s.phase = .unlock))) ∧
    (∀ t, r = .waits t → t.phase = s.phase) := by
  have hnext : ∀ {p : Phase}, s.phase ≠ .idle → s.phase ≠ .unlock → p = s.phase.next s.cfg →
      s.phase.rank < p.rank ∧ (p = s.phase.next s.cfg ∨ p = .unlock) := fun hi hu hp =>
    ⟨hp ▸ Phase.rank_lt_next hi hu _, .inl hp⟩
  have habort : s.phase ≠ .unlock →
      s.phase.rank < Phase.unlock.rank ∧ (.unlock = s.phase.next s.cfg ∨ Phase.unlock = .unlock) :=
    fun hu => ⟨Phase.rank_lt_unlock hu, .inr rfl⟩
  intro r h
  refine ⟨fun t ht => ?_, fun t ht => ?_⟩ <;> subst ht
  · cases h with
    | sclTaken hp | sdaTaken hp =>
      exact .inl (hnext (by simp [hp]) (by simp [hp]) (by simp [hp, Phase.next]))
    | sclFailed _ _ hp => exact .inr ⟨rfl, .inl hp⟩
    | sdaFailed _ _ hp => exact .inr ⟨rfl, .inr (.inl hp)⟩
    | locked hp => exact .inl (hnext hp.ne.1 hp.ne.2 rfl)
    | wrote _ hl hu => exact .inl (hnext (Phase.locked_ne hl).1 hu rfl)
    | enableFailed _ _ hp => exact .inl (habort (by simp [hp]))
    | writeFailed _ _ _ hu => exact .inl (habort hu)
    | received _ _ _ hp => exact .inl (hnext (Phase.locked_ne hp.locked).1 hp.ne_unlock rfl)
    | receiveFailed _ _ _ _ hp => exact .inl (habort hp.ne_unlock)
    | opened hp | openAborted hp | reported _ _ hp => exact .inr ⟨rfl, .inr (.inr hp)⟩
  · cases h with
    | stands | parked => rfl

end State

/-- Settles O49: by the ends a step can have. -/
theorem phaseMovesForward : Obligations.PhaseMovesForward :=
  fun s => State.seqStep_phase s.seqStep_stepped

namespace State

variable {s t : State}

/-! ### What every step leaves alone -/

/-- A step of the sequencer takes bytes from the front of RX, if any. -/
theorem seqStep_rx (s : State) : s.seqStep.state.rx <:+ s.rx := by
  have hstep := s.seqStep_stepped
  generalize s.seqStep = r at hstep
  cases hstep with
  | received _ _ _ _ hr | receiveFailed _ _ _ _ _ hr => exact hr
  | _ => simp [Progress.state, finish, releasePin, setPin, releaseChannel, abort, raise]

/-- The parameters, the port and `CH_UP` are the same, and TX has only grown (rules R24, R25). -/
def Grows (s t : State) : Prop :=
  t.cfg = s.cfg ∧ t.port = s.port ∧ t.chUp = s.chUp ∧ s.tx <+: t.tx

theorem Grows.trans {u : State} (h : s.Grows t) (h' : t.Grows u) : s.Grows u := by
  obtain ⟨hc, hp, hu, hx⟩ := h
  obtain ⟨hc', hp', hu', hx'⟩ := h'
  exact ⟨hc'.trans hc, hp'.trans hp, hu'.trans hu, hx.trans hx'⟩

theorem Grows.refl (s : State) : s.Grows s := ⟨rfl, rfl, rfl, List.prefix_rfl⟩

theorem Grows.setEnv {u : State} (e : Env) (h : s.Grows u) : s.Grows (u.setEnv e) := h

theorem seqStep_grows (s : State) : s.Grows s.seqStep.state := by
  have h := s.seqStep_stepped
  generalize s.seqStep = r at h
  cases h <;> simp [Grows, Progress.state, finish, releasePin, setPin, releaseChannel, abort, raise]

theorem runSequencer_grows (s : State) : s.Grows s.runSequencer :=
  runSequencer_induct (P := s.Grows) (fun _ e h => h.setEnv e) (fun u h => h.trans u.seqStep_grows) s
    (Grows.refl s)

theorem closeStep_grows (s : State) : s.Grows s.closeStep := by
  obtain ⟨-, he⟩ | ⟨i, -, he⟩ | ⟨i, j, rest, -, he⟩ := s.closeStep_spec <;> rw [he] <;>
    simp [Grows, releasePin, setPin]

theorem runCloser_grows (s : State) : s.Grows s.runCloser :=
  runCloser_induct (P := s.Grows) (fun _ e h => h.setEnv e) (fun u h => h.trans u.closeStep_grows) s
    (Grows.refl s)

theorem begun_grows {i : Instr} (h : Begun s i t) : s.Grows t := by
  cases h <;> simp [Grows, clockTaken, overtake, setPin]

theorem effect_grows {i : Instr} (h : Effect s i t) : s.Grows t := by
  cases h with
  | began hb => exact (begun_grows hb).trans (runSequencer_grows _)
  | closed =>
    obtain ⟨e, o, he⟩ := s.beginClose_spec
    have hbegin : s.Grows s.beginClose := by simp [he, Grows]
    exact hbegin.trans (runCloser_grows _)
  | _ => simp [Grows, reply, releasePin, setPin]

theorem outside_grows (h : Outside s t) : s.Grows t := by
  cases h <;> simp [Grows, releasePin, setPin]

end State

/-- Settles O52: by the agent that steps. -/
theorem txOnlyGrows : Obligations.TxOnlyGrows := by
  intro s t hstep
  obtain ⟨e, ⟨th, c, rest, i, more, -, -, -, hexec⟩ | ⟨k, w, -, -, hexec⟩ | rfl | rfl | rfl |
    ⟨m, rfl⟩⟩ := step_cases hstep
  all_goals have henv : s.Grows (s.setEnv e) := (State.Grows.refl s).setEnv e
  · have hcall : s.Grows (((s.setEnv e).setCalls rest).setCaller th) := State.Grows.refl s
    exact hcall.trans (State.effect_grows (exec_effect hexec))
  · have htry : s.Grows (((s.setEnv e).setWaiting (s.waiting.eraseIdx k)).setCaller w.thread) :=
      State.Grows.refl s
    exact htry.trans (State.effect_grows (exec_effect hexec))
  · exact henv
  · exact henv.trans (State.runSequencer_grows _)
  · exact henv.trans (State.runCloser_grows _)
  · exact henv.trans (State.outside_grows (applyEnv_outside m _))

end Sys2Proof.Machine
end

section
/-! PROOFS. Who can use the Channel while its lock is held (rules R55, R58, R155), and what SEND, READ
and TRANSFER leave alone (rules R159, R193). -/

namespace Sys2Proof.Machine

namespace State

variable {s t : State}

/-! ### The Channel while its lock is held -/

/-- TX, RX and the Channel lock are as in `s`, and the sequencer is not in its critical section. -/
def Shut (s t : State) : Prop :=
  t.tx = s.tx ∧ t.rx = s.rx ∧ t.chlock = s.chlock ∧ t.phase.locked = false

theorem Shut.setEnv {u : State} (h : s.Shut u) (e : Env) : s.Shut (u.setEnv e) := h

theorem Phase.Locking.not_locked {p : Phase} (h : p.Locking) : p.locked = false := by
  obtain rfl | rfl | rfl | rfl := h <;> rfl

/-- Before its critical section the sequencer does nothing with the Channel while the lock is held. -/
theorem Shut.seqStep {u : State} (h : s.Shut u) {o : ChOwner} (hlock : s.chlock = .held o) :
    s.Shut u.seqStep.state := by
  obtain ⟨htx, hrx, hch, hphase⟩ := h
  have hstep := u.seqStep_stepped
  generalize u.seqStep = r at hstep
  have hclosed : u.phase.locked ≠ true := by simp [hphase]
  cases hstep with
  | stands | parked => exact ⟨htx, hrx, hch, hphase⟩
  | sclTaken | sclFailed | sdaTaken | sdaFailed =>
    simp [Shut, Progress.state, finish, releasePin, setPin, htx, hrx, hch, Phase.locked]
  | locked _ hfree => exact absurd (hfree.symm.trans (hch.trans hlock)) nofun
  | wrote _ hl | writeFailed _ _ hl => exact absurd hl hclosed
  | enableFailed _ _ hp | opened hp | openAborted hp | reported _ _ hp =>
    exact absurd (hp ▸ rfl) hclosed
  | received _ _ _ hp | receiveFailed _ _ _ _ hp => exact absurd hp.locked hclosed

theorem Shut.runSequencer {u : State} (h : s.Shut u) {o : ChOwner} (hlock : s.chlock = .held o) :
    s.Shut u.runSequencer :=
  runSequencer_induct (P := s.Shut) (fun _ e hu => hu.setEnv e) (fun _ hu => hu.seqStep hlock) u h

/-- A release of a pin is nothing to the Channel. -/
theorem runCloser_channel (s : State) :
    s.runCloser.tx = s.tx ∧ s.runCloser.rx = s.rx ∧ s.runCloser.chlock = s.chlock := by
  refine runCloser_induct (P := fun u => u.tx = s.tx ∧ u.rx = s.rx ∧ u.chlock = s.chlock)
    (fun _ _ hu => hu) (fun u hu => ?_) s ⟨rfl, rfl, rfl⟩
  obtain ⟨-, he⟩ | ⟨i, -, he⟩ | ⟨i, j, rest, -, he⟩ := u.closeStep_spec <;> rw [he] <;>
    simpa [releasePin, setPin] using hu

/-- While the Channel lock is held, a call leaves the Channel alone. -/
theorem effect_channel {o : ChOwner} (hlock : s.chlock = .held o) {i : Instr} (h : Effect s i t) :
    t.tx = s.tx ∧ t.rx = s.rx ∧ t.chlock = s.chlock := by
  cases h with
  | waits | reported | divided | pinTaken | pinFreed | openFailed | openStands =>
    simp [reply, releasePin, setPin]
  | framed _ _ _ _ hfree => exact absurd (hfree.symm.trans hlock) nofun
  | began hb =>
    rename_i u
    have hbegun : s.Shut u := by
      cases hb with
      | reply _ _ hfree => exact absurd (hfree.symm.trans hlock) nofun
      | _ => simp [Shut, clockTaken, overtake, setPin, Phase.locked]
    obtain ⟨htx, hrx, hch, -⟩ := hbegun.runSequencer hlock
    exact ⟨htx, hrx, hch⟩
  | closed =>
    obtain ⟨e, o, he⟩ := s.beginClose_spec
    simpa [he] using s.beginClose.runCloser_channel

end State

/-- A step whose turn is known is the step of that agent. -/
theorem step_known {s : State} {u : Turn} {rest : List Turn} (h : s.env.turns = u :: rest) :
    step s = serveTurn u (s.setEnv { s.env with turns := rest }) := by
  rw [step, s.drawTurn_known h]

/-- What a turn runs: nothing, a call at a state that differs only in the calls, the line and the caller,
or the step of the agent whose turn it is. -/
theorem serveTurn_cases {u : Turn} {s t : State} (h : serveTurn u s = .next t) :
    t = s ∨
    (∃ i rest w th, exec i (((s.setCalls rest).setWaiting w).setCaller th) = .next t) ∨
    (u = .sequencer ∧ t = s.runSequencer) ∨ (u = .closer ∧ t = s.runCloser) ∨
    ∃ m, u = .env m ∧ t = applyEnv m s := by
  cases u with
  | call th =>
    simp only [serveTurn, serveCall] at h
    split at h
    next => cases h; exact .inl rfl
    next =>
      split at h
      next => cases h; exact .inl rfl
      next c rest hc =>
        split at h
        next => cases h
        next i more hd => exact .inr (.inl ⟨i, rest, s.waiting, th, h⟩)
  | retry k =>
    simp only [serveTurn, serveWaiter] at h
    split at h
    next => cases h; exact .inl rfl
    next w hw =>
      split at h
      next => cases h; exact .inl rfl
      next => exact .inr (.inl ⟨w.instr, s.calls, _, w.thread, h⟩)
  | sequencer => cases h; exact .inr (.inr (.inl ⟨rfl, rfl⟩))
  | closer => cases h; exact .inr (.inr (.inr (.inl ⟨rfl, rfl⟩)))
  | env m => cases h; exact .inr (.inr (.inr (.inr ⟨m, rfl, rfl⟩)))

/-- While the sequencer holds the Channel lock, an agent outside the block can only add to RX. -/
theorem outside_channel {s t : State} (hlock : s.chlock = .held .sequencer) (h : Outside s t) :
    t.tx = s.tx ∧ t.chlock = s.chlock ∧ s.rx <+: t.rx := by
  cases h with
  | idle | received | pinTaken | pinFreed | poisoned => simp [State.releasePin, State.setPin]
  | locked hfree => exact absurd (hfree.symm.trans hlock) nofun
  | wrote _ hother | unlocked hother => exact absurd (hother.symm.trans hlock) nofun

/-- While the Channel lock is held, a call that a turn runs leaves the Channel alone. -/
theorem exec_channel {s t : State} {o : ChOwner} (hlock : s.chlock = .held o) {i : Instr}
    {rest : List Call} {w : List Waiter} {th : Nat}
    (h : exec i (((s.setCalls rest).setWaiting w).setCaller th) = .next t) :
    t.tx = s.tx ∧ t.rx = s.rx ∧ t.chlock = s.chlock := by
  simpa using State.effect_channel (by simpa using hlock) (exec_effect h)

/-- While the sequencer holds the Channel lock, no other agent uses the Channel. -/
theorem turn_channel_held {u : Turn} {s t : State} (hlock : s.chlock = .held .sequencer)
    (hu : u ≠ .sequencer) (h : serveTurn u s = .next t) :
    t.tx = s.tx ∧ t.chlock = s.chlock ∧ s.rx <+: t.rx := by
  obtain rfl | ⟨i, calls, w, th, hexec⟩ | ⟨hseq, -⟩ | ⟨-, rfl⟩ | ⟨m, -, rfl⟩ := serveTurn_cases h
  · exact ⟨rfl, rfl, List.prefix_rfl⟩
  · obtain ⟨htx, hrx, hch⟩ := exec_channel hlock hexec
    exact ⟨htx, hch, hrx ▸ List.prefix_rfl⟩
  · exact absurd hseq hu
  · obtain ⟨htx, hrx, hch⟩ := s.runCloser_channel
    exact ⟨htx, hch, hrx ▸ List.prefix_rfl⟩
  · exact outside_channel hlock (applyEnv_outside m s)

/-- While another engine holds the Channel lock, no agent of the block uses the Channel. -/
theorem turn_channel_other {u : Turn} {s t : State} (hlock : s.chlock = .held .other)
    (hphase : s.phase.locked = false) (hu : ∀ m, u ≠ .env m) (h : serveTurn u s = .next t) :
    t.tx = s.tx ∧ t.chlock = s.chlock ∧ t.rx = s.rx := by
  obtain rfl | ⟨i, calls, w, th, hexec⟩ | ⟨-, rfl⟩ | ⟨-, rfl⟩ | ⟨m, hm, -⟩ := serveTurn_cases h
  · exact ⟨rfl, rfl, rfl⟩
  · obtain ⟨htx, hrx, hch⟩ := exec_channel hlock hexec
    exact ⟨htx, hch, hrx⟩
  · have hshut : s.Shut s := ⟨rfl, rfl, rfl, hphase⟩
    obtain ⟨htx, hrx, hch, -⟩ := hshut.runSequencer hlock
    exact ⟨htx, hch, hrx⟩
  · obtain ⟨htx, hrx, hch⟩ := s.runCloser_channel
    exact ⟨htx, hch, hrx⟩
  · exact absurd hm (hu m)

/-- Settles O51: by the agent whose turn it is; a sequencer that takes the lock finds it held. -/
theorem othersCannotUseTheChannel : Obligations.OthersCannotUseTheChannel := by
  refine ⟨fun s t u rest hlock hturn hu hstep => ?others, fun s o hlock hphase => ?locking,
    fun s t u rest hinv hlock hturn hu hstep => ?block⟩
  case others =>
    rw [step_known hturn] at hstep
    exact turn_channel_held (s := s.setEnv { s.env with turns := rest }) hlock hu hstep
  case locking =>
    have hstep : s.seqStep = s.lockStep := by
      obtain hp | hp | hp | hp := hphase <;> simp [State.seqStep, hp]
    rw [hstep, State.lockStep, hlock]
  case block =>
    have hphase : s.phase.locked = false := by
      refine Bool.eq_false_iff.2 fun hl => ?_
      exact absurd ((hinv.sequencing.lock_iff.2 hl).symm.trans hlock) nofun
    rw [step_known hturn] at hstep
    exact turn_channel_other (s := s.setEnv { s.env with turns := rest }) hlock hphase hu hstep

/-! ### What SEND, READ and TRANSFER leave alone -/

/-- The operations of an engine. -/
abbrev EngineOp (o : Op) : Prop := o = .send ∨ o = .read ∨ o = .transfer

/-- A phase of one of them. -/
abbrev Phase.OfEngine (p : Phase) : Prop := ∃ o, p.operation = some o ∧ EngineOp o

theorem Phase.OfEngine.ne {p : Phase} (h : p.OfEngine) :
    p ≠ .idle ∧ p ≠ .oAcqScl ∧ p ≠ .oAcqSda ∧ p ≠ .unlock := by
  obtain ⟨o, hp, ho⟩ := h
  refine ⟨?_, ?_, ?_, ?_⟩ <;> rintro rfl <;> cases hp
  all_goals simp [EngineOp] at ho

/-- The phase after a phase of an operation is one of the same operation, or `UNLOCK`. -/
theorem Phase.operation_next {p : Phase} {o : Op} (h : p.operation = some o) (c : Config) :
    (p.next c).operation = some o ∨ p.next c = .unlock := by
  cases p
  case tTxhdr => cases hd : c.xferDataPhase <;> simpa [Phase.next, hd, Phase.operation] using h
  case oEnable | sStop | rPayload | tPayload => exact .inr rfl
  all_goals exact .inl h

namespace State

variable {s t u : State}

/-- All is the same but the Channel, the results, the caller's latches and the sequencer's position. -/
def KeepsEngine (s t : State) : Prop :=
  t.freq = s.freq ∧ t.engExists = s.engExists ∧ t.hasScl = s.hasScl ∧ t.hasSda = s.hasSda ∧
    t.pinlock = s.pinlock ∧ t.cfg = s.cfg ∧ t.port = s.port ∧ t.chUp = s.chUp ∧
    t.closing = s.closing ∧ t.calls = s.calls ∧ t.freqReq = s.freqReq

theorem KeepsEngine.refl (s : State) : s.KeepsEngine s := by simp [KeepsEngine]

theorem KeepsEngine.trans (h : s.KeepsEngine t) (h' : t.KeepsEngine u) : s.KeepsEngine u := by
  simp_all [KeepsEngine]

theorem KeepsEngine.setEnv (h : s.KeepsEngine t) (e : Env) : s.KeepsEngine (t.setEnv e) := h

/-- The sequencer works at a phase of SEND, READ or TRANSFER, or at the end of one. -/
def AtOperation (s : State) : Prop :=
  s.phase.OfEngine ∨ (s.phase = .unlock ∧ EngineOp s.opsel)

/-- A step of such a sequencer is a step in the Channel. -/
theorem AtOperation.seqStep_keeps (h : s.AtOperation) :
    s.KeepsEngine s.seqStep.state ∧ s.seqStep.state.opsel = s.opsel ∧
      s.seqStep.state.waiting = s.waiting ∧ s.seqStep.state.parked = s.parked := by
  have hphase : s.phase ≠ .oAcqScl ∧ s.phase ≠ .oAcqSda ∧
      (s.phase = .unlock → s.opsel ≠ .openEngine) := by
    obtain h | ⟨hp, h⟩ := h
    · exact ⟨h.ne.2.1, h.ne.2.2.1, fun hu => absurd hu h.ne.2.2.2⟩
    · refine ⟨by simp [hp], by simp [hp], fun _ => ?_⟩
      obtain h | h | h := h <;> simp [h]
  obtain ⟨hscl, hsda, hop⟩ := hphase
  have hstep := s.seqStep_stepped
  generalize s.seqStep = r at hstep
  cases hstep with
  | parked _ _ hp =>
    obtain ⟨hp, -⟩ | ⟨hp, -⟩ := hp
    · exact absurd hp hscl
    · exact absurd hp hsda
  | sclTaken hp | sclFailed _ _ hp => exact absurd hp hscl
  | sdaTaken hp | sdaFailed _ _ hp => exact absurd hp hsda
  | opened hp _ ho | openAborted hp _ ho => exact absurd ho (hop hp)
  | stands | locked | wrote | enableFailed | writeFailed | received | receiveFailed | reported =>
    simp [KeepsEngine, Progress.state, finish, releaseChannel, abort, raise]

/-- Where it moves it stays at the operation, or the operation ends. -/
theorem AtOperation.seqStep_stays (h : s.AtOperation) (hop : EngineOp s.opsel) :
    s.seqStep.state.phase = .idle ∨ s.seqStep.state.AtOperation := by
  obtain ⟨-, hopsel, -⟩ := h.seqStep_keeps
  rw [AtOperation, hopsel]
  obtain ⟨hmoved, hwaits⟩ := seqStep_phase s.seqStep_stepped
  cases hr : s.seqStep with
  | waits t => rw [Progress.state, hwaits t hr]; exact .inr h
  | moved t =>
    rw [Progress.state]
    obtain ⟨-, hnext | hunlock⟩ | ⟨hidle, -⟩ := hmoved t hr
    · obtain ⟨o, hp, ho⟩ | ⟨hp, -⟩ := h
      · obtain hn | hn := Phase.operation_next hp s.cfg
        · exact .inr (.inl ⟨o, hnext ▸ hn, ho⟩)
        · exact .inr (.inr ⟨hnext.trans hn, hop⟩)
      · exact .inl (by rw [hnext, hp]; rfl)
    · exact .inr (.inr ⟨hunlock, hop⟩)
    · exact .inl hidle

theorem AtOperation.runSequencer_keeps (h : s.phase = .idle ∨ s.AtOperation)
    (hop : EngineOp s.opsel) : s.KeepsEngine s.runSequencer := by
  have hrun := runSequencer_induct
    (P := fun u => s.KeepsEngine u ∧ u.opsel = s.opsel ∧ (u.phase = .idle ∨ u.AtOperation))
    (fun u e ⟨hk, ho, hu⟩ => ⟨hk.setEnv e, ho, hu⟩) (fun u ⟨hk, ho, hu⟩ => ?_) s
    ⟨KeepsEngine.refl s, rfl, h⟩
  · exact hrun.1
  · obtain hidle | hat := hu
    · rw [seqStep_idle hidle]
      exact ⟨hk, ho, .inl hidle⟩
    · obtain ⟨hkeeps, hopsel, -⟩ := hat.seqStep_keeps
      exact ⟨hk.trans hkeeps, hopsel.trans ho, hat.seqStep_stays (ho ▸ hop)⟩

/-- A SEND, READ or TRANSFER that is issued keeps the engine, however far it goes. -/
theorem effect_keepsEngine {i : Instr} (hi : i.space = .request)
    (hop : ∀ u, Begun s i u → u.AtOperation ∧ EngineOp u.opsel ∧ s.KeepsEngine u)
    (hnot : i ≠ .close ∧ (∀ f, i ≠ .openEngine f) ∧ (∀ k, i ≠ .pin k) ∧ ∀ k, i ≠ .pinRelease k)
    (h : Effect s i t) : s.KeepsEngine t := by
  obtain ⟨hclose, hopen, hpin, hfree⟩ := hnot
  cases h with
  | began hb =>
    obtain ⟨hat, hsel, hkeeps⟩ := hop _ hb
    exact hkeeps.trans (AtOperation.runSequencer_keeps (.inr hat) hsel)
  | closed => exact absurd rfl hclose
  | openFailed f | openStands f => exact absurd rfl (hopen f)
  | pinTaken k => exact absurd rfl (hpin k)
  | pinFreed k => exact absurd rfl (hfree k)
  | waits | framed | reported | divided => simp [KeepsEngine, reply]

end State

/-- Settles O45: the call by what it begins, the step by its phase, and the turn by its steps. -/
theorem operationsKeepTheEngine : Obligations.OperationsKeepTheEngine := by
  refine ⟨fun s t a n w h => ?call, fun s h => State.AtOperation.seqStep_keeps h,
    fun s hinv hop => State.AtOperation.runSequencer_keeps ?turn hop⟩
  case call =>
    obtain h | h | h := h
    · refine State.effect_keepsEngine rfl (fun u hb => ?_) (by simp) (exec_effect h)
      cases hb
      exact ⟨.inl ⟨.send, rfl, .inl rfl⟩, .inl rfl, by simp [State.KeepsEngine]⟩
    · refine State.effect_keepsEngine rfl (fun u hb => ?_) (by simp) (exec_effect h)
      cases hb
      exact ⟨.inl ⟨.read, rfl, .inr (.inl rfl)⟩, .inr (.inl rfl), by simp [State.KeepsEngine]⟩
    · refine State.effect_keepsEngine rfl (fun u hb => ?_) (by simp) (exec_effect h)
      cases hb
      exact ⟨.inl ⟨.transfer, rfl, .inr (.inr rfl)⟩, .inr (.inr rfl), by simp [State.KeepsEngine]⟩
  case turn =>
    by_cases hidle : s.phase = .idle
    · exact .inl hidle
    by_cases hunlock : s.phase = .unlock
    · exact .inr (.inr ⟨hunlock, hop⟩)
    refine .inr (.inl ?_)
    cases hj : s.job with
    | bareReply =>
      obtain hp | hp | hp | hp := hinv.sequencing.bare_phase hj
      · exact absurd hp hidle
      · exact ⟨.read, by rw [hp]; rfl, .inr (.inl rfl)⟩
      · exact ⟨.read, by rw [hp]; rfl, .inr (.inl rfl)⟩
      · exact absurd hp hunlock
    | operation =>
      have hphase : ∃ o, s.phase.operation = some o := by
        cases hp : s.phase
        case idle => exact absurd hp hidle
        case unlock => exact absurd hp hunlock
        all_goals exact ⟨_, rfl⟩
      obtain ⟨o, ho⟩ := hphase
      exact ⟨o, ho, hinv.sequencing.opsel_phase o ho hj ▸ hop⟩

end Sys2Proof.Machine
end

section
/-! PROOFS. SEND, READ and TRANSFER, and OPEN, whatever the environment chooses (rules R127, R158, R189):
what is on TX when a turn of the sequencer that begins with the call is over. -/

namespace Sys2Proof.Machine

namespace State

variable {s t u : State} {base full : List Byte}

/-! ### An operation that has been accepted -/

/-- Accepted, and not yet in the critical section: nothing is written. -/
structure Waiting (base full : List Byte) (s : State) : Prop where
  coherent : s.Coherent
  locking : s.phase = .sLock ∨ s.phase = .rLock ∨ s.phase = .tLock
  tx_eq : s.tx = base
  full_eq : s.fullRun = full
  job_eq : s.job = .operation

/-- An operation of the engine that began when TX held `base`: before, in, or after its critical
section. -/
def Underway (base full : List Byte) (s : State) : Prop :=
  s.Waiting base full ∨ s.Critical base full .operation ∨ s.Ended base full .operation

/-- The Channel lock is taken with nothing written yet. -/
theorem Waiting.seqStep (h : s.Waiting base full) : s.seqStep.state.Underway base full := by
  have hlocking : s.phase.Locking := by
    unfold Phase.Locking
    have := h.locking
    tauto
  have hs : s.phase.Working := by
    obtain hp | hp | hp := h.locking <;> simp [Phase.Working, hp]
  have hstep : s.seqStep = s.lockStep := by
    obtain hp | hp | hp := h.locking <;> simp [State.seqStep, hp]
  obtain ⟨-, he⟩ | ⟨-, he⟩ := s.lockStep_spec <;> rw [hstep, he]
  · have hco := h.coherent.next hs
    have hout : s.outcome = .ok := h.coherent.outcome_ok hs.1 hs.2.2.2
    have hnone : (s.setPhase (s.phase.next s.cfg)).writtenRun = [] := by
      obtain hp | hp | hp := h.locking <;> simp [writtenRun, hp, Phase.next]
    have hcrit : (s.setPhase (s.phase.next s.cfg)).Critical base full .operation :=
      ⟨hco, hs.next_locked, ⟨fun _ => by rw [hnone, List.append_nil]; exact h.tx_eq,
        fun hne => absurd hout hne⟩, h.full_eq, h.job_eq⟩
    exact .inr (.inl (hcrit.of_wire rfl))
  · exact .inl h

theorem Waiting.setEnv (h : s.Waiting base full) (e : Env) : (s.setEnv e).Waiting base full := by
  obtain ⟨hco, hp, htx, hfull, hjob⟩ := h
  exact ⟨⟨hco.1, hco.2, hco.3, hco.4, hco.5⟩, hp, htx, hfull, hjob⟩

theorem Underway.setEnv (h : s.Underway base full) (e : Env) : (s.setEnv e).Underway base full := by
  obtain h | h | h := h
  · exact .inl (h.setEnv e)
  · exact .inr (.inl (h.of_wire rfl))
  · exact .inr (.inr h)

theorem Underway.seqStep (h : s.Underway base full) : s.seqStep.state.Underway base full := by
  obtain h | h | h := h
  · exact h.seqStep
  · exact .inr h.seqStep
  · rw [seqStep_idle h.1]; exact .inr (.inr h)

theorem Underway.runSequencer (h : s.Underway base full) : s.runSequencer.Underway base full :=
  runSequencer_induct (fun _ e hu => hu.setEnv e) (fun _ hu => hu.seqStep) s h

/-- Whatever the phase, what has been written begins the sequence. -/
theorem Critical.tx_prefix {j : Job} (h : s.Critical base full j) :
    ∃ p, p <+: full ∧ s.tx = base ++ p := by
  by_cases hout : s.outcome = .ok
  · refine ⟨s.writtenRun, h.full_eq ▸ ?_, h.on_wire.1 hout⟩
    by_cases hu : s.phase = .unlock
    · simp [writtenRun, hu]
    · simpa using prefix_add h.coherent h.locked hu List.nil_prefix
  · obtain ⟨p, hp, htx⟩ := h.on_wire.2 hout
    exact ⟨p, h.full_eq ▸ hp, htx⟩

/-- What is on TX of an operation, and that it has ended with `OK` only with all of it there. -/
theorem Underway.tx (h : s.Underway base full) : ∃ p, s.tx = base ++ p ∧ p <+: full ∧
    (s.phase = .idle → s.status = .ok → p = full) := by
  obtain h | h | ⟨-, p, hp, htx, hall⟩ := h
  · refine ⟨[], by simp [h.tx_eq], List.nil_prefix, fun hidle => ?_⟩
    obtain hp | hp | hp := h.locking <;> exact absurd (hp.symm.trans hidle) nofun
  · obtain ⟨p, hp, htx⟩ := h.tx_prefix
    exact ⟨p, htx, hp, fun hidle => absurd hidle (Phase.locked_ne h.locked).1⟩
  · exact ⟨p, htx, hp, fun _ hok => hall rfl hok⟩

/-! ### RX and RBUF -/

/-- The sequencer takes bytes from the front of RX only (rule R25). -/
theorem runSequencer_rx (s : State) : s.runSequencer.rx <:+ s.rx :=
  runSequencer_induct (P := fun u => u.rx <:+ s.rx) (fun _ _ h => h)
    (fun u h => u.seqStep_rx.trans h) s List.suffix_rfl

/-- A step at a phase of SEND, or at its end, receives nothing. -/
theorem seqStep_send (hp : s.phase = .idle ∨ s.phase = .unlock ∨ s.phase.operation = some .send) :
    s.seqStep.state.rx = s.rx ∧ s.seqStep.state.rbuf = s.rbuf := by
  have hnot : ¬ s.phase.Receiving := by
    rintro (h | h | h | h) <;> simp [h, Phase.operation] at hp
  have hstep := s.seqStep_stepped
  generalize s.seqStep = r at hstep
  cases hstep with
  | received _ _ _ h | receiveFailed _ _ _ _ h => exact absurd h hnot
  | _ => simp [Progress.state, finish, releasePin, setPin, releaseChannel, abort, raise]

/-- A SEND stays at SEND's phases until it ends. -/
theorem seqStep_send_stays (h : s.phase = .idle ∨ s.phase = .unlock ∨ s.phase.operation = some .send) :
    s.seqStep.state.phase = .idle ∨ s.seqStep.state.phase = .unlock ∨
      s.seqStep.state.phase.operation = some .send := by
  obtain ⟨hmoved, hwaits⟩ := seqStep_phase s.seqStep_stepped
  cases hr : s.seqStep with
  | waits t => rw [Progress.state, hwaits t hr]; exact h
  | moved t =>
    rw [Progress.state]
    obtain ⟨-, hnext | hunlock⟩ | ⟨hidle, -⟩ := hmoved t hr
    · obtain hp | hp | hp := h
      · exact .inl (by rw [hnext, hp]; rfl)
      · exact .inl (by rw [hnext, hp]; rfl)
      · obtain hn | hn := Phase.operation_next hp s.cfg
        · exact .inr (.inr (hnext ▸ hn))
        · exact .inr (.inl (hnext.trans hn))
    · exact .inr (.inl hunlock)
    · exact .inl hidle

/-- SEND touches neither RX nor `RBUF`. -/
theorem runSequencer_send (hp : s.phase = .sLock) :
    s.runSequencer.rx = s.rx ∧ s.runSequencer.rbuf = s.rbuf := by
  have hrun := runSequencer_induct (P := fun u => (u.rx = s.rx ∧ u.rbuf = s.rbuf) ∧
      (u.phase = .idle ∨ u.phase = .unlock ∨ u.phase.operation = some .send))
    (fun _ _ h => h) (fun u ⟨⟨hrx, hrbuf⟩, hu⟩ => ?_) s
    ⟨⟨rfl, rfl⟩, .inr (.inr (by rw [hp]; rfl))⟩
  · exact hrun.1
  · obtain ⟨hrx', hrbuf'⟩ := seqStep_send hu
    exact ⟨⟨hrx'.trans hrx, hrbuf'.trans hrbuf⟩, seqStep_send_stays hu⟩

/-! ### Accepting an operation -/

/-- The data run of an operation is the buffer it was given. -/
theorem dataRun_overlay {w : List Byte} (hw : w.length ≤ 255) (buffer : List Byte) :
    (overlay w buffer).take (BitVec.ofNat 8 w.length).toNat = w := by
  have hlen : (BitVec.ofNat 8 w.length).toNat = w.length := byteOf_toNat (by omega)
  rw [hlen, overlay, List.take_left]

theorem sendBegun_waiting {a : Nat} {w : List Byte} (hw : w.length ≤ 255) :
    ((s.latchSend a w).setPhase .sLock).Waiting s.tx (sendBytes s.cfg a w) := by
  refine ⟨⟨fun _ ho _ => Option.some.inj ho, nofun, nofun, nofun, fun _ _ => rfl⟩, .inl rfl,
    rfl, ?_, rfl⟩
  have hrun : ((s.latchSend a w).setPhase .sLock).dataRun = w := dataRun_overlay hw s.wbuf
  simp [fullRun, sendBytes, hrun]

theorem readBegun_waiting {a n : Nat} :
    ((s.latchRead a n).setPhase .rLock).Waiting s.tx (readBytes s.cfg a n) :=
  ⟨⟨fun _ ho _ => Option.some.inj ho, nofun, nofun, nofun, fun _ _ => rfl⟩, .inr (.inl rfl),
    rfl, rfl, rfl⟩

theorem transferBegun_waiting {a n : Nat} {w : List Byte} (hw : w.length ≤ 255) :
    ((s.latchTransfer a w n).setPhase .tLock).Waiting s.tx (transferBytes s.cfg a w n) := by
  refine ⟨⟨fun _ ho _ => Option.some.inj ho, nofun, nofun, nofun, fun _ _ => rfl⟩, .inr (.inr rfl), rfl,
    ?_, rfl⟩
  have hrun : ((s.latchTransfer a w n).setPhase .tLock).dataRun = w := dataRun_overlay hw s.wbuf
  simp [fullRun, transferBytes, hrun]

end State

/-- An operation in contract, of an engine whose sequencer is idle, begins at once. -/
theorem acceptOperation_begins {s : State} {addr : Nat} {lengths : List Nat} {call : Instr}
    {latched : State} {first : Phase} (ha : addr < 128) (hl : ∀ n ∈ lengths, n ≤ 255)
    (hx : s.engExists = true) (hp : s.phase = .idle) :
    acceptOperation (contractRefusal addr lengths) call latched first s =
      .next (latched.setPhase first).runSequencer := by
  rw [contractRefusal_none.2 ⟨ha, hl⟩]
  simp [acceptOperation, hx, hp]

theorem exec_send_begins {s : State} {a : Nat} {w : List Byte} (ha : a < 128) (hw : w.length ≤ 255)
    (hx : s.engExists = true) (hp : s.phase = .idle) :
    exec (.send a w) s = .next ((s.latchSend a w).setPhase .sLock).runSequencer :=
  acceptOperation_begins ha (by simpa using hw) hx hp

theorem exec_read_begins {s : State} {a n : Nat} (ha : a < 128) (hn : n ≤ 255)
    (hx : s.engExists = true) (hp : s.phase = .idle) :
    exec (.read a n) s = .next ((s.latchRead a n).setPhase .rLock).runSequencer :=
  acceptOperation_begins ha (by simpa using hn) hx hp

theorem exec_transfer_begins {s : State} {a n : Nat} {w : List Byte} (ha : a < 128)
    (hw : w.length ≤ 255) (hn : n ≤ 255) (hx : s.engExists = true) (hp : s.phase = .idle) :
    exec (.transfer a w n) s = .next ((s.latchTransfer a w n).setPhase .tLock).runSequencer :=
  acceptOperation_begins ha (by simpa using ⟨hw, hn⟩) hx hp

/-- Settles O44: each operation begins before its critical section with nothing written, and stays
under way or ends whatever the environment chooses. -/
theorem operationsAddAPrefix : Obligations.OperationsAddAPrefix := by
  intro s a n w ha hw hn hx hp
  refine ⟨?send, ?read, ?transfer⟩
  case send =>
    obtain ⟨p, htx, hprefix, hall⟩ :=
      (State.Underway.runSequencer (.inl (s.sendBegun_waiting (a := a) hw))).tx
    obtain ⟨hrx, hrbuf⟩ :=
      State.runSequencer_send (s := (s.latchSend a w).setPhase .sLock) rfl
    exact ⟨_, p, exec_send_begins ha hw hx hp, htx, hprefix, hall, hrx, hrbuf⟩
  case read =>
    obtain ⟨p, htx, hprefix, hall⟩ :=
      (State.Underway.runSequencer (.inl (s.readBegun_waiting (a := a) (n := n)))).tx
    exact ⟨_, p, exec_read_begins ha hn hx hp, htx, hprefix, hall, State.runSequencer_rx _⟩
  case transfer =>
    obtain ⟨p, htx, hprefix, hall⟩ :=
      (State.Underway.runSequencer (.inl (s.transferBegun_waiting (a := a) (n := n) hw))).tx
    exact ⟨_, p, exec_transfer_begins ha hw hn hx hp, htx, hprefix, hall, State.runSequencer_rx _⟩

end Sys2Proof.Machine
end

section
/-! PROOFS. OPEN, whatever the environment chooses (rules R124, R127): beside an engine it takes nothing;
else it has built an engine when it returns, or left the pins alone. -/

namespace Sys2Proof.Machine

namespace State

variable {s t u : State} {f : Freq}

/-! ### Beside an engine -/

/-- An engine holds pin 0 whatever the sequencer does (rules R13, R124). -/
theorem Inv.engine_scl (h : s.Inv) (hx : s.engExists = true) : s.pinlock[pinScl]? = engineHeld := by
  have how := h.ownership
  by_cases hopen : s.opening
  · rw [Ownership, if_pos hopen] at how
    exact absurd (how.1.symm.trans hx) nofun
  · rw [Ownership, if_neg hopen] at how
    exact h.pins.scl_held (how.1.trans hx)

/-- OPEN always answers a next state. -/
theorem exec_open_next (f : Freq) (s : State) : ∃ t, exec (.openEngine f) s = .next t := by
  show ∃ t, execOpen f s = .next t
  unfold execOpen
  split <;> exact ⟨_, rfl⟩

end State

/-- Settles O30: pin 0 is the engine's, so the attempt fails or blocks. -/
theorem secondOpenTakesNothing : Obligations.SecondOpenTakesNothing := by
  intro s f h hx
  have hscl := h.engine_scl hx
  obtain ⟨t, ht⟩ := State.exec_open_next f s
  refine ⟨t, ht, ?_⟩
  cases exec_effect ht with
  | waits | reported | openFailed => simp [State.reply, hx]
  | framed _ _ _ _ _ hspace => cases hspace
  | openStands _ _ _ hnone => exact absurd (hnone.symm.trans hx) nofun
  | began hb =>
    cases hb with
    | clockTaken _ _ hfree | overtaken _ _ hfree => exact absurd (hfree.symm.trans hscl) nofun

namespace State

variable {s t u : State} {f : Freq}

/-! ### An OPEN that returns -/

/-- What is left by an OPEN that has returned (rule R127). -/
def OpenReturned (s : State) (f : Freq) (t : State) : Prop :=
  (t.status = .ok ∧ t.engExists = true ∧ t.hasScl = true ∧ t.hasSda = true ∧ t.freq = f ∧
    t.tx = s.tx ++ [s.cfg.opEnableI2c, computeDivisor s.cfg f]) ∨
  (t.status ≠ .ok ∧ t.engExists = s.engExists ∧ t.pinlock = s.pinlock ∧
    (t.status ≠ .errIo → t.tx = s.tx))

/-- The locks with both pins taken for the engine. -/
def bothTaken (s : State) : List PinLock :=
  (s.pinlock.set pinScl (.held .engine)).set pinSda (.held .engine)

/-- An OPEN that has pin 0 and was issued in `s`: what is the same at all its phases. -/
structure OpenGoing (s : State) (f : Freq) (u : State) : Prop where
  job_eq : u.job = .operation
  opsel_eq : u.opsel = .openEngine
  freqReq_eq : u.freqReq = f
  cfg_eq : u.cfg = s.cfg
  exists_eq : u.engExists = s.engExists
  scl : u.hasScl = true
  scl_was_free : s.pinlock[pinScl]? = some .free

/-- Before pin 1 is taken. -/
structure OpenAtSda (s : State) (f : Freq) (u : State) : Prop extends OpenGoing s f u where
  phase_eq : u.phase = .oAcqSda
  pins_eq : u.pinlock = s.pinlock.set pinScl (.held .engine)
  tx_eq : u.tx = s.tx
  outcome_eq : u.outcome = .ok

/-- With both pins. -/
structure OpenWithPins (s : State) (f : Freq) (u : State) : Prop extends OpenGoing s f u where
  sda_was_free : s.pinlock[pinSda]? = some .free
  pins_eq : u.pinlock = s.bothTaken
  sda : u.hasSda = true
  freq_eq : u.freq = f

/-- With both pins, before the enable frame. -/
structure OpenAtChannel (s : State) (f : Freq) (u : State) : Prop extends OpenWithPins s f u where
  phase_eq : u.phase = .oLock ∨ u.phase = .oEnable
  tx_eq : u.tx = s.tx
  outcome_eq : u.outcome = .ok

/-- With both pins, after the enable frame or a part of it. -/
structure OpenAtEnd (s : State) (f : Freq) (u : State) : Prop extends OpenWithPins s f u where
  phase_eq : u.phase = .unlock
  written : u.outcome = .ok → u.tx = s.tx ++ [s.cfg.opEnableI2c, computeDivisor s.cfg f]
  failed : u.outcome ≠ .ok → u.outcome = .errIo

/-- An OPEN that has pin 0, or has returned. -/
def OpenRun (s : State) (f : Freq) (u : State) : Prop :=
  s.OpenAtSda f u ∨ s.OpenAtChannel f u ∨ s.OpenAtEnd f u ∨ (u.phase = .idle ∧ s.OpenReturned f u)

theorem OpenGoing.setParked (h : s.OpenGoing f u) (e : Env) (p : Option Nat) :
    s.OpenGoing f ((u.setEnv e).setParked p) :=
  ⟨h.1, h.2, h.3, h.4, h.5, h.6, h.7⟩

theorem OpenGoing.withPins (h : s.OpenGoing f u) (l : List PinLock) (p : Option Nat) :
    s.OpenGoing f ((u.setPinlock l).setParked p) :=
  ⟨h.1, h.2, h.3, h.4, h.5, h.6, h.7⟩

theorem OpenGoing.withData (h : s.OpenGoing f u) (b : Bool) (g : Freq) :
    s.OpenGoing f ((u.setHasSda b).setFreq g) :=
  ⟨h.1, h.2, h.3, h.4, h.5, h.6, h.7⟩

theorem OpenGoing.setPhase (h : s.OpenGoing f u) (p : Phase) : s.OpenGoing f (u.setPhase p) :=
  ⟨h.1, h.2, h.3, h.4, h.5, h.6, h.7⟩

theorem OpenAtSda.seqStep (h : s.OpenAtSda f u) : s.OpenRun f u.seqStep.state := by
  have hstep := acqSdaStep_stepped h.phase_eq
  rw [seqStep_oAcqSda h.phase_eq]
  generalize u.acqSdaStep = r at hstep
  have hphase := h.phase_eq
  cases hstep with
  | stands e => exact .inl ⟨h.toOpenGoing.setParked e u.parked, hphase, h.pins_eq, h.tx_eq, h.outcome_eq⟩
  | parked i e =>
    exact .inl ⟨h.toOpenGoing.setParked e (some i), hphase, h.pins_eq, h.tx_eq, h.outcome_eq⟩
  | sdaTaken _ hfree =>
    have hwas : s.pinlock[pinSda]? = some .free := by
      rwa [h.pins_eq, List.getElem?_set_ne (by decide)] at hfree
    have hpins : u.pinlock.set pinSda (.held .engine) = s.bothTaken := by rw [h.pins_eq]; rfl
    have hgoing : s.OpenGoing f
        ((((u.setPin pinSda (.held .engine)).setParked none).setHasSda true).setFreq u.freqReq) := (h.toOpenGoing.withPins _ _).withData _ _
    refine .inr (.inl ⟨⟨hgoing.setPhase _, hwas, ?_, ?_, ?_⟩, ?_, ?_, ?_⟩)
    all_goals simp [Progress.state, setPin, hpins, h.freqReq_eq, h.tx_eq, h.outcome_eq]
  | sdaFailed st e _ hok hio =>
    have hpins : u.pinlock.set pinScl .free = s.pinlock := by
      rw [h.pins_eq, pinlock_taken_released h.scl_was_free]
    refine .inr (.inr (.inr ⟨rfl, .inr ?_⟩))
    simp [Progress.state, finish, releasePin, setPin, hok, hpins, h.exists_eq, h.tx_eq]
  | sclTaken hp | sclFailed _ _ hp | enableFailed _ _ hp | opened hp | openAborted hp
  | reported _ _ hp =>
    exact absurd (hphase.symm.trans hp) nofun
  | locked hp => rw [hphase] at hp; exact absurd hp (by simp [Phase.Locking])
  | wrote _ hl | writeFailed _ _ hl => rw [hphase] at hl; cases hl
  | received _ _ _ hp | receiveFailed _ _ _ _ hp => rw [hphase] at hp; exact absurd hp.locked nofun

theorem OpenAtChannel.seqStep (h : s.OpenAtChannel f u) : s.OpenRun f u.seqStep.state := by
  obtain ⟨⟨⟨h1, h2, h3, h4, h5, h6, h7⟩, hwas, hpins, hsda, hfreq⟩, hphase, htx, hout⟩ := h
  obtain hp | hp := hphase
  · have hstep : u.seqStep = u.lockStep := by simp [State.seqStep, hp]
    have hnext : u.phase.next u.cfg = .oEnable := by rw [hp]; rfl
    obtain ⟨-, he⟩ | ⟨-, he⟩ := u.lockStep_spec <;> rw [hstep, he]
    · exact .inr (.inl ⟨⟨⟨h1, h2, h3, h4, h5, h6, h7⟩, hwas, hpins, hsda, hfreq⟩, .inr hnext, htx, hout⟩)
    · exact .inr (.inl ⟨⟨⟨h1, h2, h3, h4, h5, h6, h7⟩, hwas, hpins, hsda, hfreq⟩, .inl hp, htx, hout⟩)
  · have hstep : u.seqStep = afterWrite abortIo (u.chSend u.phaseBytes) := by
      simp [seqStep_writes (s := u) (by simp [Phase.Writes, hp]), hp]
    have hbytes : u.phaseBytes = [s.cfg.opEnableI2c, computeDivisor s.cfg f] := by
      simp [phaseBytes, hp, enableFrame, div, h4, hfreq]
    have hnext : u.phase.next u.cfg = .unlock := by rw [hp]; rfl
    obtain ⟨e, he | ⟨p, -, he⟩⟩ := u.afterWrite_spec abortIo u.phaseBytes <;> rw [hstep, he]
    · exact .inr (.inr (.inl ⟨⟨⟨h1, h2, h3, h4, h5, h6, h7⟩, hwas, hpins, hsda, hfreq⟩, hnext,
        fun _ => by rw [← hbytes, ← htx]; rfl, fun hne => absurd hout hne⟩))
    · exact .inr (.inr (.inl ⟨⟨⟨h1, h2, h3, h4, h5, h6, h7⟩, hwas, hpins, hsda, hfreq⟩, rfl,
        fun hok => absurd hok nofun, fun _ => rfl⟩))

/-- Both pins released are as they were. -/
theorem bothTaken_released (hscl : s.pinlock[pinScl]? = some .free)
    (hsda : s.pinlock[pinSda]? = some .free) :
    (s.bothTaken.set pinSda .free).set pinScl .free = s.pinlock := by
  have hsda' : (s.pinlock.set pinScl (.held .engine))[pinSda]? = some .free := by
    rwa [List.getElem?_set_ne (by decide)]
  have hback := pinlock_taken_released (s := s.setPinlock (s.pinlock.set pinScl (.held .engine)))
    hsda' (.held .engine)
  rw [setPinlock_pinlock] at hback
  rw [bothTaken, hback, pinlock_taken_released hscl]

theorem OpenAtEnd.seqStep (h : s.OpenAtEnd f u) : s.OpenRun f u.seqStep.state := by
  have hstep : u.seqStep = .moved u.releaseChannel.endJob := by simp [State.seqStep, h.phase_eq]
  have hend : u.releaseChannel.endJob = u.releaseChannel.endOpen := by
    simp [endJob, endOperation, releaseChannel, h.job_eq, h.opsel_eq]
  rw [hstep, hend, Progress.state]
  obtain ⟨hok, he⟩ | ⟨hne, he⟩ := u.releaseChannel.endOpen_spec <;> rw [he]
  · refine .inr (.inr (.inr ⟨rfl, .inl ?_⟩))
    simp [finish, releaseChannel, h.scl, h.sda, h.freq_eq, h.written hok]
  · have hio : u.outcome = .errIo := h.failed hne
    have hpins : (u.pinlock.set pinSda .free).set pinScl .free = s.pinlock := by
      rw [h.pins_eq, bothTaken_released h.scl_was_free h.sda_was_free]
    refine .inr (.inr (.inr ⟨rfl, .inr ?_⟩))
    simp [finish, releaseChannel, releasePin, setPin, hio, hpins, h.exists_eq]

theorem OpenRun.seqStep (h : s.OpenRun f u) : s.OpenRun f u.seqStep.state := by
  obtain h | h | h | h := h
  · exact h.seqStep
  · exact h.seqStep
  · exact h.seqStep
  · rw [seqStep_idle h.1]; exact .inr (.inr (.inr h))

theorem OpenRun.setEnv (h : s.OpenRun f u) (e : Env) : s.OpenRun f (u.setEnv e) := by
  have hgoing : s.OpenGoing f u → s.OpenGoing f (u.setEnv e) := fun h =>
    ⟨h.1, h.2, h.3, h.4, h.5, h.6, h.7⟩
  have hpins : s.OpenWithPins f u → s.OpenWithPins f (u.setEnv e) := fun h =>
    ⟨hgoing h.toOpenGoing, h.2, h.3, h.4, h.5⟩
  obtain h | h | h | h := h
  · exact .inl ⟨hgoing h.toOpenGoing, h.2, h.3, h.4, h.5⟩
  · exact .inr (.inl ⟨hpins h.toOpenWithPins, h.2, h.3, h.4⟩)
  · exact .inr (.inr (.inl ⟨hpins h.toOpenWithPins, h.2, h.3, h.4⟩))
  · exact .inr (.inr (.inr h))

/-- An OPEN that has pin 0 and whose turn is over has returned as rule R127 says, or is not idle. -/
theorem clockTaken_run (hfree : s.pinlock[pinScl]? = some .free) :
    s.OpenRun f (s.clockTaken f).runSequencer :=
  runSequencer_induct (fun _ e h => h.setEnv e) (fun _ h => h.seqStep) _
    (.inl ⟨⟨rfl, rfl, rfl, rfl, rfl, rfl, hfree⟩, rfl, rfl, rfl, rfl⟩)

theorem OpenRun.returned (h : s.OpenRun f u) (hidle : u.phase = .idle) : s.OpenReturned f u := by
  obtain h | h | h | h := h
  · exact absurd (h.phase_eq.symm.trans hidle) nofun
  · obtain hp | hp := h.phase_eq <;> exact absurd (hp.symm.trans hidle) nofun
  · exact absurd (h.phase_eq.symm.trans hidle) nofun
  · exact h.2

end State

/-- Settles O29: an OPEN that returns at once reports an error, or has got pin 0 and has run to its
end. -/
theorem openIsSafe : Obligations.OpenIsSafe := by
  intro s t f hp hexec hidle hwaiting
  show s.OpenReturned f t
  cases exec_effect hexec with
  | waits => simp at hwaiting
  | framed _ _ _ _ _ hspace => cases hspace
  | reported _ _ _ hok => exact .inr ⟨hok, rfl, rfl, fun _ => rfl⟩
  | openFailed _ _ _ _ hok => exact .inr ⟨hok, rfl, rfl, fun _ => rfl⟩
  | openStands => cases hidle
  | began hb =>
    cases hb with
    | clockTaken _ _ hfree => exact (State.clockTaken_run hfree).returned hidle
    | overtaken _ hscl => exact absurd (hp.symm.trans hscl) nofun

end Sys2Proof.Machine
end

section
/-! PROOFS. A held pin stays with its holder or is released (rules R52 to R54), and only its holder
releases it, so a thread that is blocked on a pin of its own never proceeds (rules R120, R224). -/

namespace Sys2Proof.Machine

namespace State

variable {s t u : State} {j th : Nat} {o : PinOwner}

/-! ### Nobody else is granted a held pin -/

/-- Pin `j` is still `o`'s, or is free or POISONED. -/
def NotRegranted (j : Nat) (o : PinOwner) (s : State) : Prop :=
  s.pinlock[j]? = some (.held o) ∨ s.pinlock[j]? = some .free ∨ s.pinlock[j]? = some .poisoned

theorem setPin_other_held {i : Nat} (hi : s.pinlock[i]? = some .free)
    (hj : s.pinlock[j]? = some (.held o)) (l : PinLock) :
    (s.setPin i l).pinlock[j]? = some (.held o) := by
  have hij : i ≠ j := by rintro rfl; exact absurd (hi.symm.trans hj) nofun
  rw [setPin_other hij, hj]

/-- A release frees the pin, or it is another one. -/
theorem releasePin_held_or_free (i : Nat)
    (hj : s.pinlock[j]? = some (.held o) ∨ s.pinlock[j]? = some .free) :
    (s.releasePin i).pinlock[j]? = some (.held o) ∨ (s.releasePin i).pinlock[j]? = some .free := by
  have hread : (s.releasePin i).pinlock[j]? = (s.setPin i .free).pinlock[j]? := rfl
  rw [hread, setPin_read]
  split
  · exact .inr rfl
  · exact hj

/-- During a turn of the sequencer a held pin stays held, or is free and the sequencer idle. -/
theorem seqStep_pin (h : s.pinlock[j]? = some (.held o)) :
    s.seqStep.state.pinlock[j]? = some (.held o) ∨
      (s.seqStep.state.phase = .idle ∧ s.seqStep.state.pinlock[j]? = some .free) := by
  have hstep := s.seqStep_stepped
  generalize s.seqStep = r at hstep
  cases hstep with
  | sclTaken _ hfree | sdaTaken _ hfree => exact .inl (setPin_other_held hfree h _)
  | sdaFailed st e =>
    have hrel := releasePin_held_or_free pinScl (s := (s.setEnv e).setParked none) (.inl h)
    exact hrel.imp_right fun hfree => ⟨rfl, hfree⟩
  | openAborted =>
    have hsda := releasePin_held_or_free pinSda (s := s.releaseChannel) (.inl h)
    exact (releasePin_held_or_free pinScl hsda).imp_right fun hfree => ⟨rfl, hfree⟩
  | _ => exact .inl (by simpa [Progress.state, finish, releaseChannel, abort, raise] using h)

theorem runSequencer_pin (h : s.pinlock[j]? = some (.held o)) : s.runSequencer.NotRegranted j o := by
  have hrun := runSequencer_induct
    (P := fun u => u.pinlock[j]? = some (.held o) ∨ (u.phase = .idle ∧ u.pinlock[j]? = some .free))
    (fun _ _ hu => hu) (fun u hu => ?_) s (.inl h)
  · exact hrun.imp_right fun hfree => .inl hfree.2
  · obtain hu | hu := hu
    · exact seqStep_pin hu
    · rw [seqStep_idle hu.1]; exact .inr hu

theorem runCloser_pin (h : s.pinlock[j]? = some (.held o)) : s.runCloser.NotRegranted j o := by
  have hrun := runCloser_induct
    (P := fun u => u.pinlock[j]? = some (.held o) ∨ u.pinlock[j]? = some .free)
    (fun _ _ hu => hu) (fun u hu => ?_) s (.inl h)
  · exact hrun.imp_right .inl
  · obtain ⟨-, he⟩ | ⟨i, -, he⟩ | ⟨i, k, rest, -, he⟩ := u.closeStep_spec <;> rw [he]
    · exact hu
    · exact releasePin_held_or_free i hu
    · exact releasePin_held_or_free i hu

/-- CLOSE begins with no lock and no waiting call changed. -/
theorem beginClose_frame (s : State) : s.beginClose.pinlock = s.pinlock ∧
    s.beginClose.waiting = s.waiting ∧ s.beginClose.parked = s.parked ∧
    s.beginClose.phase = s.phase ∧ s.beginClose.opThread = s.opThread := by
  obtain ⟨e, o, he⟩ := s.beginClose_spec
  simp [he]

theorem begun_pin {i : Instr} (hb : Begun s i t) (h : s.pinlock[j]? = some (.held o)) :
    t.pinlock[j]? = some (.held o) := by
  cases hb with
  | clockTaken _ _ hfree | overtaken _ _ hfree => exact setPin_other_held hfree h _
  | _ => exact h

theorem effect_pin {i : Instr} (he : Effect s i t) (h : s.pinlock[j]? = some (.held o)) :
    t.NotRegranted j o := by
  cases he with
  | pinTaken k hfree => exact .inl (setPin_other_held hfree h _)
  | pinFreed k => exact (releasePin_held_or_free k (.inl h)).imp_right .inl
  | began hb => exact runSequencer_pin (begun_pin hb h)
  | closed =>
    obtain ⟨hpins, -⟩ := s.beginClose_frame
    exact runCloser_pin (hpins ▸ h)
  | waits | framed | reported | divided | openFailed | openStands =>
    rw [NotRegranted]
    left
    simpa [reply] using h

theorem outside_pin (ho : Outside s t) (h : s.pinlock[j]? = some (.held o)) : t.NotRegranted j o := by
  cases ho with
  | pinTaken i hfree => exact .inl (setPin_other_held hfree h _)
  | pinFreed i => exact (releasePin_held_or_free i (.inl h)).imp_right .inl
  | poisoned i =>
    rw [NotRegranted, setPin_read]
    split
    · exact .inr (.inr rfl)
    · exact .inl h
  | _ => exact .inl h

end State

theorem step_pin {s t : State} {j : Nat} {o : PinOwner} (hstep : step s = .next t)
    (h : s.pinlock[j]? = some (.held o)) : t.NotRegranted j o := by
  obtain ⟨e, ⟨th, c, rest, i, more, -, -, -, hexec⟩ | ⟨k, w, -, -, hexec⟩ | rfl | rfl | rfl |
    ⟨m, rfl⟩⟩ := step_cases hstep
  · exact State.effect_pin (exec_effect hexec) h
  · exact State.effect_pin (exec_effect hexec) h
  · exact .inl h
  · exact State.runSequencer_pin (s := s.setEnv e) h
  · exact State.runCloser_pin (s := s.setEnv e) h
  · exact State.outside_pin (s := s.setEnv e) (applyEnv_outside m _) h

/-! ### Only its holder releases it -/

namespace State

variable {s t u : State} {j th : Nat}

/-- From `s` on thread `th` has kept pin `j`: those that were blocked on it are blocked on it still. -/
structure Kept (j th : Nat) (s u : State) : Prop where
  inv : u.Inv
  pin : u.pinlock[j]? = some (.held (.host th))
  blocked : ∀ w ∈ s.waiting, w.blockedOn = some j → w ∈ u.waiting
  parked : s.parked = some j → u.phase = s.phase ∧ u.parked = some j ∧ u.opThread = s.opThread

/-- A change that leaves pin `j`, those blocked on it, and an OPEN in progress that is blocked on it. -/
theorem Kept.update {v : State} (h : s.Kept j th u) (hinv : v.Inv)
    (hpin : v.pinlock[j]? = u.pinlock[j]?)
    (hline : ∀ w ∈ u.waiting, w.blockedOn = some j → w ∈ v.waiting)
    (hparked : u.parked = some j →
      v.phase = u.phase ∧ v.parked = some j ∧ v.opThread = u.opThread) : s.Kept j th v where
  inv := hinv
  pin := hpin.trans h.pin
  blocked w hw hon := hline w (h.blocked w hw hon) hon
  parked hs := by
    obtain ⟨hphase, hpark, hthread⟩ := h.parked hs
    obtain ⟨hphase', hpark', hthread'⟩ := hparked hpark
    exact ⟨hphase'.trans hphase, hpark', hthread'.trans hthread⟩

theorem Kept.refl (h : s.Inv) (hpin : s.pinlock[j]? = some (.held (.host th))) : s.Kept j th s :=
  ⟨h, hpin, fun _ hw _ => hw, fun hp => ⟨rfl, hp, rfl⟩⟩

theorem Kept.setEnv (h : s.Kept j th u) (e : Env) : s.Kept j th (u.setEnv e) :=
  h.update (h.inv.setEnv e) rfl (fun _ hw _ => hw) fun hp => ⟨rfl, hp, rfl⟩

/-- The mark of an attempt on pin `j` is kept by a release of another pin. -/
theorem unmark_other {i : Nat} (hij : i ≠ j) : unmark i (some j) = some j := by
  simp [unmark, hij.symm]

/-- The release of another pin leaves those that are blocked on pin `j` blocked. -/
theorem mem_wake {i : Nat} (hij : i ≠ j) {w : Waiter} (hw : w ∈ u.waiting) (hon : w.blockedOn = some j) :
    w ∈ (u.wake i).waiting := by
  refine List.mem_map.2 ⟨w, hw, ?_⟩
  rw [hon, unmark_other hij, ← hon]

/-- An OPEN in progress that is blocked on a held pin has no step (rule R52). -/
theorem seqStep_parked (h : u.Inv) (hp : u.parked = some j) (hpin : u.IsHeld j) :
    u.seqStep = .waits u := by
  obtain ⟨o, ho⟩ := hpin
  have hb : u.stillBlocked u.parked = true := by simp [stillBlocked, hp, pinHeld, ho]
  obtain ⟨hphase, -⟩ | ⟨hphase, -⟩ := h.waits.parked_phase j hp
  · simp [seqStep_oAcqScl hphase, acqSclStep, acquireStep, hb]
  · simp [seqStep_oAcqSda hphase, acqSdaStep, acquireStep, hb]

/-- Pin `j` is not the engine's where a thread holds it. -/
theorem Kept.ne_of_engine (h : s.Kept j th u) {i : Nat} (hi : u.pinlock[i]? = engineHeld) : i ≠ j := by
  rintro rfl
  exact absurd (hi.symm.trans h.pin) (by simp)

theorem Kept.ne_of_free (h : s.Kept j th u) {i : Nat} (hi : u.pinlock[i]? = some .free) : i ≠ j := by
  rintro rfl
  exact absurd (hi.symm.trans h.pin) nofun

/-- A pin that an OPEN in progress releases is the engine's, so not `j`. -/
theorem Kept.opening_pins (h : s.Kept j th u) (hopen : u.opening) (hscl : u.phase ≠ .oAcqScl) :
    pinScl ≠ j ∧ (u.phase ≠ .oAcqSda → pinSda ≠ j) := by
  have how := h.inv.ownership
  rw [Ownership, if_pos hopen] at how
  obtain ⟨-, hhasScl, hhasSda⟩ := how
  exact ⟨h.ne_of_engine (h.inv.pins.scl_held (by simp [hhasScl, hscl])),
    fun hsda => h.ne_of_engine (h.inv.pins.sda_held (by simp [hhasSda, hscl, hsda]))⟩

theorem Kept.seqStep (h : s.Kept j th u) : s.Kept j th u.seqStep.state := by
  by_cases hp : u.parked = some j
  · rw [seqStep_parked h.inv hp ⟨_, h.pin⟩]
    exact h
  have hinv := seqStep_keeps_inv h.inv
  have hstep := u.seqStep_stepped
  generalize u.seqStep = r at hstep hinv
  refine h.update hinv ?pin ?line (fun hpark => absurd hpark hp)
  case pin =>
    cases hstep with
    | sclTaken _ hfree | sdaTaken _ hfree => exact setPin_other (h.ne_of_free hfree) _
    | sdaFailed _ _ hphase =>
      obtain ⟨hscl, -⟩ := h.opening_pins (h.inv.opening_of_phase (by rw [hphase]; rfl))
        (by simp [hphase])
      simp [Progress.state, finish, releasePin, setPin, hscl]
    | openAborted hphase hjob hop =>
      obtain ⟨hscl, hsda⟩ := h.opening_pins ⟨by simp [hphase], hjob, hop⟩ (by simp [hphase])
      simp [Progress.state, finish, releaseChannel, releasePin, setPin, hscl, hsda (by simp [hphase])]
    | _ => simp [Progress.state, finish, releaseChannel, abort, raise]
  case line =>
    intro w hw hon
    cases hstep with
    | sdaFailed _ _ hphase =>
      obtain ⟨hscl, -⟩ := h.opening_pins (h.inv.opening_of_phase (by rw [hphase]; rfl))
        (by simp [hphase])
      simpa [Progress.state, finish, releasePin, setPin] using mem_wake hscl hw hon
    | openAborted hphase hjob hop =>
      obtain ⟨hscl, hsda⟩ := h.opening_pins ⟨by simp [hphase], hjob, hop⟩ (by simp [hphase])
      have hkeep := mem_wake hscl (mem_wake (hsda (by simp [hphase])) hw hon) hon
      simpa [Progress.state, finish, releaseChannel, releasePin, setPin] using hkeep
    | _ => simpa [Progress.state, finish, releaseChannel, abort, raise, setPin] using hw

theorem Kept.runSequencer (h : s.Kept j th u) : s.Kept j th u.runSequencer :=
  runSequencer_induct (fun _ e hu => hu.setEnv e) (fun _ hu => hu.seqStep) u h

@[simp] theorem releasePin_phase (i : Nat) : (u.releasePin i).phase = u.phase := rfl
@[simp] theorem releasePin_opThread (i : Nat) : (u.releasePin i).opThread = u.opThread := rfl

/-- The release of another pin. -/
theorem Kept.released {v : State} (h : s.Kept j th u) {i : Nat} (hij : i ≠ j) (hinv : v.Inv)
    (hpin : v.pinlock = (u.releasePin i).pinlock) (hwaiting : v.waiting = (u.releasePin i).waiting)
    (hparked : v.parked = (u.releasePin i).parked) (hphase : v.phase = u.phase)
    (hthread : v.opThread = u.opThread) : s.Kept j th v := by
  refine h.update hinv ?_ (fun w hw hon => ?_) fun hp => ⟨hphase, ?_, hthread⟩
  · rw [hpin]; exact setPin_other hij _
  · rw [hwaiting]; exact mem_wake hij hw hon
  · rw [hparked]
    show unmark i u.parked = some j
    rw [hp, unmark_other hij]

theorem Kept.closeStep (h : s.Kept j th u) : s.Kept j th u.closeStep := by
  have hinv := closeStep_keeps_inv h.inv
  have hne : ∀ {i}, i ∈ u.closing → i ≠ j := fun hi => h.ne_of_engine (h.inv.pins.closing_held _ hi)
  obtain ⟨-, he⟩ | ⟨i, hc, he⟩ | ⟨i, k, rest, hc, he⟩ := u.closeStep_spec <;> rw [he] at hinv ⊢
  · exact h
  · exact h.released (i := i) (hne (by simp [hc])) hinv (by simp) (by simp) (by simp) (by simp) (by simp)
  · exact h.released (i := i) (hne (by simp [hc])) hinv (by simp) (by simp) (by simp) (by simp) (by simp)

theorem Kept.runCloser (h : s.Kept j th u) : s.Kept j th u.runCloser :=
  runCloser_induct (fun _ e hu => hu.setEnv e) (fun _ hu => hu.closeStep) u h

/-- An idle sequencer has no OPEN in progress. -/
theorem Kept.not_parked_idle (h : s.Kept j th u) (hp : u.phase = .idle) : u.parked ≠ some j := by
  rw [h.inv.not_parked (by simp [hp]) (by simp [hp])]
  nofun

theorem Kept.begun (h : s.Kept j th u) (hcaller : u.caller ∉ u.inCall) {i : Instr} {v : State}
    (hb : Begun u i v) : s.Kept j th v := by
  have hinv := h.inv.begun hcaller hb
  cases hb with
  | send _ _ _ _ _ hp | read _ _ _ _ _ hp | transfer _ _ _ _ _ _ _ hp | reply _ hp =>
    exact h.update hinv (by simp) (fun _ hw _ => hw) fun hpark => absurd hpark (h.not_parked_idle hp)
  | clockTaken f hp hfree =>
    exact h.update hinv (setPin_other (h.ne_of_free hfree) _) (fun _ hw _ => hw)
      fun hpark => absurd hpark (h.not_parked_idle hp)
  | overtaken f hp hfree =>
    refine h.update hinv (setPin_other (h.ne_of_free hfree) _)
      (fun _ hw _ => List.mem_append_left _ hw) fun hpark => ?_
    obtain ⟨-, rfl⟩ | ⟨hsda, -⟩ := h.inv.waits.parked_phase j hpark
    · exact absurd rfl (h.ne_of_free hfree)
    · exact absurd (hp.symm.trans hsda) nofun

/-- A call leaves pin `j`, unless it is `th`'s own PIN_RELEASE. -/
theorem Kept.effect (h : s.Kept j th u) (hcaller : u.caller ∉ u.inCall) {i : Instr}
    (hi : ∀ k, i = .pinRelease k → u.caller ≠ th) (he : Effect u i t) : s.Kept j th t := by
  have hinv := h.inv.effect hcaller he
  cases he with
  | waits =>
    exact h.update hinv (by simp) (fun _ hw _ => List.mem_append_left _ hw) fun hp => ⟨rfl, hp, rfl⟩
  | framed | reported | divided =>
    exact h.update hinv (by simp [reply]) (fun _ hw _ => hw) fun hp => by simp [reply, hp]
  | pinTaken k hfree =>
    exact h.update hinv (setPin_other (h.ne_of_free hfree) _) (fun _ hw _ => hw) fun hp => ⟨rfl, hp, rfl⟩
  | pinFreed k hheld =>
    have hkj : k ≠ j := by
      rintro rfl
      have hsame := hheld.symm.trans h.pin
      simp only [Option.some.injEq, PinLock.held.injEq, PinOwner.host.injEq] at hsame
      exact hi k rfl hsame
    exact h.released hkj hinv (by simp [reply]) (by simp [reply]) (by simp [reply]) (by simp [reply])
      (by simp [reply])
  | openFailed f e st hp =>
    exact h.update hinv (by simp [reply]) (fun _ hw _ => hw)
      fun hpark => absurd hpark (h.not_parked_idle hp)
  | openStands f e hp =>
    exact h.update hinv (by simp) (fun _ hw _ => hw) fun hpark => absurd hpark (h.not_parked_idle hp)
  | began hb => exact (h.begun hcaller hb).runSequencer
  | closed hx hp =>
    obtain ⟨hpins, hwaiting, hparked, hphase, hthread⟩ := u.beginClose_frame
    exact (h.update (h.inv.beginClose hx hp hcaller) (by rw [hpins]) (fun w hw _ => hwaiting ▸ hw)
      fun hpark => ⟨hphase, hparked.trans hpark, hthread⟩).runCloser

theorem Kept.outside (h : s.Kept j th u) (hth : th ∈ u.inCall) (ho : Outside u t) : s.Kept j th t := by
  have hinv := h.inv.outside ho
  cases ho with
  | idle => exact h
  | received | locked | wrote | unlocked =>
    exact h.update hinv (by simp) (fun _ hw _ => hw) fun hp => by simp [hp]
  | pinTaken i hfree =>
    exact h.update hinv (setPin_other (h.ne_of_free hfree) _) (fun _ hw _ => hw) fun hp => ⟨rfl, hp, rfl⟩
  | pinFreed i hother =>
    refine h.released (i := i) ?_ hinv rfl rfl rfl rfl rfl
    rintro rfl
    exact absurd (hother.symm.trans h.pin) (by simp)
  | poisoned i hfail =>
    have hij : i ≠ j := by
      rintro rfl
      obtain hother | ⟨t', hhost, hnot⟩ := mayFail_iff.1 hfail
      · exact absurd (hother.symm.trans h.pin) (by simp)
      · have hsame := hhost.symm.trans h.pin
        simp only [Option.some.injEq, PinLock.held.injEq, PinOwner.host.injEq] at hsame
        exact hnot (hsame ▸ hth)
    exact h.update hinv (setPin_other hij _) (fun _ hw _ => hw) fun hp => ⟨rfl, hp, rfl⟩

/-- A thread that tries its call again was not blocked on a held pin: those that are stay in the line. -/
theorem mem_eraseIdx_of_blocked {k : Nat} {v w : Waiter} (hk : s.waiting[k]? = some v)
    (hv : s.stillBlocked v.blockedOn = false) (hw : w ∈ s.waiting) (hon : w.blockedOn = some j)
    (hpin : s.IsHeld j) : w ∈ s.waiting.eraseIdx k := by
  obtain ⟨i, hi⟩ := List.mem_iff_getElem?.1 hw
  refine List.mem_eraseIdx_iff_getElem?.2 ⟨i, ?_, hi⟩
  rintro rfl
  obtain rfl : v = w := Option.some.inj (hk.symm.trans hi)
  obtain ⟨o, ho⟩ := hpin
  simp [hon, stillBlocked, pinHeld, ho] at hv

end State

/-- While thread `th` is inside a call, its pin stays its own, and those blocked on it stay so. -/
theorem step_kept {s t : State} {j th : Nat} (hstep : step s = .next t) (h : s.Inv)
    (hth : th ∈ s.inCall) (hpin : s.pinlock[j]? = some (.held (.host th))) : s.Kept j th t := by
  have hkept := State.Kept.refl h hpin
  obtain ⟨e, ⟨th', c, rest, i, more, hin, -, -, hexec⟩ | ⟨k, w, hk, hb, hexec⟩ | rfl | rfl | rfl |
    ⟨m, rfl⟩⟩ := step_cases hstep
  · have hready : s.Kept j th (((s.setEnv e).setCalls rest).setCaller th') :=
      hkept.update (h.of_control (by simp)) (by simp) (fun _ hw _ => hw) fun hp => by simp [hp]
    exact hready.effect hin (fun _ _ hsame => hin ((show th' = th from hsame) ▸ hth)) (exec_effect hexec)
  · obtain ⟨htaken, hout⟩ := h.takeWaiter hk
    have hready : s.Kept j th (((s.setEnv e).setWaiting (s.waiting.eraseIdx k)).setCaller w.thread) :=
      hkept.update (htaken.of_control (by simp)) (by simp)
        (fun _ hw hon => State.mem_eraseIdx_of_blocked hk hb hw hon ⟨_, hpin⟩) fun hp => by simp [hp]
    have hcall := h.waits.waiting_calls w (List.mem_of_getElem? hk)
    exact hready.effect hout (fun _ hi => by rw [hi] at hcall; cases hcall) (exec_effect hexec)
  · exact hkept.setEnv e
  · exact (hkept.setEnv e).runSequencer
  · exact (hkept.setEnv e).runCloser
  · exact (hkept.setEnv e).outside hth (applyEnv_outside m _)

/-- Settles O23: no step regrants a held pin; and a thread that waits, or whose OPEN is in progress, is
inside a call, so its own pin is kept, and those blocked on it with it. -/
theorem heldPinsAreNeverGranted : Obligations.HeldPinsAreNeverGranted := by
  intro s t j hstep
  refine ⟨fun o ho => step_pin hstep ho, fun th h hth hpin => (step_kept hstep h hth hpin).pin,
    fun w h hw hon hpin => ?line, fun h hparked hpin => ?parked⟩
  case line =>
    have hth : w.thread ∈ s.inCall :=
      List.mem_append_right _ (List.mem_append_right _ (List.mem_map_of_mem hw))
    exact (step_kept hstep h hth hpin).blocked w hw hon
  case parked =>
    have hbusy : s.phase ≠ .idle := by
      obtain ⟨hp, -⟩ | ⟨hp, -⟩ := h.waits.parked_phase j hparked <;> simp [hp]
    have hth : s.opThread ∈ s.inCall := List.mem_append_left _ (by simp [hbusy])
    exact (step_kept hstep h hth hpin).parked hparked

end Sys2Proof.Machine
end

section
/-! PROOFS. Turns of the sequencer whose course is known, because the environment's choices are: SEND,
READ and TRANSFER from the call to the report (rules R152 to R154, R160), and a bare DATA reply (rule
R109). First the chain of steps, then the stretches the operations share, then the statements. -/

namespace Sys2Proof.Machine

namespace State

variable {s t u : State} {n m k : Nat} {bs : List Nat}

/-! ### A chain of steps, and the turn that performs it -/

/-- `n` steps of the sequencer lead from one state to another, and none of them has to wait. -/
inductive Steps : Nat → State → State → Prop
  | done (s : State) : Steps 0 s s
  | step {n : Nat} {s t u : State} : s.seqStep = .moved t → Steps n t u → Steps (n + 1) s u

theorem Steps.one (h : s.seqStep = .moved t) : Steps 1 s t := .step h (.done t)

theorem Steps.seqRun (h : Steps n s t) (m : Nat) : seqRun (n + m) s = seqRun m t := by
  induction h with
  | done s => rw [Nat.zero_add]
  | step hstep _ ih => rw [Nat.add_right_comm, seqRun_moved _ hstep, ih]

theorem Steps.trans (h : Steps n s t) (h' : Steps m t u) : Steps (n + m) s u := by
  induction h with
  | done s => rwa [Nat.zero_add]
  | step hstep _ ih => exact Nat.add_right_comm _ _ _ ▸ .step hstep (ih h')

theorem runSequencer_burst (hp : s.phase ≠ .idle) (hbursts : s.env.bursts = k :: bs) :
    s.runSequencer = State.seqRun k (s.setEnv { s.env with bursts := bs }) := by
  rw [runSequencer, if_neg hp, s.drawBurst_known hbursts]

/-- A turn that is long enough ends with what the sequencer works for. -/
theorem runSequencer_of_steps (hp : s.phase ≠ .idle) (hbursts : s.env.bursts = k :: bs)
    (h : Steps n (s.setEnv { s.env with bursts := bs }) t) (hn : n ≤ k) (ht : t.phase = .idle) :
    s.runSequencer = t := by
  obtain ⟨m, rfl⟩ := Nat.exists_eq_add_of_le hn
  rw [runSequencer_burst hp hbursts, h.seqRun, seqRun_idle m ht]

/-- A turn ends before its length at a step that has to wait. -/
theorem runSequencer_of_waits (hp : s.phase ≠ .idle) (hbursts : s.env.bursts = k :: bs)
    (h : Steps n (s.setEnv { s.env with bursts := bs }) t) (ht : t.seqStep = .waits u) (hn : n < k) :
    s.runSequencer = u := by
  obtain ⟨m, rfl⟩ := Nat.exists_eq_add_of_lt hn
  rw [runSequencer_burst hp hbursts, Nat.add_assoc, h.seqRun, seqRun_waits m ht]

/-! ### The critical section -/

/-- The state at phase `p` of a critical section, with `tx` on TX and the outcomes `ss` of the writes to
come; the rest is that of `s`. -/
def writing (s : State) (p : Phase) (tx : List Byte) (ss : List SendOutcome) : State :=
  ((s.setEnv { s.env with sends := ss }).setTx tx).setPhase p

theorem phaseBytes_writing (s : State) (p : Phase) (tx : List Byte) (ss : List SendOutcome) :
    (s.writing p tx ss).phaseBytes = (s.setPhase p).phaseBytes := by
  cases p <;> rfl

variable {tx b : List Byte} {ss : List SendOutcome}

/-- The sequencer takes a free Channel lock (rule R55). -/
theorem seqStep_locks (p q : Phase) (hp : s.phase = p) (hl : p.Locking) (hq : p.next s.cfg = q)
    (hfree : s.chlock = .free) (hsends : s.env.sends = ss) :
    s.seqStep = .moved ((s.setChlock (.held .sequencer)).writing q s.tx ss) := by
  subst hp hq hsends
  have hstep : s.seqStep = s.lockStep := by
    obtain hp | hp | hp | hp := hl <;> simp [seqStep, hp]
  rw [hstep, lockStep, hfree]
  rfl

/-- A write that succeeds puts the phase's bytes on TX. -/
theorem seqStep_wrote (p q : Phase) (hp : p.Writes) (hq : p.next s.cfg = q)
    (hb : (s.setPhase p).phaseBytes = b) :
    (s.writing p tx (.ok :: ss)).seqStep = .moved (s.writing q (tx ++ b) ss) := by
  subst hq hb
  rw [seqStep_writes hp, afterWrite_ok rfl, phaseBytes_writing]
  rfl

/-- The step at `UNLOCK` frees the Channel lock and ends the job. -/
theorem seqStep_unlocks (hp : s.phase = .unlock) : s.seqStep = .moved s.releaseChannel.endJob := by
  simp [seqStep, hp]

/-! ### The bytes of the operations -/

/-- SEND's four frames (rule R152). -/
theorem sendWritten (s : State) (tx : List Byte) (ss : List SendOutcome) :
    Steps 4 (s.writing .sStart tx (.ok :: .ok :: .ok :: .ok :: ss))
      (s.writing .unlock (tx ++ startFrame s.cfg s.addr .write ++ txFrame s.cfg s.wlen ++ s.dataRun ++
        stopFrame s.cfg) ss) :=
  .step (seqStep_wrote .sStart .sTxhdr (by simp [Phase.Writes]) rfl rfl) <|
  .step (seqStep_wrote .sTxhdr .sData (by simp [Phase.Writes]) rfl rfl) <|
  .step (seqStep_wrote .sData .sStop (by simp [Phase.Writes]) rfl rfl) <|
  .one (seqStep_wrote .sStop .unlock (by simp [Phase.Writes]) rfl rfl)

/-- READ's three frames (rule R153). -/
theorem readWritten (s : State) (tx : List Byte) (ss : List SendOutcome) :
    Steps 3 (s.writing .rStart tx (.ok :: .ok :: .ok :: ss))
      (s.writing .rTag (tx ++ startFrame s.cfg s.addr .read ++ rxFrame s.cfg s.rlen ++
        stopFrame s.cfg) ss) :=
  .step (seqStep_wrote .rStart .rRxhdr (by simp [Phase.Writes]) rfl rfl) <|
  .step (seqStep_wrote .rRxhdr .rStop (by simp [Phase.Writes]) rfl rfl) <|
  .one (seqStep_wrote .rStop .rTag (by simp [Phase.Writes]) rfl rfl)

/-- The second half of TRANSFER's frames (rule R154). -/
theorem transferReadWritten (s : State) (tx : List Byte) (ss : List SendOutcome) :
    Steps 3 (s.writing .tStart2 tx (.ok :: .ok :: .ok :: ss))
      (s.writing .tTag (tx ++ startFrame s.cfg s.addr .read ++ rxFrame s.cfg s.rlen ++
        stopFrame s.cfg) ss) :=
  .step (seqStep_wrote .tStart2 .tRxhdr (by simp [Phase.Writes]) rfl rfl) <|
  .step (seqStep_wrote .tRxhdr .tStop (by simp [Phase.Writes]) rfl rfl) <|
  .one (seqStep_wrote .tStop .tTag (by simp [Phase.Writes]) rfl rfl)

/-- TRANSFER's frames without a data phase (rule R154). -/
theorem transferWritten_absent (hdata : s.cfg.xferDataPhase = .absent) (tx : List Byte)
    (ss : List SendOutcome) :
    Steps 5 (s.writing .tStart1 tx (.ok :: .ok :: .ok :: .ok :: .ok :: ss))
      (s.writing .tTag (tx ++ startFrame s.cfg s.addr s.cfg.xferFirstDir ++ txFrame s.cfg s.wlen ++
        startFrame s.cfg s.addr .read ++ rxFrame s.cfg s.rlen ++ stopFrame s.cfg) ss) :=
  .step (seqStep_wrote .tStart1 .tTxhdr (by simp [Phase.Writes]) rfl rfl) <|
  .step (seqStep_wrote .tTxhdr .tStart2 (by simp [Phase.Writes]) (by simp [Phase.next, hdata]) rfl) <|
  transferReadWritten _ _ _

/-- TRANSFER's frames with a data phase (rule R154). -/
theorem transferWritten_present (hdata : s.cfg.xferDataPhase = .present) (tx : List Byte)
    (ss : List SendOutcome) :
    Steps 6 (s.writing .tStart1 tx (.ok :: .ok :: .ok :: .ok :: .ok :: .ok :: ss))
      (s.writing .tTag (tx ++ startFrame s.cfg s.addr s.cfg.xferFirstDir ++ txFrame s.cfg s.wlen ++
        s.dataRun ++ startFrame s.cfg s.addr .read ++ rxFrame s.cfg s.rlen ++ stopFrame s.cfg) ss) :=
  .step (seqStep_wrote .tStart1 .tTxhdr (by simp [Phase.Writes]) rfl rfl) <|
  .step (seqStep_wrote .tTxhdr .tData (by simp [Phase.Writes]) (by simp [Phase.next, hdata]) rfl) <|
  .step (seqStep_wrote .tData .tStart2 (by simp [Phase.Writes]) rfl rfl) <|
  transferReadWritten _ _ _

/-! ### The reply -/

/-- The state after a reply has been taken: `RX` and the receive outcomes are what is left of them,
`RBUF` begins with the payload, and the lock is still held (rules R15, R109). -/
def replied (s : State) (payload more : List Byte) (rs : List RecvOutcome) : State :=
  (((s.setEnv { s.env with recvs := rs }).setRx more).setRbuf (overlay payload s.rbuf)).setPhase .unlock

/-- The tag and the payload in RX are taken by two steps. -/
theorem replyTaken {stop pay : Phase} {payload more : List Byte} {rs : List RecvOutcome}
    (h : ReplyPhases s.cfg stop s.phase pay) (hrx : s.rx = s.cfg.tagData :: (payload ++ more))
    (hlen : payload.length = s.rlen.toNat) (hrecvs : s.env.recvs = .deliver :: .deliver :: rs) :
    Steps 2 s (s.replied payload more rs) := by
  have htag : s.seqStep = .moved (((s.setEnv { s.env with recvs := .deliver :: rs }).setRx
      (payload ++ more)).setPhase pay) := by
    rw [seqStep_tag h.tag_kind, tagStep_byte hrecvs hrx, checkTag_match (by rfl)]
    simp [h.tag_next]
  refine .step htag (.one ?_)
  rw [seqStep_payload (by exact h.pay_kind), payloadStep_enough rfl (by simp [hlen])]
  simp [replied, overlay, ← hlen, h.pay_next, setEnv, setRx, setRbuf, setPhase]

/-- Another byte than the tag is taken alone, and the sequence ends with it (rules R82, R160). -/
theorem replyRefused {stop pay : Phase} {tag : Byte} {more : List Byte} {rs : List RecvOutcome}
    (h : ReplyPhases s.cfg stop s.phase pay) (hrx : s.rx = tag :: more) (htag : tag ≠ s.cfg.tagData)
    (hrecvs : s.env.recvs = .deliver :: rs) :
    s.seqStep = .moved (((s.setEnv { s.env with recvs := rs }).setRx more).raise (.errDesync tag)) := by
  rw [seqStep_tag h.tag_kind, tagStep_byte hrecvs hrx, checkTag_mismatch (by exact htag)]

/-- The first cells of an overlaid buffer are what was laid over it. -/
theorem take_overlay {payload : List Byte} (hlen : payload.length = n) (buffer : List Byte) :
    (overlay payload buffer).take n = payload := by
  rw [overlay, List.take_append_of_le_length hlen.ge, List.take_of_length_le hlen.le]

/-- Beyond what was laid over it the buffer is as it was. -/
theorem drop_overlay {payload : List Byte} (hlen : payload.length = n) (buffer : List Byte) :
    (overlay payload buffer).drop n = buffer.drop n := by
  rw [overlay, hlen, List.drop_left' hlen]

/-! ### The report -/

theorem endJob_send (hj : s.job = .operation) (ho : s.opsel = .send) :
    s.endJob = s.finish s.outcome (.status s.outcome) := by
  simp [endJob, endOperation, hj, ho]

theorem endJob_reply (hj : s.job = .operation) (ho : s.opsel = .read ∨ s.opsel = .transfer) :
    s.endJob = s.finish s.outcome s.replyRet := by
  obtain ho | ho := ho <;> simp [endJob, endOperation, hj, ho]

theorem endJob_bareReply (hj : s.job = .bareReply) : s.endJob = s.finish s.replyStatus s.replyRet := by
  simp [endJob, hj]

end State

/-! ### SEND -/

/-- From the acceptance of a SEND to its report, with every write succeeding: the Channel lock, the four
frames, and the step at `UNLOCK` (rule R152). -/
theorem State.sendRun {s : State} {w : List Byte} {ss : List SendOutcome} (hp : s.phase = .sLock)
    (hj : s.job = .operation) (ho : s.opsel = .send) (hok : s.outcome = .ok) (hrun : s.dataRun = w)
    (hfree : s.chlock = .free) (hsends : s.env.sends = .ok :: .ok :: .ok :: .ok :: ss) :
    State.Steps 6 s { s with
      tx := s.tx ++ startFrame s.cfg s.addr .write ++ txFrame s.cfg s.wlen ++ w ++ stopFrame s.cfg,
      phase := .idle, status := .ok, ret := .status .ok, retTo := s.opThread,
      env := { s.env with sends := ss } } := by
  have hsteps := Steps.step (seqStep_locks .sLock .sStart hp (by simp [Phase.Locking]) rfl hfree hsends)
    ((sendWritten _ _ _).trans (.one (seqStep_unlocks rfl)))
  rw [endJob_send (by exact hj) (by exact ho)] at hsteps
  subst hrun
  simpa [finish_eq, releaseChannel, writing, hok, hfree, setEnv, setTx, setChlock, setPhase,
    dataRun] using hsteps

/-- Settles O35: the Channel lock, the four frames and the report are six steps. -/
theorem sendCompletes : Obligations.SendCompletes := by
  intro s a w ss k bs ha hw ⟨hx, hp, hfree⟩ hsends hbursts hk
  have hrun := State.sendRun (s := ((s.latchSend a w).setPhase .sLock).setEnv
    { s.env with bursts := bs }) rfl rfl rfl rfl (State.dataRun_overlay hw s.wbuf) hfree hsends
  rw [exec_send_begins ha hw hx hp, State.runSequencer_of_steps (s := (s.latchSend a w).setPhase .sLock)
    (by simp) hbursts hrun hk rfl]
  simp [State.latchSend, State.setPhase, State.setEnv, overlay, startFrame, txFrame, stopFrame, hp]

/-! ### The reply, and what is reported -/

namespace State

variable {s : State} {stop pay : Phase} {p more : List Byte} {tag : Byte} {rs : List RecvOutcome}

/-- From the tag step to the report of READ and TRANSFER, where the reply has come (rule R160). -/
theorem replyRun (h : ReplyPhases s.cfg stop s.phase pay) (hj : s.job = .operation)
    (ho : s.opsel = .read ∨ s.opsel = .transfer) (hok : s.outcome = .ok)
    (hrx : s.rx = s.cfg.tagData :: (p ++ more)) (hlen : p.length = s.rlen.toNat)
    (hrecvs : s.env.recvs = .deliver :: .deliver :: rs) :
    Steps 3 s { s with
      rx := more, rbuf := overlay p s.rbuf, chlock := .free, phase := .idle, status := .ok,
      ret := .received p, retTo := s.opThread, env := { s.env with recvs := rs } } := by
  have hsteps := (replyTaken h hrx hlen hrecvs).trans (.one (seqStep_unlocks rfl))
  rw [endJob_reply (by simpa [releaseChannel, replied] using hj)
    (by simpa [releaseChannel, replied] using ho)] at hsteps
  simpa [finish_eq, releaseChannel, replied, replyRet, take_overlay hlen, hok, setEnv, setRx, setRbuf,
    setChlock, setPhase] using hsteps

/-- From the tag step to the report of a bare DATA reply that has come: `STATUS` stays (log entry 4). -/
theorem bareReplyRun (h : ReplyPhases s.cfg stop s.phase pay) (hj : s.job = .bareReply)
    (hok : s.outcome = .ok) (hrx : s.rx = s.cfg.tagData :: (p ++ more))
    (hlen : p.length = s.rlen.toNat) (hrecvs : s.env.recvs = .deliver :: .deliver :: rs) :
    Steps 3 s { s with
      rx := more, rbuf := overlay p s.rbuf, chlock := .free, phase := .idle,
      ret := .received p, retTo := s.opThread, env := { s.env with recvs := rs } } := by
  have hsteps := (replyTaken h hrx hlen hrecvs).trans (.one (seqStep_unlocks rfl))
  rw [endJob_bareReply (by simpa [releaseChannel, replied] using hj)] at hsteps
  simpa [finish_eq, releaseChannel, replied, replyRet, replyStatus, take_overlay hlen, hok, setEnv,
    setRx, setRbuf, setChlock, setPhase] using hsteps

/-- What receives a reply reports an error alone (rule R190). -/
theorem endJob_receiver_of_error (h : s.outcome ≠ .ok)
    (hj : s.job = .bareReply ∨ s.job = .operation ∧ (s.opsel = .read ∨ s.opsel = .transfer)) :
    s.endJob = s.finish s.outcome (.status s.outcome) := by
  have hret : s.replyRet = .status s.outcome := if_neg h
  obtain hj | ⟨hj, ho⟩ := hj
  · rw [endJob_bareReply hj, hret, replyStatus, if_neg h]
  · rw [endJob_reply hj ho, hret]

/-- From the tag step to the report, where another byte than the tag has come (rules R82, R160). -/
theorem desyncRun (h : ReplyPhases s.cfg stop s.phase pay)
    (hj : s.job = .bareReply ∨ s.job = .operation ∧ (s.opsel = .read ∨ s.opsel = .transfer))
    (hrx : s.rx = tag :: more) (htag : tag ≠ s.cfg.tagData) (hrecvs : s.env.recvs = .deliver :: rs) :
    Steps 2 s { s with
      rx := more, chlock := .free, phase := .idle, status := .errDesync tag, outcome := .errDesync tag,
      ret := .status (.errDesync tag), retTo := s.opThread, env := { s.env with recvs := rs } } := by
  have hsteps := Steps.step (replyRefused h hrx htag hrecvs) (.one (seqStep_unlocks rfl))
  rw [endJob_receiver_of_error (by simp [releaseChannel, raise, abort])
    (by simpa [releaseChannel, raise, abort] using hj)] at hsteps
  simpa [finish_eq, releaseChannel, raise, abort, setStatus, setOutcome, setEnv, setRx, setChlock,
    setPhase] using hsteps

end State

/-! ### READ -/

/-- From the acceptance of a READ to the step that takes the reply's tag (rule R153). -/
theorem State.readRun {s : State} {ss : List SendOutcome} (hp : s.phase = .rLock)
    (hfree : s.chlock = .free) (hsends : s.env.sends = .ok :: .ok :: .ok :: ss) :
    State.Steps 4 s { s with
      tx := s.tx ++ startFrame s.cfg s.addr .read ++ rxFrame s.cfg s.rlen ++ stopFrame s.cfg,
      chlock := .held .sequencer, phase := .rTag, env := { s.env with sends := ss } } :=
  .step (seqStep_locks .rLock .rStart hp (by simp [Phase.Locking]) rfl hfree hsends) (readWritten _ _ _)

theorem byteOf_length {n : Nat} {p : List Byte} (hn : n ≤ 255) (hlen : p.length = n) :
    p.length = (BitVec.ofNat 8 n).toNat :=
  hlen.trans (byteOf_toNat (by omega)).symm

/-- Settles O36: READ's frames, then the reply, which is in RX. -/
theorem readCompletes : Obligations.ReadCompletes := by
  intro s a n p more ss rs k bs ha hn ⟨hx, hp, hfree⟩ hlen hrx hsends hrecvs hbursts hk
  have hrun := (State.readRun (s := ((s.latchRead a n).setPhase .rLock).setEnv
    { s.env with bursts := bs }) rfl hfree hsends).trans
    (State.replyRun (replyPhases_read _) rfl (.inl rfl) rfl hrx (byteOf_length hn hlen) hrecvs)
  rw [exec_read_begins ha hn hx hp, State.runSequencer_of_steps (s := (s.latchRead a n).setPhase .rLock)
    (by simp) hbursts hrun hk rfl]
  simp [State.latchRead, State.setPhase, State.setEnv, overlay, startFrame, rxFrame, stopFrame, hp,
    hfree, hlen]

/-- Settles O39: READ's frames, then a tag step that takes the one byte. -/
theorem readDesync : Obligations.ReadDesync := by
  intro s a n b more ss rs k bs ha hn ⟨hx, hp, hfree⟩ hb hrx hsends hrecvs hbursts hk
  have hrun := (State.readRun (s := ((s.latchRead a n).setPhase .rLock).setEnv
    { s.env with bursts := bs }) rfl hfree hsends).trans
    (State.desyncRun (replyPhases_read _) (.inr ⟨rfl, .inl rfl⟩) hrx hb hrecvs)
  rw [exec_read_begins ha hn hx hp, State.runSequencer_of_steps (s := (s.latchRead a n).setPhase .rLock)
    (by simp) hbursts hrun hk rfl]
  simp [State.latchRead, State.setPhase, State.setEnv, readBytes, hp, hfree]

/-- Settles O41: READ's frames, then a tag step that finds RX empty and waits with the lock held. -/
theorem readBlocksWithTheLock : Obligations.ReadBlocksWithTheLock := by
  intro s a n ss rs k bs ha hn ⟨hx, hp, hfree⟩ hrx hsends hrecvs hbursts hk
  have hrun := State.readRun (s := ((s.latchRead a n).setPhase .rLock).setEnv
    { s.env with bursts := bs }) rfl hfree hsends
  rw [exec_read_begins ha hn hx hp, State.runSequencer_of_waits (s := (s.latchRead a n).setPhase .rLock)
    (by simp) hbursts hrun ((State.seqStep_tag (.inl rfl)).trans (State.tagStep_empty hrecvs hrx)) hk]
  simp [State.latchRead, State.setPhase, State.setEnv, readBytes]

/-! ### TRANSFER -/

/-- From the acceptance of a TRANSFER without a data phase to the step that takes the reply's tag. -/
theorem State.transferRun_absent {s : State} {ss : List SendOutcome} (hp : s.phase = .tLock)
    (hdata : s.cfg.xferDataPhase = .absent) (hfree : s.chlock = .free)
    (hsends : s.env.sends = .ok :: .ok :: .ok :: .ok :: .ok :: ss) :
    State.Steps 6 s { s with
      tx := s.tx ++ startFrame s.cfg s.addr s.cfg.xferFirstDir ++ txFrame s.cfg s.wlen ++
        startFrame s.cfg s.addr .read ++ rxFrame s.cfg s.rlen ++ stopFrame s.cfg,
      chlock := .held .sequencer, phase := .tTag, env := { s.env with sends := ss } } :=
  .step (seqStep_locks .tLock .tStart1 hp (by simp [Phase.Locking]) rfl hfree hsends)
    (transferWritten_absent (by exact hdata) _ _)

/-- From the acceptance of a TRANSFER with a data phase to the step that takes the reply's tag. -/
theorem State.transferRun_present {s : State} {w : List Byte} {ss : List SendOutcome}
    (hp : s.phase = .tLock) (hdata : s.cfg.xferDataPhase = .present) (hrun : s.dataRun = w)
    (hfree : s.chlock = .free)
    (hsends : s.env.sends = .ok :: .ok :: .ok :: .ok :: .ok :: .ok :: ss) :
    State.Steps 7 s { s with
      tx := s.tx ++ startFrame s.cfg s.addr s.cfg.xferFirstDir ++ txFrame s.cfg s.wlen ++ w ++
        startFrame s.cfg s.addr .read ++ rxFrame s.cfg s.rlen ++ stopFrame s.cfg,
      chlock := .held .sequencer, phase := .tTag, env := { s.env with sends := ss } } := by
  have hwritten := transferWritten_present (s := s.setChlock (.held .sequencer)) hdata s.tx ss
  rw [show (s.setChlock (.held .sequencer)).dataRun = w from hrun] at hwritten
  exact .step (seqStep_locks .tLock .tStart1 hp (by simp [Phase.Locking]) rfl hfree hsends) hwritten

/-- Settles O37: the five frames, which leave out the data phase, then the reply. -/
theorem transferCompletes : Obligations.TransferCompletes := by
  intro s a n w p more ss rs k bs hdata ha hw hn ⟨hx, hp, hfree⟩ hlen hrx hsends hrecvs hbursts hk
  have hrun := (State.transferRun_absent (s := ((s.latchTransfer a w n).setPhase .tLock).setEnv
    { s.env with bursts := bs }) rfl hdata hfree hsends).trans
    (State.replyRun (replyPhases_transfer _) rfl (.inr rfl) rfl hrx (byteOf_length hn hlen) hrecvs)
  rw [exec_transfer_begins ha hw hn hx hp, State.runSequencer_of_steps
    (s := (s.latchTransfer a w n).setPhase .tLock) (by simp) hbursts hrun hk rfl]
  simp [State.latchTransfer, State.setPhase, State.setEnv, overlay, startFrame, txFrame, rxFrame,
    stopFrame, hp, hfree, hlen]

/-- Settles O38: as without a data phase, with the buffer after the TX frame. -/
theorem transferWithDataCompletes : Obligations.TransferWithDataCompletes := by
  intro s a n w p more ss rs k bs hdata ha hw hn ⟨hx, hp, hfree⟩ hlen hrx hsends hrecvs hbursts hk
  have hrun := (State.transferRun_present (s := ((s.latchTransfer a w n).setPhase .tLock).setEnv
    { s.env with bursts := bs }) rfl hdata (State.dataRun_overlay hw s.wbuf) hfree hsends).trans
    (State.replyRun (replyPhases_transfer _) rfl (.inr rfl) rfl hrx (byteOf_length hn hlen) hrecvs)
  rw [exec_transfer_begins ha hw hn hx hp, State.runSequencer_of_steps
    (s := (s.latchTransfer a w n).setPhase .tLock) (by simp) hbursts hrun hk rfl]
  simp [State.latchTransfer, State.setPhase, State.setEnv, overlay, startFrame, txFrame, rxFrame,
    stopFrame, hp, hfree, hlen]

/-! ### A bare DATA reply -/

/-- A bare DATA reply with the Channel lock it has taken, before its tag step (rule R109). -/
def State.awaitingReply (s : State) (n : Byte) : State :=
  ((s.latchReply n).setChlock (.held .sequencer)).setPhase .rTag

theorem exec_data_begins {s : State} (n : Byte) (hp : s.phase = .idle) (hfree : s.chlock = .free) :
    exec (.data n) s = .next (s.awaitingReply n).runSequencer := by
  show execData n s = _
  rw [execData, if_pos hp, hfree]
  rfl

/-- Settles O15: the reply is in RX, so that two steps take it and the third reports. -/
theorem dataReplyCompletes : Obligations.DataReplyCompletes := by
  intro s n p more rs k bs hp hfree hlen hrx hrecvs hbursts hk
  have hrun := State.bareReplyRun (s := (s.awaitingReply n).setEnv { s.env with bursts := bs })
    (replyPhases_read _) rfl rfl hrx hlen hrecvs
  rw [exec_data_begins n hp hfree, State.runSequencer_of_steps (s := s.awaitingReply n)
    (by simp [State.awaitingReply]) hbursts hrun hk rfl]
  simp [State.awaitingReply, State.latchReply, State.setChlock, State.setPhase, State.setEnv, overlay,
    hp, hfree, hlen]

/-- Settles O16: the tag step takes the one byte, and the next step reports it. -/
theorem dataReplyDesync : Obligations.DataReplyDesync := by
  intro s n b more rs k bs hp hfree hb hrx hrecvs hbursts hk
  have hrun := State.desyncRun (s := (s.awaitingReply n).setEnv { s.env with bursts := bs })
    (replyPhases_read _) (.inl rfl) hrx hb hrecvs
  rw [exec_data_begins n hp hfree, State.runSequencer_of_steps (s := s.awaitingReply n)
    (by simp [State.awaitingReply]) hbursts hrun hk rfl]
  simp [State.awaitingReply, State.latchReply, State.setChlock, State.setPhase, State.setEnv, hp, hfree]

/-! ### A receive that fails -/

/-- What a failed payload receive leaves: the error, and a buffer of which the first `RLEN` cells alone
have changed (rule R190). -/
theorem State.spoilRbuf_raise {s : State} (hroom : s.rbuf.length = maxLen) :
    (s.spoilRbuf.raise .errIo).status = .errIo ∧ (s.spoilRbuf.raise .errIo).outcome = .errIo ∧
      (s.spoilRbuf.raise .errIo).phase = .unlock ∧
      (s.spoilRbuf.raise .errIo).rbuf.drop s.rlen.toNat = s.rbuf.drop s.rlen.toNat ∧
      (s.spoilRbuf.raise .errIo).rbuf.length = s.rbuf.length ∧
      (s.spoilRbuf.raise .errIo).rx = s.rx ∧ (s.spoilRbuf.raise .errIo).tx = s.tx := by
  have hfits : (s.drawBytes s.rlen.toNat).1.length ≤ s.rbuf.length := by
    have hbound := s.rlen.isLt
    rw [drawBytes_length, hroom]
    exact Nat.le_of_lt_succ hbound
  simp [raise, abort, spoilRbuf_eq, drop_overlay (s.drawBytes_length _), overlay_length hfits]

/-- Settles O42: whatever the receive took, the failing step raises `ERR_IO`; at the payload step it
overlays the first `RLEN` cells of `RBUF`, which has room for them. -/
theorem failedReceive : Obligations.FailedReceive := by
  intro s k rs hinv hrecvs
  refine ⟨fun hp => ?tag, fun hp => ?payload⟩
  case tag =>
    rw [State.seqStep_tag hp, State.tagStep_fail hrecvs]
    exact ⟨_, rfl, rfl, rfl, rfl, rfl, rfl, rfl⟩
  case payload =>
    rw [State.seqStep_payload hp, State.payloadStep_fail hrecvs]
    exact ⟨_, rfl, State.spoilRbuf_raise (s := (s.setEnv { s.env with recvs := rs }).setRx _)
      hinv.sizes.rbuf_len⟩

end Sys2Proof.Machine
end

section
/-! PROOFS. OPEN and CLOSE where the environment's choices are known (rules R52, R124, R126, R128): the
attempts that are granted, fail or block, the run from a pin to the report, and CLOSE's releases. -/

namespace Sys2Proof.Machine

/-! ### Attempts that block -/

/-- On a held pin the attempt has to wait where that is what `PIN_CONTENTION` or the environment
chooses. -/
theorem contend_blocked {s : State} (h : s.cfg.pinContention = .block ∨
      (s.cfg.pinContention = .either ∧ ∃ rest, s.env.pinChoices = .block :: rest)) :
    ∃ e, contend s = .blocked (s.setEnv e) := by
  obtain hc | ⟨hc, rest, hd⟩ := h
  · exact ⟨s.env, by simp [contend, hc]⟩
  · exact ⟨{ s.env with pinChoices := rest }, by simp only [contend, hc, s.drawPinChoice_known hd]⟩

theorem acquirePin_blocked {s : State} {i : Nat} (h : s.PinBlocks i) (who : PinOwner) :
    ∃ e, acquirePin s i who = .blocked (s.setEnv e) := by
  obtain ⟨⟨o, hl⟩, hc⟩ := h
  simpa [acquirePin, hl] using contend_blocked hc

namespace State

variable {s : State} {i k : Nat} {bs : List Nat} {ss : List SendOutcome}

theorem acquireStep_blocked (hb : s.stillBlocked s.parked = false) (h : s.PinBlocks i)
    (granted : State → State) (failed : Status → State → State) :
    ∃ e, s.acquireStep i granted failed = .waits ((s.setEnv e).setParked (some i)) := by
  obtain ⟨e, he⟩ := acquirePin_blocked h .engine
  exact ⟨e, by simp [acquireStep, hb, he]⟩

/-- Whether an attempt on a pin blocks does not depend on another pin's lock. -/
theorem PinBlocks.setPin {j : Nat} (h : s.PinBlocks j) (hij : i ≠ j) (l : PinLock) :
    (s.setPin i l).PinBlocks j := by
  have hread : (s.setPin i l).pinlock[j]? = s.pinlock[j]? := by simp [setPin_read, hij]
  unfold PinBlocks at h ⊢
  rw [hread]
  exact h

/-- Freeing a free pin changes nothing. -/
theorem set_free_of_free (h : s.pinlock[i]? = some .free) : s.pinlock.set i .free = s.pinlock := by
  obtain ⟨hi, hfree⟩ := List.getElem?_eq_some_iff.1 h
  rw [← hfree, List.set_getElem_self]

/-! ### OPEN from the data pin to its report -/

/-- OPEN with both pins and `FREQ` written, before it takes the Channel lock (rule R126). -/
def dataTaken (s : State) : State :=
  { s with pinlock := s.pinlock.set pinSda (.held .engine), parked := none, hasSda := true,
           freq := s.freqReq, phase := .oLock }

theorem seqStep_sda_granted (hp : s.phase = .oAcqSda) (hb : s.stillBlocked s.parked = false)
    (h : s.pinlock[pinSda]? = some .free) : s.seqStep = .moved s.dataTaken := by
  rw [seqStep_oAcqSda hp, acqSdaStep, acquireStep_granted hb h]
  simp [dataTaken, hp, Phase.next, State.setPin, setPinlock, setParked, setHasSda, setFreq, setPhase]

theorem seqStep_scl_granted (hp : s.phase = .oAcqScl) (hb : s.stillBlocked s.parked = false)
    (h : s.pinlock[pinScl]? = some .free) :
    s.seqStep = .moved { s with
      pinlock := s.pinlock.set pinScl (.held .engine), parked := none, hasScl := true,
      phase := .oAcqSda } := by
  rw [seqStep_oAcqScl hp, acqSclStep_granted hb h, hp]
  rfl

/-- From the data pin to the enable frame. -/
theorem dataTakenRun (hp : s.phase = .oAcqSda) (hb : s.stillBlocked s.parked = false)
    (h : s.pinlock[pinSda]? = some .free) (hfree : s.chlock = .free) :
    Steps 2 s ((s.dataTaken.setChlock (.held .sequencer)).writing .oEnable s.tx s.env.sends) :=
  .step (seqStep_sda_granted hp hb h) <|
  .one (seqStep_locks .oLock .oEnable rfl (by simp [Phase.Locking]) rfl hfree rfl)

theorem endJob_open (hj : s.job = .operation) (ho : s.opsel = .openEngine) : s.endJob = s.endOpen := by
  simp [endJob, endOperation, hj, ho]

/-- From the data pin to the report, with the write succeeding. -/
theorem openRun (hp : s.phase = .oAcqSda) (hb : s.stillBlocked s.parked = false)
    (hj : s.job = .operation) (ho : s.opsel = .openEngine) (hok : s.outcome = .ok)
    (h : s.pinlock[pinSda]? = some .free) (hfree : s.chlock = .free)
    (hsends : s.env.sends = .ok :: ss) :
    Steps 4 s { s with
      pinlock := s.pinlock.set pinSda (.held .engine), hasSda := true, engExists := true,
      freq := s.freqReq, tx := s.tx ++ enableFrame s.cfg (computeDivisor s.cfg s.freqReq),
      phase := .idle, parked := none, status := .ok, ret := .status .ok, retTo := s.opThread,
      env := { s.env with sends := ss } } := by
  have hlocked := dataTakenRun hp hb h hfree
  rw [hsends] at hlocked
  have hsteps := hlocked.trans (.step (seqStep_wrote .oEnable .unlock (by simp [Phase.Writes]) rfl rfl)
    (.one (seqStep_unlocks rfl)))
  rw [endJob_open (by simpa [releaseChannel, writing, dataTaken] using hj)
    (by simpa [releaseChannel, writing, dataTaken] using ho), endOpen,
    if_pos (by simpa [releaseChannel, writing, dataTaken] using hok)] at hsteps
  simpa [finish_eq, releaseChannel, writing, dataTaken, phaseBytes, div, hfree, setEnv, setTx, setChlock,
    setExists, setPhase] using hsteps

/-- From the data pin to the report, with the write failing: both pins are released (decision D17). -/
theorem openAbortRun {j : Nat} (hp : s.phase = .oAcqSda) (hb : s.stillBlocked s.parked = false)
    (hj : s.job = .operation) (ho : s.opsel = .openEngine)
    (h : s.pinlock[pinSda]? = some .free) (hfree : s.chlock = .free)
    (hsends : s.env.sends = .fail j :: ss) :
    Steps 4 s { s with
      pinlock := (s.pinlock.set pinSda .free).set pinScl .free, hasScl := false, hasSda := false,
      freq := s.freqReq, tx := s.tx ++ (enableFrame s.cfg (computeDivisor s.cfg s.freqReq)).take j,
      phase := .idle, parked := none, status := .errIo, outcome := .errIo,
      waiting := ((s.wake pinSda).wake pinScl).waiting,
      ret := .status .errIo, retTo := s.opThread, env := { s.env with sends := ss } } := by
  have hlocked := dataTakenRun hp hb h hfree
  rw [hsends] at hlocked
  have hsteps := hlocked.trans (.step (seqStep_write_fail rfl (.inl rfl)) (.one (seqStep_unlocks rfl)))
  rw [endJob_open (by simpa [releaseChannel, writing, dataTaken] using hj)
    (by simpa [releaseChannel, writing, dataTaken] using ho), endOpen,
    if_neg (by simp [releaseChannel])] at hsteps
  simpa [finish_eq, releasePin_eq, releaseChannel, writing, dataTaken, phaseBytes, div,
    hfree, setEnv, setTx, setChlock, setExists, setHasSda, setHasScl, setPhase, unmark] using hsteps

end State

/-- Settles O27: an OPEN at the data pin needs four steps more, one at the clock pin five. -/
theorem blockedOpenGoesOn : Obligations.BlockedOpenGoesOn := by
  intro s ss k bs hj ho hok hb hsda hfree hsends hbursts
  refine ⟨fun hp hscl hk => ?scl, fun hp hheld hk => ?sda⟩
  case scl =>
    have hclock := State.seqStep_scl_granted (s := s.setEnv { s.env with bursts := bs }) hp hb hscl
    have hsda' : (s.pinlock.set pinScl (.held .engine))[pinSda]? = some .free := by
      rwa [List.getElem?_set_ne (by decide)]
    have hrun := State.Steps.step hclock (State.openRun rfl rfl hj ho hok hsda' hfree hsends)
    rw [State.runSequencer_of_steps (by simp [hp]) hbursts hrun hk rfl]
    simp [enableFrame, State.setEnv]
  case sda =>
    have hrun := State.openRun (s := s.setEnv { s.env with bursts := bs }) hp hb hj ho hok hsda hfree
      hsends
    rw [State.runSequencer_of_steps (by simp [hp]) hbursts hrun hk rfl]
    simp [enableFrame, State.setEnv, hheld]

/-- Settles O24: the clock pin is granted in OPEN's own step; from the data pin on it is a waiting OPEN
that goes on. -/
theorem openCompletes : Obligations.OpenCompletes := by
  intro s f ss k bs hp hscl hsda hfree hsends hbursts hk
  have hsda' : (s.pinlock.set pinScl (.held .engine))[pinSda]? = some .free := by
    rwa [List.getElem?_set_ne (by decide)]
  have hrun := (blockedOpenGoesOn (s.clockTaken f) ss k bs rfl rfl rfl rfl hsda' hfree hsends
    hbursts).2 rfl rfl hk
  rw [exec_open_scl_granted f hp hscl, hrun]
  simp [State.clockTaken, State.latchOpen, hp]

/-- Settles O28: as OPEN completes, up to the write that fails; then both pins are released. -/
theorem openWriteFails : Obligations.OpenWriteFails := by
  intro s f j ss k bs hp hscl hsda hfree hsends hbursts hk
  have hsda' : (s.pinlock.set pinScl (.held .engine))[pinSda]? = some .free := by
    rwa [List.getElem?_set_ne (by decide)]
  have hrun := State.openAbortRun (s := (s.clockTaken f).setEnv { s.env with bursts := bs })
    rfl rfl rfl rfl hsda' hfree hsends
  rw [exec_open_scl_granted f hp hscl, State.runSequencer_of_steps (s := s.clockTaken f)
    (by simp [State.clockTaken]) hbursts hrun hk rfl]
  have hlocks : ((s.pinlock.set pinScl (.held .engine)).set pinSda .free).set pinScl .free =
      s.pinlock := by
    rw [List.set_comm _ _ (by decide), State.pinlock_taken_released hscl, State.set_free_of_free hsda]
  simp [State.clockTaken, State.latchOpen, State.setEnv, State.wake, enableFrame, hlocks, hp]

/-! ### OPEN whose attempt blocks, and OPEN at a busy sequencer -/

theorem exec_open_idle {s : State} (f : Freq) (hp : s.phase = .idle) :
    exec (.openEngine f) s =
      .next (afterAcqScl f s ((s.latchOpen f).setPhase .oAcqScl).acqSclStep) := by
  show execOpen f s = _
  rw [execOpen, if_pos hp]

theorem exec_open_busy {s : State} (f : Freq) (hp : s.phase ≠ .idle) :
    exec (.openEngine f) s = .next (openBusy f s) := by
  show execOpen f s = _
  rw [execOpen, if_neg hp]

/-- Settles O26: a blocked attempt changes nothing but the mark, so OPEN stands where it made it. -/
theorem openBlocks : Obligations.OpenBlocks := by
  intro s f hp
  have hclock (h : s.PinBlocks pinScl) := State.acquireStep_blocked
    (s := (s.latchOpen f).setPhase .oAcqScl) (i := pinScl) rfl h
  refine ⟨fun h hx => ?stands, fun h hx => ?waits, fun hscl h ⟨k, bs, hbursts, hk⟩ => ?atData⟩
  case stands =>
    obtain ⟨e, he⟩ := hclock h _ _
    refine ⟨e, ?_⟩
    rw [exec_open_idle f hp, State.acqSclStep, he]
    simp [afterAcqScl, hx, State.latchOpen, State.setEnv, State.setPhase, State.setParked]
  case waits =>
    obtain ⟨e, he⟩ := hclock h _ _
    refine ⟨e, ?_⟩
    rw [exec_open_idle f hp, State.acqSclStep, he]
    simp [afterAcqScl, hx, State.deferOn, State.setEnv, State.setWaiting]
  case atData =>
    have hblocks : ((s.clockTaken f).setEnv { s.env with bursts := bs }).PinBlocks pinSda :=
      h.setPin (i := pinScl) (by decide) (.held .engine)
    obtain ⟨e, he⟩ := State.acquireStep_blocked rfl hblocks _ _
    refine ⟨e, ?_⟩
    rw [exec_open_scl_granted f hp hscl, State.runSequencer_of_waits (s := s.clockTaken f)
      (by simp [State.clockTaken]) hbursts (.done _) ((State.seqStep_oAcqSda rfl).trans he) hk]
    simp [State.clockTaken, State.latchOpen, State.setEnv, State.setParked]

/-- Settles O31: what `openBusy` answers is decided by the attempt on pin 0 and, where that is granted,
by whether an OPEN stands before pin 0. -/
theorem openAtABusySequencer : Obligations.OpenAtABusySequencer := by
  intro s f st hp
  rw [exec_open_busy f hp]
  refine ⟨fun h => ?fails, fun h => ?blocks, fun h hother => ?notTaken, fun bs h hopen hbursts => ?taken⟩
  case fails =>
    obtain ⟨e, he⟩ := acquirePin_failed h .engine
    exact ⟨e, by simp [openBusy, he, State.reply, State.setStatus, State.answer, State.setEnv]⟩
  case blocks =>
    obtain ⟨e, he⟩ := acquirePin_blocked h .engine
    exact ⟨e, by simp [openBusy, he, State.deferOn, State.setWaiting, State.setEnv]⟩
  case notTaken =>
    simp [openBusy, acquirePin_granted h, hother, State.defer, State.setWaiting]
  case taken =>
    rw [openBusy, acquirePin_granted h, if_pos hopen,
      State.runSequencer_burst (s := overtake f s) (by simp [overtake]) hbursts, State.seqRun]
    simp [overtake, State.latchOpen, State.setPin, State.setPinlock, State.setWaiting, State.setHasScl,
      State.setPhase, State.setEnv]

/-! ### CLOSE -/

namespace State

variable {s : State} {i j k : Nat} {bs : List Nat} {o : CloseOrder} {os : List CloseOrder}

theorem drawCloseOrder_known (h : s.env.closeOrders = o :: os) :
    s.drawCloseOrder = (o, s.setEnv { s.env with closeOrders := os }) := by
  simp [drawCloseOrder, h]

/-- The engine's life ends before its pins are released (log entry 13). -/
theorem beginClose_known (hnone : s.closing = []) (horders : s.env.closeOrders = o :: os) :
    s.beginClose = { s with
      hasSda := false, hasScl := false, engExists := false, closing := closeList o,
      closeThread := s.caller, env := { s.env with closeOrders := os } } := by
  rw [beginClose, drawCloseOrder_known horders]
  simp [hnone, setEnv, setHasSda, setHasScl, setExists, setClosing, setCloseThread]

theorem runCloser_burst (hc : s.closing ≠ []) (hbursts : s.env.bursts = k :: bs) :
    s.runCloser = closeRun k (s.setEnv { s.env with bursts := bs }) := by
  rw [runCloser, if_neg hc, s.drawBurst_known hbursts]

/-- The closer's turn right after the engine's life has ended. -/
theorem beginClose_runCloser (hnone : s.closing = []) (horders : s.env.closeOrders = o :: os)
    (hbursts : s.env.bursts = k :: bs) :
    s.beginClose.runCloser = closeRun k { s with
      hasSda := false, hasScl := false, engExists := false, closing := closeList o,
      closeThread := s.caller, env := { s.env with closeOrders := os, bursts := bs } } := by
  rw [beginClose_known hnone horders]
  exact runCloser_burst (by cases o <;> simp [closeList]) hbursts

/-- With no pin to release the closer has no step. -/
theorem closeRun_done (n : Nat) (h : s.closing = []) : closeRun n s = s := by
  induction n with
  | zero => rfl
  | succ n ih =>
    have hstep : s.closeStep = s := by rw [closeStep, h]
    rw [closeRun, hstep, ih]

theorem closeStep_more {l : List Nat} (h : s.closing = i :: j :: l) :
    s.closeStep = { s.wake i with pinlock := s.pinlock.set i .free, closing := j :: l } := by
  rw [closeStep, h]
  rfl

theorem closeStep_last (h : s.closing = [i]) :
    s.closeStep = { s.wake i with
      pinlock := s.pinlock.set i .free, closing := [], status := .ok, ret := .nothing,
      retTo := s.closeThread } := by
  rw [closeStep, h]
  rfl

/-- Two releases end a CLOSE that had none before (rule R128). -/
theorem closeRun_both (h : s.closing = [i, j]) (hk : 2 ≤ k) :
    closeRun k s = { (s.wake i).wake j with
      pinlock := (s.pinlock.set i .free).set j .free, closing := [], status := .ok, ret := .nothing,
      retTo := s.closeThread } := by
  obtain ⟨n, rfl⟩ := Nat.exists_eq_add_of_le' hk
  rw [closeRun, closeStep_more h, closeRun, closeStep_last rfl, closeRun_done n rfl]
  simp [wake, setWaiting, setParked]

end State

/-- Settles O34: both refusals come before anything is done. -/
theorem closeRefused : Obligations.CloseRefused := by
  intro s
  refine ⟨fun hx => ?_, fun hx hp => ?_⟩
  · show execClose s = _
    simp [execClose, hx]
  · show execClose s = _
    simp [execClose, hx, hp]

/-- CLOSE of an engine whose sequencer is idle begins, and the closer has its turn (rule R128). -/
theorem exec_close_begins {s : State} (hx : s.engExists = true) (hp : s.phase = .idle) :
    exec .close s = .next s.beginClose.runCloser := by
  show execClose s = _
  rw [execClose, if_pos hx, if_pos hp]

/-- Settles O32: the releases are the same in either order, and so is what they wake. -/
theorem closeCompletes : Obligations.CloseCompletes := by
  intro s o os k bs hx hp hnone horders hbursts hk
  rw [exec_close_begins hx hp, State.beginClose_runCloser hnone horders hbursts]
  cases o with
  | sclFirst =>
    rw [State.closeRun_both rfl hk]
    simp [State.wake, State.setWaiting, State.setParked, hnone]
  | sdaFirst =>
    rw [State.closeRun_both rfl hk, List.set_comm _ _ (by decide), s.wake_comm pinScl pinSda]
    simp [State.wake, State.setWaiting, State.setParked, hnone]

/-- Settles O33: a turn of one release leaves the other pin to the closer. -/
theorem closeReleasesInTwoSteps : Obligations.CloseReleasesInTwoSteps := by
  intro s os bs hx hp hnone hbursts
  refine ⟨fun horders => ?_, fun horders => ?_⟩
  all_goals
    rw [exec_close_begins hx hp, State.beginClose_runCloser hnone horders hbursts, State.closeRun,
      State.closeStep_more rfl, State.closeRun]
    simp [State.wake, State.setWaiting, State.setParked]

end Sys2Proof.Machine
end

section
/-! PROOFS. Calls that end in their own step: the bare frames (rules R101, R104 to R108), PIN and
PIN_RELEASE (rules R52, R54, R120, R121, R183), and the refusals and the waiting that meet SEND, READ,
TRANSFER and DATA (rules R55, R83, R150, R151). -/

namespace Sys2Proof.Machine

/-! ### Bare frames -/

theorem bareFrame_free {s : State} (hfree : s.chlock = .free) (call : Instr) (opcode : Byte)
    (payload : List Byte) :
    bareFrame call opcode payload s =
      let (sent, t) := (s.setChlock (.held .sequencer)).chSend (opcode :: payload)
      .next (t.releaseChannel.answer t.caller (.frame sent)) := by
  simp only [bareFrame, hfree]
  rfl

theorem bareFrame_ok {s : State} {ss : List SendOutcome} (hfree : s.chlock = .free)
    (hsends : s.env.sends = .ok :: ss) (call : Instr) (opcode : Byte) (payload : List Byte) :
    bareFrame call opcode payload s = .next { s with
      tx := s.tx ++ (opcode :: payload), ret := .frame true, retTo := s.caller,
      env := { s.env with sends := ss } } := by
  rw [bareFrame_free hfree, State.chSend_ok _ (by exact hsends)]
  simp [State.releaseChannel, State.setChlock, State.setTx, State.setEnv, State.answer, hfree]

theorem bareFrame_fail {s : State} {j : Nat} {ss : List SendOutcome} (hfree : s.chlock = .free)
    (hsends : s.env.sends = .fail j :: ss) (call : Instr) (opcode : Byte) (payload : List Byte) :
    bareFrame call opcode payload s = .next { s with
      tx := s.tx ++ (opcode :: payload).take j, ret := .frame false, retTo := s.caller,
      env := { s.env with sends := ss } } := by
  rw [bareFrame_free hfree, State.chSend_fail _ (by exact hsends)]
  simp [State.releaseChannel, State.setChlock, State.setTx, State.setEnv, State.answer, hfree]

theorem bareFrame_held {s : State} {o : ChOwner} (hheld : s.chlock = .held o) (call : Instr)
    (opcode : Byte) (payload : List Byte) :
    bareFrame call opcode payload s = .next (s.defer call) := by
  simp [bareFrame, hheld]

theorem execData_held {s : State} {o : ChOwner} (hheld : s.chlock = .held o) (n : Byte) :
    execData n s = .next (s.defer (.data n)) := by
  simp [execData, hheld]

/-- Each command instruction is a bare frame, of the bytes that encode it (rules R104 to R108). -/
theorem exec_command (s : State) {i : Instr} (hi : i.space = .command) :
    ∃ opcode payload, encode s.cfg i = opcode :: payload ∧ exec i s = bareFrame i opcode payload s := by
  cases i
  case enableI2c | start | tx | rx | stop => exact ⟨_, _, rfl, rfl⟩
  all_goals cases hi

/-- Settles O12: a command instruction puts on TX what encodes it. -/
theorem commandFramesComplete : Obligations.CommandFramesComplete := by
  intro s ss hfree hsends
  exact ⟨fun _ => bareFrame_ok hfree hsends _ _ _, fun _ _ => bareFrame_ok hfree hsends _ _ _,
    fun _ => bareFrame_ok hfree hsends _ _ _, fun _ => bareFrame_ok hfree hsends _ _ _,
    bareFrame_ok hfree hsends _ _ _⟩

/-- Settles O13: the failing write is the frame's only one. -/
theorem commandFrameFails : Obligations.CommandFrameFails := by
  intro s i k ss hi hfree hsends
  obtain ⟨opcode, payload, hbytes, hexec⟩ := exec_command s hi
  rw [hexec, hbytes, bareFrame_fail hfree hsends]

/-- Settles O14: both kinds of call look at the Channel lock before anything else. -/
theorem framesWaitForTheLock : Obligations.FramesWaitForTheLock := by
  intro s i o hi hheld
  cases hspace : i.space with
  | request => exact absurd hspace hi
  | command =>
    obtain ⟨opcode, payload, -, hexec⟩ := exec_command s hspace
    exact hexec.trans (bareFrame_held hheld _ _ _)
  | reply =>
    obtain ⟨n, rfl⟩ : ∃ n, i = .data n := by
      cases i
      case data n => exact ⟨n, rfl⟩
      all_goals cases hspace
    exact execData_held hheld n

/-! ### PIN and PIN_RELEASE -/

theorem exec_pin (i : Nat) (s : State) : exec (.pin i) s = execPin i s := rfl

theorem exec_pinRelease (i : Nat) (s : State) : exec (.pinRelease i) s = execPinRelease i s := rfl

/-- Settles O17: a free pin is granted. -/
theorem pinCompletes : Obligations.PinCompletes := by
  intro s i hfree
  rw [exec_pin, execPin, acquirePin_granted hfree]
  rfl

/-- A PIN whose attempt fails reports the error (rules R18, R120). -/
theorem exec_pin_failed {s : State} {i : Nat} {st : Status} (h : s.PinFails i st) :
    ∃ e, exec (.pin i) s = .next { s with
      status := st, ret := .status st, retTo := s.caller, env := e } := by
  obtain ⟨e, he⟩ := acquirePin_failed h (.host s.caller)
  refine ⟨e, ?_⟩
  rw [exec_pin, execPin, he]
  simp [State.reply, State.setStatus, State.answer, State.setEnv]

/-- An index without a lock is unknown, before any lock is looked at. -/
theorem exec_pin_unknown {s : State} {i : Nat} (h : s.pinlock[i]? = none) :
    exec (.pin i) s = .next { s with
      status := .errPinUnknown, ret := .status .errPinUnknown, retTo := s.caller } := by
  simp [exec_pin, execPin, acquirePin, h, State.reply, State.setStatus, State.answer]

/-- Settles O18: under the invariant the pin locks are as many as `N_PINS`, and the failed attempt leaves
them as they are. -/
theorem unknownPinReported : Obligations.UnknownPinReported := by
  intro s i hinv hi
  have hnone : s.pinlock[i]? = none := List.getElem?_eq_none (hinv.sizes.registry.trans_le hi)
  exact ⟨exec_pin_unknown hnone, exec_pin_unknown hnone⟩

/-- Settles O19: PIN's one attempt fails or blocks. -/
theorem pinContentionReportedOrWaits : Obligations.PinContentionReportedOrWaits := by
  intro s i
  refine ⟨exec_pin_failed, fun h => ?_⟩
  obtain ⟨e, he⟩ := acquirePin_blocked h (.host s.caller)
  refine ⟨e, ?_⟩
  rw [exec_pin, execPin, he]
  simp [State.deferOn, State.setWaiting, State.setEnv]

/-- Settles O20: the calling thread has the handle, so the pin is released. -/
theorem pinReleaseCompletes : Obligations.PinReleaseCompletes := by
  intro s i hheld
  rw [exec_pinRelease, execPinRelease, if_pos hheld]
  rfl

/-- Settles O21: without the handle there is nothing to release. -/
theorem pinReleaseNeedsTheHandle : Obligations.PinReleaseNeedsTheHandle := by
  intro s i hheld
  rw [exec_pinRelease, execPinRelease, if_neg hheld]

/-! ### Refusals and waiting -/

theorem contractRefusal_address {addr : Nat} (h : 128 ≤ addr) (lengths : List Nat) :
    contractRefusal addr lengths = some .addressOutOfContract := by
  simp [contractRefusal, addrInContract, h]

theorem contractRefusal_length {addr n : Nat} {lengths : List Nat} (ha : addr < 128)
    (hmem : n ∈ lengths) (hn : 255 < n) : contractRefusal addr lengths = some .lengthOutOfContract := by
  have hbad : lengths.all lenInContract = false :=
    List.all_eq_false.2 ⟨n, hmem, by simpa [lenInContract] using hn⟩
  simp [contractRefusal, addrInContract, ha, hbad]

theorem acceptOperation_refused {bad : Option Refusal} {r : Refusal} (h : bad = some r) (call : Instr)
    (latched : State) (first : Phase) (s : State) :
    acceptOperation bad call latched first s = .refused r := by
  rw [h, acceptOperation]

theorem acceptOperation_noEngine {bad : Option Refusal} {s : State} (h : bad = none)
    (hx : s.engExists = false) (call : Instr) (latched : State) (first : Phase) :
    acceptOperation bad call latched first s = .refused .noEngine := by
  simp [acceptOperation, h, hx]

theorem acceptOperation_waits {bad : Option Refusal} {s : State} (h : bad = none)
    (hx : s.engExists = true) (hp : s.phase ≠ .idle) (call : Instr) (latched : State) (first : Phase) :
    acceptOperation bad call latched first s =
      .next { s with waiting := s.waiting ++ [⟨s.caller, call, none⟩] } := by
  simp [acceptOperation, h, hx, hp, State.defer, State.setWaiting]

theorem exec_send (a : Nat) (w : List Byte) (s : State) : exec (.send a w) s =
    acceptOperation (contractRefusal a [w.length]) (.send a w) (s.latchSend a w) .sLock s := rfl

theorem exec_read (a n : Nat) (s : State) : exec (.read a n) s =
    acceptOperation (contractRefusal a [n]) (.read a n) (s.latchRead a n) .rLock s := rfl

theorem exec_transfer (a : Nat) (w : List Byte) (n : Nat) (s : State) : exec (.transfer a w n) s =
    acceptOperation (contractRefusal a [w.length, n]) (.transfer a w n) (s.latchTransfer a w n)
      .tLock s := rfl

/-- Settles O46: the contract is checked first, the address before the lengths. -/
theorem outOfContractIsRefused : Obligations.OutOfContractIsRefused := by
  intro s a n w
  rw [exec_send, exec_read, exec_transfer]
  refine ⟨fun ha => ?address, fun ha hw => ?writeLength, fun ha hn => ?readLength⟩
  case address =>
    exact ⟨acceptOperation_refused (contractRefusal_address ha _) _ _ _ _,
      acceptOperation_refused (contractRefusal_address ha _) _ _ _ _,
      acceptOperation_refused (contractRefusal_address ha _) _ _ _ _⟩
  case writeLength =>
    exact ⟨acceptOperation_refused (contractRefusal_length ha (by simp) hw) _ _ _ _,
      acceptOperation_refused (contractRefusal_length ha (by simp) hw) _ _ _ _⟩
  case readLength =>
    exact ⟨acceptOperation_refused (contractRefusal_length ha (by simp) hn) _ _ _ _,
      acceptOperation_refused (contractRefusal_length ha (by simp) hn) _ _ _ _⟩

/-- Settles O47: in contract, so what refuses is the missing engine. -/
theorem operationsNeedAnEngine : Obligations.OperationsNeedAnEngine := by
  intro s a n w ha hw hn hx
  exact ⟨acceptOperation_noEngine (contractRefusal_none.2 ⟨ha, by simpa using hw⟩) hx _ _ _,
    acceptOperation_noEngine (contractRefusal_none.2 ⟨ha, by simpa using hn⟩) hx _ _ _,
    acceptOperation_noEngine (contractRefusal_none.2 ⟨ha, by simpa using ⟨hw, hn⟩⟩) hx _ _ _⟩

/-- Settles O48: in contract and with an engine, so what is left is to wait. -/
theorem busySequencerMakesCallersWait : Obligations.BusySequencerMakesCallersWait := by
  intro s a n w m ha hw hn hp
  refine ⟨fun hx => ⟨?send, ?read, ?transfer⟩, ?data⟩
  case send => exact acceptOperation_waits (contractRefusal_none.2 ⟨ha, by simpa using hw⟩) hx hp _ _ _
  case read => exact acceptOperation_waits (contractRefusal_none.2 ⟨ha, by simpa using hn⟩) hx hp _ _ _
  case transfer =>
    exact acceptOperation_waits (contractRefusal_none.2 ⟨ha, by simpa using ⟨hw, hn⟩⟩) hx hp _ _ _
  case data =>
    show execData m s = _
    rw [execData, if_neg hp]
    rfl

end Sys2Proof.Machine
end

section
/-! PROOFS. The turns (rules R10, R52, R54, R61, R128, R150, R203): what the step of each agent is, the
attempts that have no step, the moves of the agents outside the block, and two ports that share
nothing. -/

namespace Sys2Proof.Machine

namespace State

variable {s : State} {i j k : Nat}

/-! ### Attempts that have no step -/

theorem stillBlocked_of_held {o : PinOwner} (h : s.pinlock[i]? = some (.held o)) :
    s.stillBlocked (some i) = true := by
  simp [stillBlocked, pinHeld, h]

theorem seqStep_stillBlocked (h : s.stillBlocked s.parked = true)
    (hp : s.phase = .oAcqScl ∨ s.phase = .oAcqSda) : s.seqStep = .waits s := by
  obtain hp | hp := hp
  · rw [seqStep_oAcqScl hp, acqSclStep, acquireStep, if_pos h]
  · rw [seqStep_oAcqSda hp, acqSdaStep, acquireStep, if_pos h]

/-! ### A release -/

theorem releasePin_frees (h : i < s.pinlock.length) : (s.releasePin i).pinlock[i]? = some .free :=
  List.getElem?_set_self h

theorem unmark_ne (i : Nat) (on : Option Nat) : unmark i on ≠ some i := by
  unfold unmark
  split
  · nofun
  · assumption

theorem unmark_of_ne {on : Option Nat} (h : on ≠ some i) : unmark i on = on := if_neg h

theorem wake_line {w : Waiter} (h : s.waiting[k]? = some w) :
    (s.wake i).waiting[k]? =
      some { w with blockedOn := if w.blockedOn = some i then none else w.blockedOn } := by
  simp [wake, h, unmark]

end State

theorem serveWaiter_blocked {s : State} {k : Nat} {w : Waiter} (hw : s.waiting[k]? = some w)
    (hb : s.stillBlocked w.blockedOn = true) : serveWaiter k s = .next s := by
  simp [serveWaiter, hw, hb]

theorem serveWaiter_retries {s : State} {k : Nat} {w : Waiter} (hw : s.waiting[k]? = some w)
    (hb : s.stillBlocked w.blockedOn = false) :
    serveWaiter k s = exec w.instr ((s.setWaiting (s.waiting.eraseIdx k)).setCaller w.thread) := by
  simp [serveWaiter, hw, hb]

/-- Settles O22: a mark on a held pin stops both kinds of attempt, and the release clears it. -/
theorem blockedUntilRelease : Obligations.BlockedUntilRelease := by
  intro s i
  refine ⟨fun o k w ts hheld hturn hw hon => ?waiter, fun o hheld hon hp => ?opening,
    State.releasePin_frees, State.unmark_ne i s.parked, State.unmark_of_ne, fun k w => State.wake_line⟩
  case waiter =>
    have hb : s.stillBlocked w.blockedOn = true := hon ▸ State.stillBlocked_of_held hheld
    rw [step_known hturn]
    exact serveWaiter_blocked (by exact hw) (by exact hb)
  case opening =>
    exact State.seqStep_stillBlocked (hon ▸ State.stillBlocked_of_held hheld) hp

/-! ### The agents' turns -/

theorem serveCall_inside {s : State} {t : Nat} (h : t ∈ s.inCall) : serveCall t s = .next s :=
  if_pos (List.contains_iff_mem.2 h)

theorem serveCall_runs {s : State} {t : Nat} {c : Call} {rest : List Call} {i : Instr} {more : List Byte}
    (hout : t ∉ s.inCall) (hcall : takeCall t s.calls = some (c, rest))
    (hdecode : decode s.cfg c.space c.bytes = .ok (i, more)) :
    serveCall t s = exec i ((s.setCalls rest).setCaller t) := by
  have hcontains : s.inCall.contains t = false := by simpa using hout
  simp only [serveCall, hcontains, hcall, hdecode]
  rfl

/-- Settles O57: the thread's first call is the one taken, and it is decoded and run; a thread inside a
call has nothing to do but to use up its turn. -/
theorem stepRunsTheCall : Obligations.StepRunsTheCall := by
  intro s t ts hturn
  rw [step_known hturn]
  refine ⟨fun before behind c i more hout hcalls hbefore hc _ hdecode => ?runs, fun hin => ?inside⟩
  case runs =>
    have htake : takeCall t s.calls = some (c, before ++ behind) := by
      rw [hcalls, takeCall_append hbefore hc]
    exact serveCall_runs hout htake hdecode
  case inside => exact serveCall_inside hin

/-- Settles O58: each turn is known, and the closer's burst says how many pins it frees. -/
theorem waitersAreServed : Obligations.WaitersAreServed := by
  intro s ts
  refine ⟨fun k w hturn hw hb => ?retries, fun hturn => ?sequencer, fun k bs hturn hbursts => ?closer⟩
  case retries =>
    rw [step_known hturn]
    exact serveWaiter_retries (by exact hw) hb
  case sequencer =>
    rw [step_known hturn]
    rfl
  case closer =>
    have hstep : step s = .next (s.setEnv { s.env with turns := ts }).runCloser := by
      rw [step_known hturn]
      rfl
    have hrun (hc : s.closing ≠ []) : step s =
        .next (State.closeRun k (s.setEnv { s.env with turns := ts, bursts := bs })) := by
      rw [hstep, State.runCloser_burst (by exact hc) (by exact hbursts)]
      rfl
    refine ⟨fun i j l hc hk => ?first, fun i hc hk => ?last, fun i j hc hk => ?both⟩
    case first =>
      rw [hrun (by simp [hc]), hk, State.closeRun, State.closeStep_more (by exact hc), State.closeRun]
      rfl
    case last =>
      obtain ⟨n, rfl⟩ := Nat.exists_eq_add_of_le' hk
      rw [hrun (by simp [hc]), State.closeRun, State.closeStep_last (by exact hc),
        State.closeRun_done n rfl]
      rfl
    case both =>
      rw [hrun (by simp [hc]), State.closeRun_both (by exact hc) hk]
      rfl

/-! ### The agents outside the block -/

section
variable {s t : State}

/-- An outside agent changes RX, TX, the locks and the marks of blocked attempts at most. -/
theorem Outside.frame (h : Outside s t) : t = { s with
    rx := t.rx, tx := t.tx, chlock := t.chlock, pinlock := t.pinlock, waiting := t.waiting,
    parked := t.parked } := by
  cases h <;> rfl

theorem Outside.keeps_line (h : Outside s t) :
    t.waiting.map (fun w => (w.thread, w.instr)) = s.waiting.map (fun w => (w.thread, w.instr)) := by
  cases h
  case pinFreed i _ => simp [State.releasePin, State.setPin, Function.comp_def]
  all_goals rfl

theorem Outside.rx_grows (h : Outside s t) : s.rx <+: t.rx := by
  cases h
  case received b => exact List.prefix_append _ _
  all_goals exact List.prefix_rfl

theorem Outside.keeps_channel (h : Outside s t) (hheld : s.chlock = .held .sequencer) :
    t.chlock = .held .sequencer ∧ t.tx = s.tx := by
  cases h
  case locked hlock => exact absurd (hlock.symm.trans hheld) nofun
  case wrote b hlock => exact absurd (hlock.symm.trans hheld) nofun
  case unlocked hlock => exact absurd (hlock.symm.trans hheld) nofun
  all_goals exact ⟨hheld, rfl⟩

/-- A pin that an agent's move writes is not the engine's. -/
theorem Outside.keeps_engine_pin (h : Outside s t) {j : Nat}
    (hheld : s.pinlock[j]? = some (.held .engine)) : t.pinlock[j]? = some (.held .engine) := by
  have hset {i : Nat} (l : PinLock) (hi : s.pinlock[i]? ≠ some (.held .engine)) :
      (s.pinlock.set i l)[j]? = some (.held .engine) := by
    have hij : i ≠ j := fun heq => hi (heq ▸ hheld)
    rwa [List.getElem?_set_ne hij]
  cases h
  case pinTaken i hi => exact hset _ (by simp [hi])
  case pinFreed i hi => exact hset _ (by simp [hi])
  case poisoned i hi =>
    refine hset _ fun hengine => ?_
    obtain hother | ⟨th, hhost, -⟩ := State.mayFail_iff.1 hi
    · exact absurd (hother.symm.trans hengine) nofun
    · exact absurd (hhost.symm.trans hengine) nofun
  all_goals exact hheld

end

/-- A move that poisons a pin is enabled where a holder may fail (log entry 19). -/
theorem applyEnv_poison_of_not {s : State} {i : Nat} (hother : s.pinlock[i]? ≠ some (.held .other))
    (hhost : ∀ th, s.pinlock[i]? = some (.held (.host th)) → th ∈ s.inCall) :
    applyEnv (.poison i) s = s := by
  refine if_neg fun hmay => ?_
  obtain h | ⟨th, h, hout⟩ := State.mayFail_iff.1 hmay
  · exact hother h
  · exact hout (hhost th h)

/-- Settles O59: the moves one by one, then what all of them keep. -/
theorem outsideAgentsKeepTheEngine : Obligations.OutsideAgentsKeepTheEngine := by
  intro s m
  have hout := applyEnv_outside m s
  refine ⟨fun ts hturn => step_known hturn, fun b => rfl, fun h => if_pos h, fun h => if_neg h,
    fun b h => ⟨if_pos h, if_pos h⟩, fun b h => ⟨if_neg h, if_neg h⟩, fun i => ?pins, hout.frame,
    hout.keeps_line, hout.rx_grows, hout.keeps_channel, fun j => hout.keeps_engine_pin⟩
  case pins =>
    exact ⟨fun h => if_pos h, fun h => if_neg h, fun h => if_pos h, fun h => if_neg h,
      fun h => if_pos (State.mayFail_iff.2 h), applyEnv_poison_of_not⟩

/-! ### Port construction, and the two ports -/

/-- Settles O54: the default parameters meet their constraints, the sequencer is idle, and nothing is
held, taken or waiting. -/
theorem resetMeetsInv : Obligations.ResetMeetsInv where
  sizes := ⟨show Config.gk.wf = true by decide, rfl, List.length_replicate, List.length_replicate,
    List.length_replicate⟩
  sequencing := by
    constructor <;> simp [State.reset, State.fresh, Phase.locked, Phase.operation]
  ownership := by
    simp [State.Ownership, State.opening, State.reset, State.fresh]
  pins := by
    constructor <;> simp [State.reset, State.fresh]
  waits := by
    constructor <;> simp [State.reset, State.fresh, State.inCall]

/-- Settles O55: the values of rule R29, and `N_PINS` free locks. -/
theorem resetIsAFreshPort : Obligations.ResetIsAFreshPort :=
  ⟨rfl, rfl, fun _ hi => List.getElem?_replicate_of_lt hi, rfl, rfl, rfl, rfl, rfl⟩

/-- Settles O56: whether the endpoint is reachable is all that port construction looks at. -/
theorem unreachableEndpoint : Obligations.UnreachableEndpoint :=
  fun _ _ => ⟨rfl, rfl⟩

theorem Board.get_put_same (x : Board) (p : PortName) (s : State) : (x.put p s).get p = s := by
  cases p <;> rfl

theorem Board.get_put_other {p q : PortName} (h : q ≠ p) (x : Board) (s : State) :
    (x.put p s).get q = x.get q := by
  match p, q with
  | .a, .b => rfl
  | .b, .a => rfl
  | .a, .a => exact absurd rfl h
  | .b, .b => exact absurd rfl h

/-- Settles O60: a step of the board is the step of one port, put back in its place. -/
theorem portsShareNothing : Obligations.PortsShareNothing := by
  intro x y p q hstep hq
  rw [Board.step] at hstep
  cases hport : Machine.step (x.get p) with
  | next t =>
    rw [hport] at hstep
    obtain rfl : x.put p t = y := Host.Outcome.next.inj hstep
    exact ⟨Board.get_put_other hq x t, by rw [Board.get_put_same]⟩
  | fault _ => rw [hport] at hstep; cases hstep
  | refused _ => rw [hport] at hstep; cases hstep

end Sys2Proof.Machine
end

section
/-! PROOFS. The divisor between the two ends of its clamp (rules R141 to R147): one equation over the
integers, from which rounding, order and the closed form follow. -/

namespace Sys2Proof.Machine

section
variable {c : Config} {f f1 f2 : Freq}

theorem computeDivisor_zero (c : Config) : computeDivisor c 0#32 = 255#8 := if_pos rfl

/-- In range the byte is `raw` rounded down: 8 bits hold it. -/
theorem computeDivisor_toNat_of_in_range (hf : f ≠ 0#32) (hlow : 0 ≤ divisorRaw c f)
    (hhigh : divisorRaw c f ≤ 255) : ((computeDivisor c f).toNat : Int) = ⌊divisorRaw c f⌋ := by
  have hfloor : (divisorRaw c f).floor = ⌊divisorRaw c f⌋ := rfl
  have hpos : 0 ≤ ⌊divisorRaw c f⌋ := Int.floor_nonneg.2 hlow
  have hle : ⌊divisorRaw c f⌋ ≤ 255 := Int.floor_le_iff.2 (by push_cast; linarith)
  rw [computeDivisor, if_neg hf, if_neg (not_lt.2 hhigh), if_neg (not_lt.2 hlow), hfloor,
    BitVec.toNat_ofInt]
  omega

/-- The byte of every frequency but 0: `raw` rounded down, then clamped. -/
theorem computeDivisor_toNat (hf : f ≠ 0#32) :
    ((computeDivisor c f).toNat : Int) = max 0 (min ⌊divisorRaw c f⌋ 255) := by
  rcases lt_or_ge 255 (divisorRaw c f) with habove | hhigh
  · have hfloor : 255 ≤ ⌊divisorRaw c f⌋ := Int.le_floor.2 (by exact_mod_cast habove.le)
    rw [computeDivisor_of_raw_above hf habove, min_eq_right hfloor]
    rfl
  rcases lt_or_ge (divisorRaw c f) 0 with hbelow | hlow
  · have hfloor : ⌊divisorRaw c f⌋ < 0 := Int.floor_lt.2 (by exact_mod_cast hbelow)
    rw [computeDivisor_of_raw_negative hf hbelow, max_eq_left (min_le_of_left_le hfloor.le)]
    rfl
  · have hpos : 0 ≤ ⌊divisorRaw c f⌋ := Int.floor_nonneg.2 hlow
    have hle : ⌊divisorRaw c f⌋ ≤ 255 := Int.floor_le_iff.2 (by push_cast; linarith)
    rw [computeDivisor_toNat_of_in_range hf hlow hhigh, min_eq_left hle, max_eq_right hpos]

theorem toNat_pos_of_ne_zero (hf : f ≠ 0#32) : 0 < f.toNat :=
  Nat.pos_of_ne_zero fun h => hf (BitVec.eq_of_toNat_eq h)

/-- The parameters' constraints on which the order of `raw` rests. -/
theorem wf_divisor (h : c.wf = true) : 0 < c.maxClock ∧ 0 < c.scale.toRat := by
  simp only [Config.wf, Bool.and_eq_true, decide_eq_true_eq] at h
  obtain ⟨⟨⟨⟨⟨⟨⟨⟨hclock, -⟩, -⟩, hnum⟩, hden⟩, -⟩, -⟩, -⟩, -⟩ := h
  exact ⟨hclock, div_pos (by exact_mod_cast hnum) (by exact_mod_cast hden)⟩

/-- A higher frequency has no larger `raw` (rule R146). -/
theorem divisorRaw_antitone (hwf : c.wf = true) (hf : f1 ≠ 0#32) (hle : f1.toNat ≤ f2.toNat) :
    divisorRaw c f2 ≤ divisorRaw c f1 := by
  obtain ⟨hclock, hscale⟩ := wf_divisor hwf
  have hpos : (0 : Rat) < f1.toNat := by exact_mod_cast toNat_pos_of_ne_zero hf
  have hcast : (f1.toNat : Rat) ≤ f2.toNat := by exact_mod_cast hle
  have hclock' : (0 : Rat) ≤ c.maxClock := by exact_mod_cast hclock.le
  unfold divisorRaw
  gcongr

end

/-- Settles O2: in range by the rounding, at frequency 0 by the first test (decision D4). -/
theorem divisorRoundsDown : Obligations.DivisorRoundsDown :=
  fun c _ => ⟨computeDivisor_toNat_of_in_range, computeDivisor_zero c⟩

/-- Settles O3: rounding and clamping keep the order of `raw`; at frequency 0 the byte is the largest. -/
theorem divisorNeverRises : Obligations.DivisorNeverRises := by
  intro c f1 f2 hwf hle
  by_cases hf : f1 = 0#32
  · rw [hf, computeDivisor_zero]
    exact Nat.le_of_lt_succ (computeDivisor c f2).isLt
  · have hf2 : f2 ≠ 0#32 := by
      rintro rfl
      exact absurd (toNat_pos_of_ne_zero hf) (by simpa using hle)
    have hfloor := Int.floor_mono (divisorRaw_antitone hwf hf hle)
    have hclamped : ((computeDivisor c f2).toNat : Int) ≤ (computeDivisor c f1).toNat := by
      rw [computeDivisor_toNat hf, computeDivisor_toNat hf2]
      exact max_le_max_left _ (min_le_min_right _ hfloor)
    exact_mod_cast hclamped

/-- `raw` of the default constants as one fraction (rule R147). -/
theorem divisorRaw_gk {f : Freq} (hf : f ≠ 0#32) :
    divisorRaw Config.gk f =
      ((600000000 - 134 * (f.toNat : Int) : Int) : Rat) / ((25 * f.toNat : Nat) : Rat) := by
  have hpos : (f.toNat : Rat) ≠ 0 := by exact_mod_cast (toNat_pos_of_ne_zero hf).ne'
  simp only [divisorRaw, Config.gk, Ratio.toRat]
  push_cast
  field_simp
  ring

/-- Settles O4: the fraction's floor is the integer quotient, which is negative where `N` is. -/
theorem divisorClosedForm : Obligations.DivisorClosedForm := by
  intro f hf
  have hpos : (0 : Int) < 25 * (f.toNat : Int) := by have := toNat_pos_of_ne_zero hf; omega
  rw [computeDivisor_toNat hf, divisorRaw_gk hf, Rat.floor_intCast_div_natCast]
  push_cast
  split
  next hneg =>
    have hquot := Int.ediv_neg_of_neg_of_pos hneg hpos
    omega
  next hnonneg =>
    have hquot := Int.ediv_nonneg (not_lt.1 hnonneg) hpos.le
    omega

end Sys2Proof.Machine
end
